-- ==== Sys2Proof/Word.lean ====
section
/-!
DEFINITION. The word types of the block: bus words, bytes, binary64 patterns.
-/

namespace Sys2Proof

/-- A bus or register word, 32 bits (R9, R70). -/
abbrev Word := BitVec 32

/-- A byte lane of the host port (R77). -/
abbrev Byte := BitVec 8

/-- The 64-bit encoding of an IEEE 754 binary64 value (R10, `bits64`). -/
abbrev F64 := BitVec 64

/-- A byte offset on the host port, 24 bits (R71). -/
abbrev Offset := BitVec 24

end Sys2Proof
end

