-- ==== Sys2Proof/Config.lean ====
section
/-!
DEFINITION. What one instance of the block fixes (R7) and the values the spec leaves free: the Gaussian generator
(U6), its state after reset (U5), the payload of a NaN result (U22).
-/

namespace Sys2Proof.Config

/-- The two capacity parameters of R7. They are part of State, so that every statement ranges over every instance. -/
structure Params where
  symCap : Nat
  bitCap : Nat
deriving DecidableEq, Repr

/-- The reference values of R7. -/
def refParams : Params := ⟨4096, 24576⟩

/-- A finite binary64 by its three fields: the exponent field is never all ones. R7 lets a model assume exactly this
of the outputs of `gauss_next`. -/
structure FiniteF64 where
  neg  : Bool
  expo : Fin 2047
  frac : BitVec 52
deriving DecidableEq, Repr, Inhabited

/-- The sign and the payload of a NaN; the fraction field is `low + 1`, so it is never zero. -/
structure NanPattern where
  neg : Bool
  low : Fin 4503599627370495
deriving DecidableEq, Repr, Inhabited

/-- The generator-state type G of R7 and R51. The spec leaves it opaque; the model writes a state as a number, since
State is plain data (log 5). -/
abbrev Gen := Nat

/-- `seed_init` of the parameter GAUSS (R7, R205). Free (U6). -/
opaque seedInit : BitVec 64 → Gen

/-- `gauss_next` of the parameter GAUSS (R7, R206): one finite output and the next state. Free (U6). -/
opaque gaussNext : Gen → FiniteF64 × Gen

/-- The generator state after the n-th reset, "a draw from G" (R54, U5). Free. -/
opaque resetGen : Nat → Gen

/-- Sign and payload of a NaN that AWGN stores (U22), free in everything R210 lets it depend on: the generator state
the draw is taken from, the draw's number, the noise term and the clean component. -/
opaque nanPattern : Gen → Nat → F64 → F64 → NanPattern

end Sys2Proof.Config
end

