-- ==== Sys2Proof/Syntax.lean ====
section
/-!
DEFINITION. Syntax: the commands of the opcode table (R102), the names of registers and buffers, and the host-script
statements of R107 and R108.
-/

namespace Sys2Proof

/-- The symbol buffers, and so the value of the SRC field of DEMOD: 0 is CLEAN, 1 is NOISY (R101). -/
inductive Source where
  | clean
  | noisy
deriving DecidableEq, Repr

/-- The commands, one constructor for each row of the opcode table (R102). Every other operand is a register or a
buffer (R103). -/
inductive Instr where
  | nop
  | const
  | mod
  | awgn
  | demod (src : Source)
  | seed
deriving DecidableEq, Repr

/-- The fifteen registers of the map of 10_state.md section 2. -/
inductive Reg where
  | id
  | symcap
  | bitcap
  | cmd
  | status
  | ctrl
  | m
  | len
  | symcnt
  | outlen
  | varLo
  | varHi
  | seedLo
  | seedHi
  | errIdx
deriving DecidableEq, Repr

/-- The four buffers (R45 to R48). -/
inductive Buf where
  | bitin
  | bitout
  | clean
  | noisy
deriving DecidableEq, Repr

/-- The host-script statements: the four basic ones of R107 and the pseudo-instructions of R108. -/
inductive Stmt where
  | wr (r : Reg) (v : Word)
  | rd (r : Reg)
  | wrw (b : Buf) (w : Nat) (v : Word)
  | rdw (b : Buf) (w : Nat)
  | cmd (i : Instr)
  | wr64Var (v : F64)
  | wr64Seed (s : BitVec 64)
  | wrsym (b : Source) (k : Nat) (i q : F64)
  | wait
  | level (v : F64)
deriving DecidableEq, Repr

end Sys2Proof
end

