-- ==== Sys2Proof/WellFormed.lean ====
section
/-!
DEFINITION. Well-formedness: of a command, of the instance's parameters (R7), of a host-script statement (R107, R108).
-/

namespace Sys2Proof

/-- Every command is well formed: its one operand, SRC, is a two-valued selector (R103), and both values are legal. -/
def Instr.wf : Instr → Bool
  | .nop => true
  | .const => true
  | .mod => true
  | .awgn => true
  | .demod _ => true
  | .seed => true

/-- The constraints of R7 on the two capacities. -/
def Config.Params.wf (p : Config.Params) : Bool :=
  decide (64 ≤ p.symCap) && decide (p.symCap ≤ 2 ^ 18) && decide (32 ≤ p.bitCap) && decide (p.bitCap ≤ 2 ^ 23) &&
    decide (p.bitCap % 32 = 0)

/-- How many words the address range kept for a buffer's window holds (R72): the range's size over four. -/
def Buf.rangeWords : Buf → Nat
  | .bitin => 0x40000
  | .bitout => 0x80000
  | .clean => 0x100000
  | .noisy => 0x200000

/-- A statement that names a buffer word stays inside the range the map keeps for that buffer (R72, R107), so that its
expansion names the buffer and no other region. -/
def Stmt.wf : Stmt → Bool
  | .wr _ _ => true
  | .rd _ => true
  | .wrw b w _ => decide (w < b.rangeWords)
  | .rdw b w => decide (w < b.rangeWords)
  | .cmd i => i.wf
  | .wr64Var _ => true
  | .wr64Seed _ => true
  | .wrsym .clean k _ _ => decide (4 * k + 3 < Buf.rangeWords .clean)
  | .wrsym .noisy k _ _ => decide (4 * k + 3 < Buf.rangeWords .noisy)
  | .wait => true
  | .level _ => true

end Sys2Proof
end

