-- ==== Sys2Proof/Decode.lean ====
section
/-!
DEFINITION. The command decoder (R104 to R106), total on every word and on every list of bytes, and the encoder.
-/

namespace Sys2Proof

/-- Why a word is no legal command: the first condition of R104 it breaks; or too few bytes for a word (R100). -/
inductive DecodeError where
  | reservedOp
  | rsv0NotZero
  | rsv1NotZero
  | srcOutsideDemod
  | truncated
deriving DecidableEq, Repr

/-- Field OP, bits 3:0 (R101). -/
def opField (c : Word) : Nat := (c.extractLsb' 0 4).toNat

/-- Field RSV0, bits 7:4 (R101). -/
def rsv0Field (c : Word) : Nat := (c.extractLsb' 4 4).toNat

/-- Field SRC, bit 8 (R101). -/
def srcField (c : Word) : Bool := c.getLsbD 8

/-- Field RSV1, bits 31:9 (R101). -/
def rsv1Field (c : Word) : Nat := (c.extractLsb' 9 23).toNat

/-- The legality rule R104. -/
def legal (c : Word) : Bool :=
  decide (opField c ≤ 5) && decide (rsv0Field c = 0) && decide (rsv1Field c = 0) && (!srcField c || decide (opField c = 4))

/-- The source the SRC bit selects (R101). -/
def sourceOf (bit : Bool) : Source := if bit then .noisy else .clean

/-- R106, with the broken condition of R104 named where the word is illegal. -/
def decode (c : Word) : Except DecodeError Instr :=
  if 5 < opField c then .error .reservedOp
  else if rsv0Field c ≠ 0 then .error .rsv0NotZero
  else if rsv1Field c ≠ 0 then .error .rsv1NotZero
  else if srcField c = true ∧ opField c ≠ 4 then .error .srcOutsideDemod
  else
    match opField c with
    | 0 => .ok .nop
    | 1 => .ok .const
    | 2 => .ok .mod
    | 3 => .ok .awgn
    | 4 => .ok (.demod (sourceOf (srcField c)))
    | 5 => .ok .seed
    | _ => .error .reservedOp

/-- The word of four byte lanes, lane 0 first (R77). -/
def wordOfLanes (b0 b1 b2 b3 : Byte) : Word := b3 ++ (b2 ++ (b1 ++ b0))

/-- The byte lanes of a word, lane 0 first (R77). -/
def lanesOf (c : Word) : List Byte :=
  [c.extractLsb' 0 8, c.extractLsb' 8 8, c.extractLsb' 16 8, c.extractLsb' 24 8]

/-- The decoder on bytes: one command is exactly one word (R100), its lanes in R77's order; what follows is the rest. -/
def decodeBytes : List Byte → Except DecodeError (Instr × List Byte)
  | b0 :: b1 :: b2 :: b3 :: rest => (decode (wordOfLanes b0 b1 b2 b3)).map fun i => (i, rest)
  | _ => .error .truncated

/-- The SRC bit of a source (R101). -/
def srcBit : Source → Bool
  | .clean => false
  | .noisy => true

/-- OP of a command (R102). -/
def opcodeOf : Instr → BitVec 4
  | .nop => 0#4
  | .const => 1#4
  | .mod => 2#4
  | .awgn => 3#4
  | .demod _ => 4#4
  | .seed => 5#4

/-- SRC of a command: 0 for every command but DEMOD (R101). -/
def srcOf : Instr → Bool
  | .demod src => srcBit src
  | .nop => false
  | .const => false
  | .mod => false
  | .awgn => false
  | .seed => false

/-- The command word: RSV1, SRC, RSV0, OP from bit 31 down, as R101 lays it out. -/
def encode (i : Instr) : Word :=
  0#23 ++ (BitVec.ofBool (srcOf i) ++ (0#4 ++ opcodeOf i))

/-- The command the decoder reads from a table word of nbits bits (every bit above them 0), its lanes laid out as the
host port carries them. -/
def decodeTableWord (nbits w : Nat) : Option Instr :=
  match decodeBytes (lanesOf (BitVec.ofNat 32 (w % 2 ^ nbits))) with
  | .ok (i, _) => some i
  | .error _ => none

end Sys2Proof
end

