-- ==== Sys2Proof/Machine/State.lean ====
section
/-!
DEFINITION. The state of the block (10_state.md), the outside world's inputs to it, the reasons a step can stop, and
the state after reset (R54).
-/

namespace Sys2Proof.Machine

/-- The completion codes of R260. Codes 7 to 15 are never produced (U15), so no constructor stands for them. -/
inductive Code where
  | ok
  | invalidConfiguration
  | invalidInput
  | degenerateParameter
  | illegalCommand
  | capacityExceeded
  | nonFiniteSymbol
deriving DecidableEq, Repr

/-- The latched command set L of R50 and R131. -/
structure Latch where
  cmd    : Word
  m      : Word
  len    : Word
  symcnt : Word
  var    : F64
  seed   : BitVec 64
deriving DecidableEq, Repr

/-- One access on the host port: offset, enabled byte lanes, and the data of a write (R70, R71, R73). -/
structure Access where
  addr  : Offset
  lanes : BitVec 4
  write : Option Word
deriving DecidableEq, Repr

/-- What the host has still to do: a bus access, or WAIT, which polls STATUS until BUSY reads 0 (R108). -/
inductive HostOp where
  | access (a : Access)
  | wait
deriving DecidableEq, Repr

/-- Who moves: one of the two agents of R13, or the reset input (R290). -/
inductive Turn where
  | host
  | engine
  | resetAssert
  | resetRelease
deriving DecidableEq, Repr

/-- The outside world: the host's remaining accesses, the order of moves as far as it is fixed, the data the port
returned last, the level of the reset input, and how often reset was asserted (log 1, log 2, log 6). -/
structure Env where
  script    : List HostOp
  turns     : List Turn
  readData  : Option Word
  resetHeld : Bool
  resets    : Nat
deriving DecidableEq, Repr

/-- Why the machine stops. Each of the first six is a fault the spec tells a model to take (93, treatment `fault`). -/
inductive Fault where
  /-- Raised by a host access whose offset is not a multiple of 4 (R73, R74, U9). Safe: the model stops. -/
  | busMisaligned
  /-- Raised by a host access that does not enable all four byte lanes (R73, R74, U9). Safe: the model stops. -/
  | busLanes
  /-- Raised by a host access to an unmapped offset (R72, R74, U9). Safe: the model stops. -/
  | busUnmapped
  /-- Raised by a host access to a buffer window while BUSY = 1 (R300, U10). Safe: the model stops. -/
  | bufferWhileBusy
  /-- Raised by a host read of a buffer word part of which was never written since reset (R49, R305, U4). Safe: the
  model stops. -/
  | unwrittenHostRead
  /-- Raised by MOD, AWGN and DEMOD when they read a buffer cell never written since reset (R49, R305, U4). Safe: the
  model stops. -/
  | unwrittenOperand
  /-- Raised by `exec` when it is called with no command in flight; the engine has no such step (R134) and `step`
  never makes that call. Safe: the model stops. -/
  | noCommand
deriving DecidableEq, Repr

/-- Why an instruction has no meaning. -/
inductive Refusal where
  /-- Raised by an arm of `exec` whose instruction has no meaning yet. No arm is so. Safe: the model stops. -/
  | notModelled (mnemonic : String)
deriving DecidableEq, Repr

/-- The state of the block. Bit buffers list the written bits by index, symbol buffers the written bytes by window
offset (R75, R76); what is not listed was never written since reset (R49). `engine` is busy and L in one: none while
busy = 0 (R50). -/
structure State where
  params : Config.Params
  done   : Bool
  drop   : Bool
  err    : Code
  irqEn  : Bool
  m      : Word
  len    : Word
  symcnt : Word
  outlen : Word
  varLo  : Word
  varHi  : Word
  seedLo : Word
  seedHi : Word
  errIdx : Word
  bitin  : List (Nat × Bool)
  bitout : List (Nat × Bool)
  clean  : List Host.Cell
  noisy  : List Host.Cell
  engine : Option Latch
  rng    : Config.Gen
  env    : Env
deriving DecidableEq, Repr

/-- R54: the state after reset, of the reference instance of R7, with nothing for the host to do. -/
def State.reset : State where
  params := Config.refParams
  done   := false
  drop   := false
  err    := .ok
  irqEn  := false
  m      := 0#32
  len    := 0#32
  symcnt := 0#32
  outlen := 0#32
  varLo  := 0#32
  varHi  := 0#32
  seedLo := 0#32
  seedHi := 0#32
  errIdx := 0#32
  bitin  := []
  bitout := []
  clean  := []
  noisy  := []
  engine := none
  rng    := Config.resetGen 0
  env    := { script := [], turns := [], readData := none, resetHeld := false, resets := 0 }

/-- The answer of one step of an agent. -/
abbrev Result := Host.Outcome State Fault Refusal

end Sys2Proof.Machine
end

