-- ==== Sys2Proof/Machine/Ops.lean ====
section
/-!
DEFINITION. The named operations over buffers and registers, acceptance and latching (R130, R131), completion (R133),
error completion (R266, the block's taking of an exception), the way back from it (R269), and reset (R290).
-/

namespace Sys2Proof.Machine

/-! Buffers: a cell list is read at one key, read over a run of keys, and written over a run of keys. -/

/-- What a cell list holds at a key; none where nothing was written (R49). -/
def Memory.get {α : Type} : List (Nat × α) → Nat → Option α
  | [], _ => none
  | (k, v) :: l, a => if k = a then some v else Memory.get l a

/-- The values of f at k, k + 1, …, k + n - 1, none if one of them is none. -/
def collect {α : Type} (f : Nat → Option α) : Nat → Nat → Option (List α)
  | _, 0 => some []
  | k, n + 1 =>
    match f k with
    | none => none
    | some v =>
      match collect f (k + 1) n with
      | none => none
      | some vs => some (v :: vs)

/-- The n cells from key a on. Cells below a are skipped once, not at every key: `Memory.load_eq` says that this reads
what `Memory.get` reads. -/
def Memory.load {α : Type} (l : List (Nat × α)) (a n : Nat) : Option (List α) :=
  collect (Memory.get (l.dropWhile fun c => decide (c.1 < a))) a n

/-- The cells of a run of values. -/
def Memory.run {α : Type} : Nat → List α → List (Nat × α)
  | _, [] => []
  | a, v :: vs => (a, v) :: Memory.run (a + 1) vs

/-- Writing a run of values from key a on. -/
def Memory.store {α : Type} (l : List (Nat × α)) (a : Nat) (vs : List α) : List (Nat × α) :=
  l.filter (fun c => decide (c.1 < a)) ++ (Memory.run a vs ++ l.filter (fun c => decide (a + vs.length ≤ c.1)))

/-- The canonical form of a cell list: keys strictly rising. An unlisted key holds no value, which no entry equals. -/
abbrev Memory.wf {α : Type} (l : List (Nat × α)) : Prop := (l.map Prod.fst).Pairwise (· < ·)

/-- Every key below a bound. -/
abbrev Memory.within {α : Type} (bound : Nat) (l : List (Nat × α)) : Prop := ∀ k ∈ l.map Prod.fst, k < bound

/-! Numbers as byte runs and as bit runs. -/

/-- The n low bytes of a number, least significant first (R77). -/
def bytesLE : Nat → Nat → List Byte
  | 0, _ => []
  | n + 1, v => BitVec.ofNat 8 v :: bytesLE n (v / 256)

/-- The number of a byte run, least significant first (R77). -/
def ofBytesLE : List Byte → Nat
  | [] => 0
  | b :: bs => b.toNat + 256 * ofBytesLE bs

/-- The n low bits of a number, most significant first (R75, R232). -/
def bitsMSB : Nat → Nat → List Bool
  | 0, _ => []
  | n + 1, v => v.testBit n :: bitsMSB n v

/-- The number of a bit run, most significant first (R75, R181). -/
def ofBitsMSB : List Bool → Nat
  | [] => 0
  | b :: bs => b.toNat * 2 ^ bs.length + ofBitsMSB bs

/-! Symbols. -/

/-- A symbol (I, Q) (R14, R76). -/
structure Symbol where
  i : F64
  q : F64
deriving DecidableEq, Repr

/-- The 16 bytes of a symbol entry: I, then Q, each low word first (R76, R77). -/
def Symbol.bytes (z : Symbol) : List Byte := bytesLE 8 z.i.toNat ++ bytesLE 8 z.q.toNat

/-- The component at a window offset; none where one of its bytes was never written. -/
def loadF64 (l : List Host.Cell) (off : Nat) : Option F64 :=
  (Memory.load l off 8).map fun bs => BitVec.ofNat 64 (ofBytesLE bs)

/-- Entry k of a symbol buffer (R76); none where one of its bytes was never written (log 9). -/
def loadSymbol (l : List Host.Cell) (k : Nat) : Option Symbol :=
  match loadF64 l (16 * k), loadF64 l (16 * k + 8) with
  | some i, some q => some ⟨i, q⟩
  | _, _ => none

/-- Writing entries 0, 1, … of a symbol buffer. -/
def storeSymbols (l : List Host.Cell) (zs : List Symbol) : List Host.Cell :=
  Memory.store l 0 (zs.flatMap Symbol.bytes)

/-! Derived registers and signals. -/

/-- busy, which is STATUS.BUSY (R50). -/
def State.busy (s : State) : Bool := s.engine.isSome

/-- The interrupt output (R52, R270). -/
def State.irq (s : State) : Bool := s.irqEn && s.done

/-- VAR (R41). -/
def State.var (s : State) : F64 := s.varHi ++ s.varLo

/-- SEED (R42). -/
def State.seed (s : State) : BitVec 64 := s.seedHi ++ s.seedLo

/-! The life of a command. -/

/-- R131: what is latched when the word c is accepted. -/
def latch (s : State) (c : Word) : Latch :=
  { cmd := c, m := s.m, len := s.len, symcnt := s.symcnt, var := s.var, seed := s.seed }

/-- R130: acceptance of the word c; it is also the way back from an error (R269). -/
def accept (s : State) (c : Word) : State :=
  { s with engine := some (latch s c), done := false, err := .ok }

/-- A CMD write (R130, R132): accepted when idle, dropped when busy. -/
def offer (s : State) (c : Word) : State :=
  match s.engine with
  | none => accept s c
  | some _ => { s with drop := true }

/-- R133: completion with a code and an index. ERRIDX is the index for NonFiniteSymbol and 0 for every other code. -/
def finish (s : State) (e : Code) (j : Nat) : State :=
  { s with err := e, errIdx := if e = .nonFiniteSymbol then BitVec.ofNat 32 j else 0#32, engine := none, done := true }

/-- `complete(OK)` of R11. -/
def complete (s : State) : Result := .next (finish s .ok 0)

/-- `raise` of R11, which is R266: the four completion fields are written and nothing else. -/
def raise (s : State) (e : Code) (j : Nat) : Result := .next (finish s e j)

/-- R269: the host's acknowledgement of a completion, a write of 1 to STATUS.DONE. -/
def acknowledge (s : State) : State := { s with done := false }

/-- The engine's step needs a command in flight (R134). -/
def withCommand (s : State) (f : Latch → Result) : Result :=
  match s.engine with
  | none => .fault .noCommand
  | some L => f L

/-- An accepted word that is no command (R136). -/
def execIllegal (s : State) : Result :=
  withCommand s fun _ => raise s .illegalCommand 0

/-! Reset. -/

/-- R290, R291: reset is asserted. Every piece of state takes the value of R54, the generator state is a new draw, the
instance's parameters and the host's side stay. -/
def assertReset (s : State) : State :=
  { State.reset with
    params := s.params
    rng := Config.resetGen (s.env.resets + 1)
    env := { s.env with resetHeld := true, resets := s.env.resets + 1 } }

/-- The reset input is released (R290). -/
def releaseReset (s : State) : State := { s with env := { s.env with resetHeld := false } }

end Sys2Proof.Machine
end

