-- ==== Sys2Proof/Machine/Flags.lean ====
section
/-!
DEFINITION. STATUS and CTRL: their fields in a register word, the completion codes' numbers, write-1-to-clear
(R35, R36, R260).
-/

namespace Sys2Proof.Machine

/-- The number of a completion code (R260). -/
def Code.number : Code → BitVec 4
  | .ok => 0#4
  | .invalidConfiguration => 1#4
  | .invalidInput => 2#4
  | .degenerateParameter => 3#4
  | .illegalCommand => 4#4
  | .capacityExceeded => 5#4
  | .nonFiniteSymbol => 6#4

/-- STATUS as a read returns it: ERR at 11:8, DROP at 2, DONE at 1, BUSY at 0, the reserved bits 0 (R35, R44). -/
def State.statusWord (s : State) : Word :=
  0#20 ++ (s.err.number ++ (0#5 ++ (BitVec.ofBool s.drop ++ (BitVec.ofBool s.done ++ BitVec.ofBool s.busy))))

/-- A host write to STATUS: DONE and DROP are cleared by a 1, nothing else changes (R35). A cleared DONE is the
acknowledgement of R269. -/
def writeStatus (s : State) (w : Word) : State :=
  { (if w.getLsbD 1 then acknowledge s else s) with drop := s.drop && !w.getLsbD 2 }

/-- CTRL as a read returns it (R36). -/
def State.ctrlWord (s : State) : Word := 0#31 ++ BitVec.ofBool s.irqEn

/-- A host write to CTRL: bit 0 is IRQ_EN, the rest is ignored (R36, R44). -/
def writeCtrl (s : State) (w : Word) : State := { s with irqEn := w.getLsbD 0 }

end Sys2Proof.Machine
end

