-- ==== Sys2Proof/Machine/Float.lean ====
section
/-!
DEFINITION. IEEE 754 binary64 as R10, R201, R202 and R208 use it. A finite value is an integer number of units of
2^-1074, the least positive binary64, so that every comparison and sum is one of integers.
-/

namespace Sys2Proof

/-- `bits64` of a finite value (R10). -/
def Config.FiniteF64.bits (z : Config.FiniteF64) : F64 :=
  BitVec.ofBool z.neg ++ (BitVec.ofNat 11 z.expo.val ++ z.frac)

/-- `bits64` of a NaN. -/
def Config.NanPattern.bits (n : Config.NanPattern) : F64 :=
  BitVec.ofBool n.neg ++ (BitVec.allOnes 11 ++ BitVec.ofNat 52 (n.low.val + 1))

end Sys2Proof

namespace Sys2Proof.Fp

/-- One, in units of 2^-1074. -/
@[irreducible] def one : Nat := 2 ^ 1074

/-- Sign bit. -/
def sign (x : F64) : Bool := x.getLsbD 63

/-- Exponent field. -/
def expo (x : F64) : Nat := (x.extractLsb' 52 11).toNat

/-- Fraction field. -/
def frac (x : F64) : Nat := (x.extractLsb' 0 52).toNat

def isNaN (x : F64) : Bool := decide (expo x = 2047) && decide (frac x ≠ 0)

def isInf (x : F64) : Bool := decide (expo x = 2047) && decide (frac x = 0)

def isFinite (x : F64) : Bool := decide (expo x ≠ 2047)

/-- Either zero. -/
def isZero (x : F64) : Bool := decide (expo x = 0) && decide (frac x = 0)

/-- The significand as an integer: the fraction field, and the hidden bit where the value is normal. -/
def significand (x : F64) : Nat := if expo x = 0 then frac x else frac x + 2 ^ 52

/-- The binary exponent of the significand's unit over 2^-1074. -/
def scale (x : F64) : Nat := expo x - 1

/-- The magnitude of a finite value, in units of 2^-1074. -/
def mag (x : F64) : Nat := significand x * 2 ^ scale x

/-- A finite value, in units of 2^-1074. -/
def units (x : F64) : Int := if sign x then -(mag x : Int) else (mag x : Int)

/-- The 63 low bits of an infinity. -/
def infBits : Nat := 2047 * 2 ^ 52

/-- The encoding with a sign and the 63 low bits. -/
def pack (neg : Bool) (low : Nat) : F64 := BitVec.ofNat 64 (if neg then 2 ^ 63 + low else low)

/-- The infinity of a sign. -/
def infinity (neg : Bool) : F64 := pack neg infBits

/-- How many bits must be cut from n / 2^d units to leave 53, or to leave a whole number of units if that is more. -/
def cut (n d : Nat) : Nat := d + ((Nat.log2 n + 1) - (d + 53))

/-- n / 2^t to the nearest integer, a tie to the even one. -/
def nearestEven (n t : Nat) : Nat :=
  if n % 2 ^ t * 2 < 2 ^ t then n / 2 ^ t
  else if n % 2 ^ t * 2 = 2 ^ t then n / 2 ^ t + n / 2 ^ t % 2
  else n / 2 ^ t + 1

/-- The 63 low bits of `fl` of the magnitude n / 2^d units (R10): 53 significant bits, to nearest, ties to even;
beyond the range, infinity. A significand rounded up to 2^53 carries into the exponent field. -/
def round (n d : Nat) : Nat :=
  Nat.min infBits ((cut n d - d) * 2 ^ 52 + nearestEven n (cut n d))

/-- `fl_add` (R10). `nan` is the NaN it returns where the standard asks for one (U22). An exact zero sum is +0 unless
both terms are negative zeros (R207, G5). -/
def add (nan a b : F64) : F64 :=
  if isNaN a || isNaN b then nan
  else if isInf a then if isInf b && (sign a != sign b) then nan else a
  else if isInf b then b
  else if units a + units b = 0 then pack (sign a && sign b) 0
  else pack (decide (units a + units b < 0)) (round (units a + units b).natAbs 0)

/-- `fl_mul` (R10). -/
def mul (nan a b : F64) : F64 :=
  if isNaN a || isNaN b then nan
  else if isInf a || isInf b then
    if isZero a || isZero b then nan else infinity (sign a != sign b)
  else pack (sign a != sign b) (round (mag a * mag b) 1074)

/-- The integer square root of n < 4^k. -/
def isqrt : Nat → Nat → Nat
  | 0, _ => 0
  | k + 1, n =>
    let r := 2 * isqrt k (n / 4)
    if (r + 1) * (r + 1) ≤ n then r + 1 else r

/-- The significand as `sqrt` takes it: doubled where its unit is an odd power of two. -/
def evenSignificand (x : F64) : Nat := significand x * 2 ^ (scale x % 2)

/-- Twice the integer square root of significand * 2^110, its last bit set where the root is not exact. -/
def rootSticky (x : F64) : Nat :=
  let n := evenSignificand x * 2 ^ 110
  let r := isqrt 82 n
  2 * r + (if r * r = n then 0 else 1)

/-- `fl_sqrt` (R10, R202): the square root of a signed zero is that zero. -/
def sqrt (nan a : F64) : F64 :=
  if isNaN a then nan
  else if isZero a then a
  else if sign a then nan
  else if isInf a then a
  else pack false (round (rootSticky a * 2 ^ (scale a / 2 + 481)) 0)

/-- Whether a value is above an integer. An infinity decides by its sign; a NaN is above nothing (R235, R237). -/
def above (x : F64) (t : Int) : Bool :=
  if isNaN x then false
  else if isInf x then !sign x
  else decide (t * (one : Int) < units x)

/-- The binary64 of a small integer, exact below 2^53 (R160, R167). -/
def ofInt (z : Int) : F64 := pack (decide (z < 0)) (round (z.natAbs * one) 0)

end Sys2Proof.Fp
end

