-- ==== Sys2Proof/Machine/Operands.lean ====
section
/-!
DEFINITION. The operands of commands and of host accesses: the modulation order (R2, R3), a chunk of BITIN (R181), the
symbol buffer SRC selects (R233), the registers and windows of the address map (R72 to R76).
-/

namespace Sys2Proof.Machine

/-- The supported modulation orders (R2). -/
inductive Order where
  | qam4
  | qam16
  | qam64
deriving DecidableEq, Repr

/-- The order a word stands for; none for every unsupported value (R2, R37, C1). -/
def modOrder (m : Word) : Option Order :=
  if m = 4#32 then some .qam4 else if m = 16#32 then some .qam16 else if m = 64#32 then some .qam64 else none

/-- h(M), the bits per axis (R3). -/
def Order.axisBits : Order → Nat
  | .qam4 => 1
  | .qam16 => 2
  | .qam64 => 3

/-- bps(M) (R2, R3). -/
def Order.bps (o : Order) : Nat := 2 * o.axisBits

/-- side(M) (R2, R3). -/
def Order.side (o : Order) : Nat := 2 ^ o.axisBits

/-- M (R2). -/
def Order.size (o : Order) : Nat := 2 ^ o.bps

/-- The check of M that CONST, MOD and DEMOD make first (R261). -/
def withOrder (s : State) (m : Word) (f : Order → Result) : Result :=
  match modOrder m with
  | none => raise s .invalidConfiguration 0
  | some o => f o

/-- The value of chunk k of BITIN, its first bit the most significant (R181); none where one of its bits was never
written (R49). -/
def loadChunk (o : Order) (bits : List (Nat × Bool)) (k : Nat) : Option Nat :=
  (Memory.load bits (k * o.bps) o.bps).map ofBitsMSB

/-- The symbol buffer that SRC selects (R101, R233). -/
def sourceBuffer (s : State) : Source → List Host.Cell
  | .clean => s.clean
  | .noisy => s.noisy

/-! The address map. -/

/-- The offset of a register (10_state.md section 2). -/
def Reg.offset : Reg → Nat
  | .id => 0x000
  | .symcap => 0x004
  | .bitcap => 0x008
  | .cmd => 0x00C
  | .status => 0x010
  | .ctrl => 0x014
  | .m => 0x018
  | .len => 0x01C
  | .symcnt => 0x020
  | .outlen => 0x024
  | .varLo => 0x028
  | .varHi => 0x02C
  | .seedLo => 0x030
  | .seedHi => 0x034
  | .errIdx => 0x038

/-- The registers in the order of the map. -/
def allRegs : List Reg :=
  [.id, .symcap, .bitcap, .cmd, .status, .ctrl, .m, .len, .symcnt, .outlen, .varLo, .varHi, .seedLo, .seedHi, .errIdx]

/-- The base offset of a buffer's window (R72, R107). -/
def Buf.base : Buf → Nat
  | .bitin => 0x100000
  | .bitout => 0x200000
  | .clean => 0x400000
  | .noisy => 0x800000

/-- The size of a buffer's window in bytes (R72). -/
def Buf.bytes (p : Config.Params) : Buf → Nat
  | .bitin => p.bitCap / 8
  | .bitout => p.bitCap / 8
  | .clean => 16 * p.symCap
  | .noisy => 16 * p.symCap

/-- The four buffers. -/
def allBufs : List Buf := [.bitin, .bitout, .clean, .noisy]

/-- What stands at an offset: a register, or a byte offset inside a buffer's window. -/
inductive Target where
  | reg (r : Reg)
  | window (b : Buf) (off : Nat)
deriving DecidableEq, Repr

/-- The register at an offset. -/
def regAt (a : Nat) : Option Reg := allRegs.find? fun r => decide (Reg.offset r = a)

/-- The window an offset falls in (R72). -/
def bufAt (p : Config.Params) (a : Nat) : Option Buf :=
  allBufs.find? fun b => decide (Buf.base b ≤ a) && decide (a < Buf.base b + Buf.bytes p b)

/-- The address map R72, for an aligned offset; none where it is unmapped. -/
def locate (p : Config.Params) (a : Nat) : Option Target :=
  match regAt a with
  | some r => some (.reg r)
  | none =>
    match bufAt p a with
    | some b => some (.window b (a - Buf.base b))
    | none => none

/-- The identification word of R31. -/
def idWord : Word := 0x51414D07#32

/-- What a host read of a register returns (R31 to R43): CMD reads 0. -/
def readReg (s : State) : Reg → Word
  | .id => idWord
  | .symcap => BitVec.ofNat 32 s.params.symCap
  | .bitcap => BitVec.ofNat 32 s.params.bitCap
  | .cmd => 0#32
  | .status => s.statusWord
  | .ctrl => s.ctrlWord
  | .m => s.m
  | .len => s.len
  | .symcnt => s.symcnt
  | .outlen => s.outlen
  | .varLo => s.varLo
  | .varHi => s.varHi
  | .seedLo => s.seedLo
  | .seedHi => s.seedHi
  | .errIdx => s.errIdx

/-- What a host write of a register does (R31 to R43): a write to a read-only register is ignored. -/
def writeReg (s : State) (r : Reg) (w : Word) : State :=
  match r with
  | .id => s
  | .symcap => s
  | .bitcap => s
  | .cmd => offer s w
  | .status => writeStatus s w
  | .ctrl => writeCtrl s w
  | .m => { s with m := w }
  | .len => { s with len := w }
  | .symcnt => { s with symcnt := w }
  | .outlen => s
  | .varLo => { s with varLo := w }
  | .varHi => { s with varHi := w }
  | .seedLo => { s with seedLo := w }
  | .seedHi => { s with seedHi := w }
  | .errIdx => s

/-- The word of a bit buffer at a window offset: bit i of the buffer is bit 31 - (i mod 32) of word i div 32 (R75). -/
def loadBitWord (l : List (Nat × Bool)) (off : Nat) : Option Word :=
  (Memory.load l (8 * off) 32).map fun bs => BitVec.ofNat 32 (ofBitsMSB bs)

/-- Writing a word of a bit buffer (R75). -/
def storeBitWord (l : List (Nat × Bool)) (off : Nat) (w : Word) : List (Nat × Bool) :=
  Memory.store l (8 * off) (bitsMSB 32 w.toNat)

/-- The word of a symbol buffer at a window offset (R76, R77). -/
def loadByteWord (l : List Host.Cell) (off : Nat) : Option Word :=
  (Memory.load l off 4).map fun bs => BitVec.ofNat 32 (ofBytesLE bs)

/-- Writing a word of a symbol buffer (R76, R77). -/
def storeByteWord (l : List Host.Cell) (off : Nat) (w : Word) : List Host.Cell :=
  Memory.store l off (bytesLE 4 w.toNat)

/-- The word of a buffer at a window offset; none where a part of it was never written (R49). -/
def readBuf (s : State) (b : Buf) (off : Nat) : Option Word :=
  match b with
  | .bitin => loadBitWord s.bitin off
  | .bitout => loadBitWord s.bitout off
  | .clean => loadByteWord s.clean off
  | .noisy => loadByteWord s.noisy off

/-- A host write of a buffer word (R45 to R48: the host may write all four). -/
def writeBuf (s : State) (b : Buf) (off : Nat) (w : Word) : State :=
  match b with
  | .bitin => { s with bitin := storeBitWord s.bitin off w }
  | .bitout => { s with bitout := storeBitWord s.bitout off w }
  | .clean => { s with clean := storeByteWord s.clean off w }
  | .noisy => { s with noisy := storeByteWord s.noisy off w }

end Sys2Proof.Machine
end

