-- ==== Sys2Proof/Machine/Constellation.lean ====
section
/-!
DEFINITION. The Constellation Builder (R160, R161) and command CONST (R162).
-/

namespace Sys2Proof.Machine

/-- The level of axis value k (R161). -/
def level (o : Order) (k : Nat) : Int := 2 * (k : Int) - ((o.side : Int) - 1)

/-- `point(M, idx)` (R160): row is idx div side and sets I, column is idx mod side and sets Q. -/
def point (o : Order) (idx : Nat) : Symbol :=
  ⟨Fp.ofInt (level o (idx / o.side)), Fp.ofInt (level o (idx % o.side))⟩

/-- The constellation, in index order (R162). -/
def constellation (o : Order) : List Symbol := (List.range o.size).map (point o)

/-- CONST (R162): the table of L.M into CLEAN, SYMCNT := M. -/
def execConst (s : State) : Result :=
  withCommand s fun L =>
    withOrder s L.m fun o =>
      complete { s with clean := storeSymbols s.clean (constellation o), symcnt := BitVec.ofNat 32 o.size }

end Sys2Proof.Machine
end

