-- ==== Sys2Proof/Machine/Control.lean ====
section
/-!
DEFINITION. Command NOP (R135).
-/

namespace Sys2Proof.Machine

/-- NOP (R135): it completes OK. -/
def execNop (s : State) : Result :=
  withCommand s fun _ => complete s

end Sys2Proof.Machine
end

