-- ==== Sys2Proof/Machine/Demodulator.lean ====
section
/-!
DEFINITION. The Demodulator: command DEMOD (R232 to R237).
-/

namespace Sys2Proof.Machine

/-- The midpoint between axis levels j and j + 1 (R234). -/
def threshold (o : Order) (j : Nat) : Int := 2 * (j : Int) - (o.side : Int) + 2

/-- `slice(s, x)` (R234): how many of the side - 1 midpoints lie strictly below x; an infinity decides by R237. -/
def slice (o : Order) (x : F64) : Nat :=
  (List.range (o.side - 1)).countP fun j => Fp.above x (threshold o j)

/-- The index of a symbol with no NaN component (R234, R237). -/
def decideIndex (o : Order) (z : Symbol) : Nat := slice o z.i * o.side + slice o z.q

/-- A symbol DEMOD rejects (R236). -/
def Symbol.hasNaN (z : Symbol) : Bool := Fp.isNaN z.i || Fp.isNaN z.q

/-- What the scan of the source symbols finds first: an entry never written, a NaN, or neither. -/
inductive Scan where
  | unwritten
  | nan (k : Nat)
  | clear (zs : List Symbol)
deriving DecidableEq, Repr

/-- The scan of R233, ascending from entry k over n entries, fully before any write: it stops at the first entry that
was never written or has a NaN (log 9). -/
def scan (l : List Host.Cell) : Nat → Nat → Scan
  | _, 0 => .clear []
  | k, n + 1 =>
    match loadSymbol l k with
    | none => .unwritten
    | some z =>
      if z.hasNaN then .nan k
      else
        match scan l (k + 1) n with
        | .unwritten => .unwritten
        | .nan j => .nan j
        | .clear zs => .clear (z :: zs)

/-- The bits of a run of symbols, each index most significant bit first (R232). -/
def demodulate (o : Order) (zs : List Symbol) : List Bool := zs.flatMap fun z => bitsMSB o.bps (decideIndex o z)

/-- The writes of a successful DEMOD of n symbols (R233): BITOUT[0 .. n * bps - 1] and OUTLEN. -/
def demodulated (s : State) (o : Order) (n : Nat) (zs : List Symbol) : State :=
  { s with bitout := Memory.store s.bitout 0 (demodulate o zs), outlen := BitVec.ofNat 32 (n * o.bps) }

/-- DEMOD (R233): the checks in the order of R265, then the source symbols into BITOUT, OUTLEN := L.SYMCNT * bps. -/
def execDemod (src : Source) (s : State) : Result :=
  withCommand s fun L =>
    withOrder s L.m fun o =>
      if s.params.symCap < L.symcnt.toNat ∨ s.params.bitCap < L.symcnt.toNat * o.bps then raise s .capacityExceeded 0
      else
        match scan (sourceBuffer s src) 0 L.symcnt.toNat with
        | .unwritten => .fault .unwrittenOperand
        | .nan k => raise s .nonFiniteSymbol k
        | .clear zs => complete (demodulated s o L.symcnt.toNat zs)

end Sys2Proof.Machine
end

