-- ==== Sys2Proof/Machine/Modulator.lean ====
section
/-!
DEFINITION. The Modulator: command MOD (R180 to R184).
-/

namespace Sys2Proof.Machine

/-- The symbols of n chunks of BITIN (R180, R181); none where a bit of one of them was never written. -/
def modulate (o : Order) (bits : List (Nat × Bool)) (n : Nat) : Option (List Symbol) :=
  (collect (loadChunk o bits) 0 n).map fun idxs => idxs.map (point o)

/-- The writes of a successful MOD of n symbols (R180): CLEAN and SYMCNT. -/
def modulated (s : State) (n : Nat) (zs : List Symbol) : State :=
  { s with clean := storeSymbols s.clean zs, symcnt := BitVec.ofNat 32 n }

/-- MOD (R180): the checks in the order of R265, then BITIN[0 .. L.LEN - 1] into CLEAN, SYMCNT := L.LEN / bps. -/
def execMod (s : State) : Result :=
  withCommand s fun L =>
    withOrder s L.m fun o =>
      if L.len.toNat % o.bps ≠ 0 then raise s .invalidInput 0
      else if s.params.bitCap < L.len.toNat ∨ s.params.symCap < L.len.toNat / o.bps then raise s .capacityExceeded 0
      else
        match modulate o s.bitin (L.len.toNat / o.bps) with
        | none => .fault .unwrittenOperand
        | some zs => complete (modulated s (L.len.toNat / o.bps) zs)

end Sys2Proof.Machine
end

