-- ==== Sys2Proof/Machine/NoiseChannel.lean ====
section
/-!
DEFINITION. The Noise Channel: the generator (R204, R206) and commands AWGN (R203) and SEED (R205).
-/

namespace Sys2Proof.Machine

/-- `valid_var` (R201). -/
def validVar (v : F64) : Bool :=
  !Fp.isNaN v && (!Fp.sign v || Fp.isZero v) && !Fp.isInf v

/-- The generator state after n outputs (R206). -/
def genAfter (g : Config.Gen) : Nat → Config.Gen
  | 0 => g
  | n + 1 => (Config.gaussNext (genAfter g n)).2

/-- Output number n of the generator, counted from the state g (R204, R206). -/
def draw (g : Config.Gen) (n : Nat) : F64 := (Config.gaussNext (genAfter g n)).1.bits

/-- The standard deviation (R202). A valid variance has no NaN root; the NaN `sqrt` asks for is the variance itself. -/
def sigmaOf (v : F64) : F64 := Fp.sqrt v v

/-- The noise term of output z: `fl_mul(sigma, z)`. Both factors are finite, so no NaN arises; the NaN `mul` asks for is
sigma itself. -/
def noiseTerm (sigma z : F64) : F64 := Fp.mul sigma sigma z

/-- One noisy component (R203): the clean component plus the noise term of output number n. A NaN result has a free
payload (U22, log 7). -/
def noisyComponent (g : Config.Gen) (sigma : F64) (n : Nat) (x : F64) : F64 :=
  Fp.add (Config.nanPattern (genAfter g n) n (noiseTerm sigma (draw g n)) x).bits x (noiseTerm sigma (draw g n))

/-- Symbol k with its noise: output 2k goes to I and output 2k + 1 to Q (R204). -/
def noisySymbol (g : Config.Gen) (sigma : F64) (k : Nat) (z : Symbol) : Symbol :=
  ⟨noisyComponent g sigma (2 * k) z.i, noisyComponent g sigma (2 * k + 1) z.q⟩

/-- The noisy symbols of the clean symbols from number k on. -/
def noisySymbols (g : Config.Gen) (sigma : F64) : Nat → List Symbol → List Symbol
  | _, [] => []
  | k, z :: zs => noisySymbol g sigma k z :: noisySymbols g sigma (k + 1) zs

/-- The writes of a successful AWGN of n symbols (R203, R204): NOISY and x[RNG]. -/
def noised (s : State) (n : Nat) (zs : List Symbol) : State :=
  { s with noisy := storeSymbols s.noisy zs, rng := genAfter s.rng (2 * n) }

/-- AWGN (R203): the checks in the order of R265, then CLEAN plus noise into NOISY. -/
def execAwgn (s : State) : Result :=
  withCommand s fun L =>
    if validVar L.var = false then raise s .degenerateParameter 0
    else if s.params.symCap < L.symcnt.toNat then raise s .capacityExceeded 0
    else
      match collect (loadSymbol s.clean) 0 L.symcnt.toNat with
      | none => .fault .unwrittenOperand
      | some zs => complete (noised s L.symcnt.toNat (noisySymbols s.rng (sigmaOf L.var) 0 zs))

/-- SEED (R205): x[RNG] := seed_init(L.SEED). -/
def execSeed (s : State) : Result :=
  withCommand s fun L => complete { s with rng := Config.seedInit L.seed }

end Sys2Proof.Machine
end

