-- ==== Sys2Proof/Machine/Dispatch.lean ====
section
/-!
DEFINITION. The dispatch: one arm for each command of the opcode table.
-/

namespace Sys2Proof.Machine

def exec (i : Instr) (s : State) : Host.Outcome State Fault Refusal :=
  match i with
  | .nop => Sys2Proof.Machine.execNop s
  | .const => Sys2Proof.Machine.execConst s
  | .mod => Sys2Proof.Machine.execMod s
  | .awgn => Sys2Proof.Machine.execAwgn s
  | .demod src => Sys2Proof.Machine.execDemod src s
  | .seed => Sys2Proof.Machine.execSeed s

end Sys2Proof.Machine
end

