-- ==== Sys2Proof/Machine/HostPort.lean ====
section
/-!
DEFINITION. The host agent: one access on the port (R70 to R79), WAIT (R108), and the expansion of the host-script
statements (R107, R108).
-/

namespace Sys2Proof.Machine

/-- The bus error an access gets whatever it addresses (R73): one that is misaligned or does not enable every lane. -/
def illegalShape (a : Access) : Option Fault :=
  if a.addr.toNat % 4 ≠ 0 then some .busMisaligned
  else if a.lanes ≠ 0xF#4 then some .busLanes
  else none

/-- The data a read returned, on the port's side of the state. -/
def returned (s : State) (w : Word) : State := { s with env := { s.env with readData := some w } }

/-- A read of a located target. A read of a buffer window while a command is in flight is a host fault (R300), and so
is one of a word with an unwritten part (R49). No read changes the block (R79). -/
def readTarget (s : State) : Target → Result
  | .reg r => .next (returned s (readReg s r))
  | .window b off =>
    if s.busy then .fault .bufferWhileBusy
    else
      match readBuf s b off with
      | none => .fault .unwrittenHostRead
      | some w => .next (returned s w)

/-- A write of a located target (R79, R300). -/
def writeTarget (s : State) (w : Word) : Target → Result
  | .reg r => .next (writeReg s r w)
  | .window b off => if s.busy then .fault .bufferWhileBusy else .next (writeBuf s b off w)

/-- One host access. A bus error changes nothing and is a fault of the host (R74). -/
def performAccess (s : State) (a : Access) : Result :=
  match illegalShape a with
  | some e => .fault e
  | none =>
    match locate s.params a.addr.toNat with
    | none => .fault .busUnmapped
    | some t =>
      match a.write with
      | none => readTarget s t
      | some w => writeTarget s w t

/-- The state with the host's remaining script. -/
def withScript (s : State) (ops : List HostOp) : State := { s with env := { s.env with script := ops } }

/-- One poll of WAIT (R108): a read of STATUS; WAIT stands at the head of the script until BUSY reads 0. -/
def pollStatus (s : State) (rest : List HostOp) : State :=
  returned (if s.busy then s else withScript s rest) s.statusWord

/-- The host's next move; with nothing left to do it does nothing. -/
def hostStep (s : State) : Result :=
  match s.env.script with
  | [] => .next s
  | .wait :: rest => .next (pollStatus s rest)
  | .access a :: rest => performAccess (withScript s rest) a

/-! Host scripts. -/

/-- A read of the word at an offset. -/
def readAt (a : Nat) : HostOp := .access ⟨BitVec.ofNat 24 a, 0xF#4, none⟩

/-- A write of the word at an offset. -/
def writeAt (a : Nat) (w : Word) : HostOp := .access ⟨BitVec.ofNat 24 a, 0xF#4, some w⟩

/-- The buffer a symbol source names. -/
def Source.buf : Source → Buf
  | .clean => .clean
  | .noisy => .noisy

/-- `WR64` into a pair of registers, low word first (R108). -/
def write64 (lo hi : Reg) (v : BitVec 64) : List HostOp :=
  [writeAt (Reg.offset lo) (v.extractLsb' 0 32), writeAt (Reg.offset hi) (v.extractLsb' 32 32)]

/-- `CMD` of a command (R108). -/
def command (i : Instr) : HostOp := writeAt (Reg.offset .cmd) (encode i)

/-- The bus accesses of a statement (R107, R108). -/
def expand : Stmt → List HostOp
  | .wr r v => [writeAt (Reg.offset r) v]
  | .rd r => [readAt (Reg.offset r)]
  | .wrw b w v => [writeAt (Buf.base b + 4 * w) v]
  | .rdw b w => [readAt (Buf.base b + 4 * w)]
  | .cmd i => [command i]
  | .wr64Var v => write64 .varLo .varHi v
  | .wr64Seed v => write64 .seedLo .seedHi v
  | .wrsym b k i q =>
    [ writeAt (Buf.base (Source.buf b) + 4 * (4 * k)) (i.extractLsb' 0 32)
    , writeAt (Buf.base (Source.buf b) + 4 * (4 * k + 1)) (i.extractLsb' 32 32)
    , writeAt (Buf.base (Source.buf b) + 4 * (4 * k + 2)) (q.extractLsb' 0 32)
    , writeAt (Buf.base (Source.buf b) + 4 * (4 * k + 3)) (q.extractLsb' 32 32) ]
  | .wait => [.wait]
  | .level v => write64 .varLo .varHi v ++ [command .awgn, .wait, command (.demod .noisy), .wait]

/-- The bus accesses of a script. -/
def expandAll (ps : List Stmt) : List HostOp := ps.flatMap expand

end Sys2Proof.Machine
end

