-- ==== Sys2Proof/Machine/Turns.lean ====
section
/-!
DEFINITION. Who moves, and what a move does: the interleaving of host accesses and whole command executions (R81), the
engine's step (R134), reset (R290), and the placing of a command in front of the engine.
-/

namespace Sys2Proof.Machine

/-- The engine's one step (R134): it decodes L.CMD and runs that command to completion; an illegal word completes with
IllegalCommand (R136). Idle, the engine has no step and the state holds (R282). -/
def engineStep (s : State) : Result :=
  match s.engine with
  | none => .next s
  | some L =>
    match decode L.cmd with
    | .ok i => exec i s
    | .error _ => execIllegal s

/-- Who moves next: the head of the list of turns; where it is empty, the engine while a command is in flight and the
host otherwise (R81, R134, log 1). -/
def nextTurn (s : State) : Turn :=
  match s.env.turns with
  | t :: _ => t
  | [] => if s.busy then .engine else .host

/-- The state with the turn taken off the list. -/
def popTurn (s : State) : State := { s with env := { s.env with turns := s.env.turns.tail } }

/-- A move. While reset is asserted neither the host nor the engine has a step, and their turns pass (R290, U12). -/
def move (t : Turn) (s : State) : Result :=
  match t with
  | .host => if s.env.resetHeld then .next s else hostStep s
  | .engine => if s.env.resetHeld then .next s else engineStep s
  | .resetAssert => .next (assertReset s)
  | .resetRelease => .next (releaseReset s)

/-- One step of the machine. -/
def advance (s : State) : Result := move (nextTurn s) (popTurn s)

/-- The command word w, of nbits bits, accepted as R130 accepts it, reset released, and the engine's turn next. -/
def placeCommand (s : State) (nbits w : Nat) : State :=
  let t := accept s (BitVec.ofNat 32 (w % 2 ^ nbits))
  { t with env := { t.env with turns := .engine :: t.env.turns, resetHeld := false } }

end Sys2Proof.Machine
end

