-- ==== Sys2Proof/Machine/Step.lean ====
section
/-!
DEFINITION. One step of the machine, and the state in which the next step runs a given command.
-/

namespace Sys2Proof.Machine

/-- One step: the agent whose turn it is moves. -/
def step (s : State) : Host.Outcome State Fault Refusal := advance s

/-- The state with a command word in flight and the engine to move next, so that the next step runs it (log 3). -/
def State.withFetchWord (s : State) (nbits w : Nat) : State := placeCommand s nbits w

end Sys2Proof.Machine
end

