-- ==== Sys2Proof/Safety.lean ====
section
/-!
DEFINITION. The invariant of the block, the unwritten cells a command reads, and runs that do not stop.
-/

namespace Sys2Proof.Machine

/-- The buffers are in canonical form and hold nothing outside their arrays (R45 to R48, R72). -/
structure State.BuffersOk (s : State) : Prop where
  bitin       : Memory.wf s.bitin
  bitout      : Memory.wf s.bitout
  clean       : Memory.wf s.clean
  noisy       : Memory.wf s.noisy
  bitinCells  : Memory.within s.params.bitCap s.bitin
  bitoutCells : Memory.within s.params.bitCap s.bitout
  cleanCells  : Memory.within (16 * s.params.symCap) s.clean
  noisyCells  : Memory.within (16 * s.params.symCap) s.noisy

/-- What every reachable state satisfies: R7's constraints; the buffers' form; while BUSY = 1, DONE and ERR read 0
(R35, R130); an idle block whose code is not NonFiniteSymbol has ERRIDX = 0 (R43); OUTLEN counts at most BIT_CAP bits
(R40) and ERRIDX names an entry of the symbol buffers (R43). -/
structure State.Inv (s : State) : Prop where
  params   : s.params.wf = true
  buffers  : s.BuffersOk
  busyDone : s.engine.isSome = true → s.done = false
  busyErr  : s.engine.isSome = true → s.err = .ok
  idleIdx  : s.engine = none → s.err ≠ .nonFiniteSymbol → s.errIdx = 0#32
  outlen   : s.outlen.toNat ≤ s.params.bitCap
  errIdx   : s.errIdx.toNat < s.params.symCap

/-- A cell the command is to read holds no value: a bit of BITIN below L.LEN for MOD, an entry below L.SYMCNT of CLEAN for
AWGN and of the buffer SRC selects for DEMOD (R49, R305). -/
def readsUnwritten (s : State) (L : Latch) : Instr → Prop
  | .nop => False
  | .const => False
  | .mod => ∃ i, i < L.len.toNat ∧ Memory.get s.bitin i = none
  | .awgn => ∃ k, k < L.symcnt.toNat ∧ loadSymbol s.clean k = none
  | .demod src => ∃ k, k < L.symcnt.toNat ∧ loadSymbol (sourceBuffer s src) k = none
  | .seed => False

/-- n steps, none of which stops the machine, lead from s to t. -/
def State.Reaches : Nat → State → State → Prop
  | 0, s, t => t = s
  | n + 1, s, t => ∃ u, step s = .next u ∧ State.Reaches n u t

end Sys2Proof.Machine
end

