-- ==== Sys2Proof/Certificates/Slice0/Obligations.lean ====
section
/-!
DEFINITION. The statements about the block, from the spec's numbered rules.

`{ s with … }` on the right of an equation is a frame: every field it does not name is the one of s.
-/

open Sys2Proof Sys2Proof.Machine

/-! Encoding. -/

/-- R106: the decoder and the encoder agree, word by word and byte by byte: each command has one word, and a word that
decodes is that word. -/
def Obligations.EncodeInvertsDecode : Prop :=
  ∀ (c : Word) (i : Instr) (rest : List Byte),
    (decode c = .ok i ↔ c = encode i) ∧ decodeBytes (lanesOf (encode i) ++ rest) = .ok (i, rest)

/-- R104: the four conditions of legality, the seven legal words, and the completion of every other word. -/
def Obligations.LegalWordsAreTheSeven : Prop :=
  ∀ c : Word,
    ((∃ i, decode c = .ok i) ↔
      (c.extractLsb' 0 4).toNat ≤ 5 ∧ (c.extractLsb' 4 4).toNat = 0 ∧ (c.extractLsb' 9 23).toNat = 0 ∧
        (c.getLsbD 8 = false ∨ (c.extractLsb' 0 4).toNat = 4)) ∧
    ((∃ i, decode c = .ok i) ↔
      c = 0x0#32 ∨ c = 0x1#32 ∨ c = 0x2#32 ∨ c = 0x3#32 ∨ c = 0x4#32 ∨ c = 0x104#32 ∨ c = 0x5#32) ∧
    ∀ (s : State) (L : Latch), s.engine = some L → L.cmd = c → (¬ ∃ i, decode c = .ok i) →
      engineStep s = .next { s with err := .illegalCommand, errIdx := 0#32, engine := none, done := true }

/-- R102, R136: words written out from the layout of R101, and what they decode to. -/
def Obligations.OpcodeTableWordsDecode : Prop :=
  decode 0b00000000000000000000000000000000#32 = .ok .nop ∧
  decode 0b00000000000000000000000000000001#32 = .ok .const ∧
  decode 0b00000000000000000000000000000010#32 = .ok .mod ∧
  decode 0b00000000000000000000000000000011#32 = .ok .awgn ∧
  decode 0b00000000000000000000000000000100#32 = .ok (.demod .clean) ∧
  decode 0b00000000000000000000000100000100#32 = .ok (.demod .noisy) ∧
  decode 0b00000000000000000000000000000101#32 = .ok .seed ∧
  decode 0x00000006#32 = .error .reservedOp ∧ decode 0x00000014#32 = .error .rsv0NotZero ∧
  decode 0x00000101#32 = .error .srcOutsideDemod ∧ decode 0x80000002#32 = .error .rsv1NotZero

/-! The step. -/

/-- R134, R106: on the engine's turn a step is the command L.CMD decodes to, run at the state whose turn is taken. The
order of turns is the model's device for R81's interleavings (log 1). -/
def Obligations.StepRunsTheDecodedCommand : Prop :=
  (∀ (s : State) (L : Latch) (i : Instr),
    s.env.resetHeld = false → nextTurn s = .engine → s.engine = some L → decode L.cmd = .ok i →
      step s = exec i { s with env := { s.env with turns := s.env.turns.tail } }) ∧
  (∀ s : State, nextTurn s = .engine ↔
    (∃ ts, s.env.turns = .engine :: ts) ∨ (s.env.turns = [] ∧ ∃ L, s.engine = some L))

/-- The host's placing of a command (log 3): the next step after `withFetchWord` runs exactly the command placed, with
the operands acceptance latches (R131). -/
def Obligations.PlacedCommandRunsNext : Prop :=
  ∀ (s : State) (i : Instr),
    step (s.withFetchWord 32 (encode i).toNat) =
      exec i { s with
        engine := some { cmd := encode i, m := s.m, len := s.len, symcnt := s.symcnt, var := s.varHi ++ s.varLo,
                         seed := s.seedHi ++ s.seedLo }
        done := false
        err := .ok
        env := { s.env with resetHeld := false } }

/-- R130: a write of CMD is one step of the host; idle, the word is accepted whatever it is, and latched (R131); busy, it
is dropped (R132). -/
def Obligations.CommandWriteIsAcceptedWhenIdle : Prop :=
  ∀ (s : State) (c : Word) (rest : List HostOp),
    s.env.resetHeld = false → nextTurn s = .host → s.env.script = .access ⟨0x00C#24, 0xF#4, some c⟩ :: rest →
      (s.engine = none →
        step s = .next { s with
          engine := some { cmd := c, m := s.m, len := s.len, symcnt := s.symcnt, var := s.varHi ++ s.varLo,
                           seed := s.seedHi ++ s.seedLo }
          done := false
          err := .ok
          env := { s.env with script := rest, turns := s.env.turns.tail } }) ∧
      (∀ L, s.engine = some L →
        step s = .next { s with drop := true, env := { s.env with script := rest, turns := s.env.turns.tail } })

/-- R131, R302: the operands latched at acceptance; no host move changes them while the command is in flight; and a command
does the same whatever the registers hold by then, of which only CONST and MOD that succeed overwrite one, SYMCNT. -/
def Obligations.LatchedOperandsAreTheOnlyOnes : Prop :=
  (∀ (s : State) (c : Word), s.engine = none →
    performAccess s ⟨0x00C#24, 0xF#4, some c⟩ = .next { s with
      engine := some { cmd := c, m := s.m, len := s.len, symcnt := s.symcnt, var := s.varHi ++ s.varLo,
                       seed := s.seedHi ++ s.seedLo }
      done := false
      err := .ok }) ∧
  (∀ (s t : State) (L : Latch), s.engine = some L → hostStep s = .next t → t.engine = some L) ∧
  (∀ (i : Instr) (s t : State) (m len symcnt varLo varHi seedLo seedHi : Word), exec i s = .next t →
    exec i { s with m := m, len := len, symcnt := symcnt, varLo := varLo, varHi := varHi, seedLo := seedLo,
                    seedHi := seedHi } =
      .next { t with m := m, len := len, varLo := varLo, varHi := varHi, seedLo := seedLo, seedHi := seedHi
                     symcnt := if (i = .const ∨ i = .mod) ∧ t.err = .ok then t.symcnt else symcnt })

/-- R132: a CMD write while busy sets DROP and changes nothing else; DROP stays until the host writes 1 to STATUS bit 2
or reset is asserted. -/
def Obligations.DroppedCommandStaysVisible : Prop :=
  (∀ (s : State) (L : Latch) (c : Word), s.engine = some L →
    performAccess s ⟨0x00C#24, 0xF#4, some c⟩ = .next { s with drop := true }) ∧
  (∀ s t : State, s.drop = true → step s = .next t → t.drop = false →
    nextTurn s = .resetAssert ∨
      (nextTurn s = .host ∧ s.env.resetHeld = false ∧ ∃ (w : Word) (rest : List HostOp),
        s.env.script = .access ⟨0x010#24, 0xF#4, some w⟩ :: rest ∧ w.getLsbD 2 = true))

/-- R81, vector G8: two CMD writes with no wait between them. If the engine moves between them both are accepted and
DROP is as it was; if it does not, the second is dropped. -/
def Obligations.BackToBackCommandsBothOrders : Prop :=
  ∀ (s : State) (c : Word), s.env.resetHeld = false → s.engine = none →
    s.env.script = [command .nop, .access ⟨0x00C#24, 0xF#4, some c⟩] →
      (∃ t, State.Reaches 2 { s with env := { s.env with turns := [.host, .host] } } t ∧
        t.drop = true ∧ (∃ L, t.engine = some L ∧ L.cmd = encode .nop)) ∧
      (∃ t, State.Reaches 3 { s with env := { s.env with turns := [.host, .engine, .host] } } t ∧
        t.drop = s.drop ∧ (∃ L, t.engine = some L ∧ L.cmd = c))

/-- R133, R134: with nothing else fixed, an accepted command completes in one step, or it is a command that reads a buffer
cell never written (R49), and stops the model. The order of turns where none is fixed is the model's (log 1). -/
def Obligations.EngineCompletesTheCommand : Prop :=
  ∀ (s : State) (L : Latch), s.env.resetHeld = false → s.env.turns = [] → s.engine = some L →
    (∃ t, step s = .next t ∧ t.engine = none ∧ t.done = true ∧ (t.err ≠ .nonFiniteSymbol → t.errIdx = 0#32)) ∨
      (step s = .fault .unwrittenOperand ∧ ∃ i, decode L.cmd = .ok i ∧ readsUnwritten s L i)

/-! Commands. -/

/-- R135: NOP completes OK, clears an earlier code, and changes nothing else. -/
def Obligations.NopCompletesOk : Prop :=
  ∀ (s : State) (L : Latch), s.engine = some L →
    exec .nop s = .next { s with err := .ok, errIdx := 0#32, engine := none, done := true }

/-- R205: SEED sets the generator from the latched seed, whatever it is, and touches nothing else; seeding twice is
seeding once. -/
def Obligations.SeedSetsTheGenerator : Prop :=
  ∀ (s : State) (L : Latch), s.engine = some L →
    exec .seed s =
      .next { s with rng := Config.seedInit L.seed, err := .ok, errIdx := 0#32, engine := none, done := true } ∧
    ∀ (t u : State) (L' : Latch), exec .seed s = .next t → L'.seed = L.seed →
      exec .seed { t with engine := some L' } = .next u → u.rng = t.rng

/-- R162: CONST writes the points of R160, exactly, into CLEAN[0 .. M-1] and M into SYMCNT; an unsupported M completes
with InvalidConfiguration and writes nothing. -/
def Obligations.ConstWritesTheConstellation : Prop :=
  ∀ (s : State) (L : Latch), s.engine = some L →
    (∀ o : Order, L.m = BitVec.ofNat 32 o.size →
      ∃ t, exec .const s = .next t ∧
        (∀ idx, idx < o.size → ∃ z, loadSymbol t.clean idx = some z ∧
          Fp.isFinite z.i = true ∧ Fp.units z.i = (2 * ((idx / o.side : Nat) : Int) - ((o.side : Int) - 1)) * Fp.one ∧
          Fp.isFinite z.q = true ∧ Fp.units z.q = (2 * ((idx % o.side : Nat) : Int) - ((o.side : Int) - 1)) * Fp.one) ∧
        (∀ a, 16 * o.size ≤ a → Memory.get t.clean a = Memory.get s.clean a) ∧
        t = { s with clean := t.clean, symcnt := L.m, err := .ok, errIdx := 0#32, engine := none, done := true }) ∧
    (L.m ≠ 4#32 → L.m ≠ 16#32 → L.m ≠ 64#32 →
      exec .const s = .next { s with err := .invalidConfiguration, errIdx := 0#32, engine := none, done := true })

/-- R180, R181: MOD. The three errors in their order, each writing nothing; the symbols of the chunks, most significant
bit first, into CLEAN[0 .. N-1] and N into SYMCNT; a fault of the model where a bit it reads was never written. -/
def Obligations.ModMapsChunksToPoints : Prop :=
  ∀ (s : State) (L : Latch), s.engine = some L →
    (L.m ≠ 4#32 → L.m ≠ 16#32 → L.m ≠ 64#32 →
      exec .mod s = .next { s with err := .invalidConfiguration, errIdx := 0#32, engine := none, done := true }) ∧
    ∀ o : Order, L.m = BitVec.ofNat 32 o.size →
      (L.len.toNat % o.bps ≠ 0 →
        exec .mod s = .next { s with err := .invalidInput, errIdx := 0#32, engine := none, done := true }) ∧
      (L.len.toNat % o.bps = 0 → s.params.bitCap < L.len.toNat ∨ s.params.symCap < L.len.toNat / o.bps →
        exec .mod s = .next { s with err := .capacityExceeded, errIdx := 0#32, engine := none, done := true }) ∧
      (L.len.toNat % o.bps = 0 → L.len.toNat ≤ s.params.bitCap → L.len.toNat / o.bps ≤ s.params.symCap →
        ((∃ i, i < L.len.toNat ∧ Memory.get s.bitin i = none) → exec .mod s = .fault .unwrittenOperand) ∧
        ∀ bit : Nat → Bool, (∀ i, i < L.len.toNat → Memory.get s.bitin i = some (bit i)) →
          ∃ t, exec .mod s = .next t ∧
            (∀ k, k < L.len.toNat / o.bps → loadSymbol t.clean k =
              some (point o (∑ j ∈ Finset.range o.bps, (bit (k * o.bps + j)).toNat * 2 ^ (o.bps - 1 - j)))) ∧
            (∀ a, 16 * (L.len.toNat / o.bps) ≤ a → Memory.get t.clean a = Memory.get s.clean a) ∧
            t = { s with clean := t.clean, symcnt := BitVec.ofNat 32 (L.len.toNat / o.bps), err := .ok,
                         errIdx := 0#32, engine := none, done := true })

/-- R203, R204, R201: AWGN. A variance that is not a finite value of at least 0, and a count beyond SYM_CAP, complete
with their codes and write nothing; else output 2k goes to I and output 2k + 1 to Q of symbol k. The NaN that an IEEE
operation returns is any NaN (U22). -/
def Obligations.AwgnAddsScaledDraws : Prop :=
  ∀ (s : State) (L : Latch), s.engine = some L →
    (¬ (Fp.isFinite L.var = true ∧ 0 ≤ Fp.units L.var) →
      exec .awgn s = .next { s with err := .degenerateParameter, errIdx := 0#32, engine := none, done := true }) ∧
    (Fp.isFinite L.var = true → 0 ≤ Fp.units L.var → s.params.symCap < L.symcnt.toNat →
      exec .awgn s = .next { s with err := .capacityExceeded, errIdx := 0#32, engine := none, done := true }) ∧
    (Fp.isFinite L.var = true → 0 ≤ Fp.units L.var → L.symcnt.toNat ≤ s.params.symCap →
      ∀ z : Nat → Symbol, (∀ k, k < L.symcnt.toNat → loadSymbol s.clean k = some (z k)) →
        ∃ t, exec .awgn s = .next t ∧
          (∀ k, k < L.symcnt.toNat → ∃ y n n', loadSymbol t.noisy k = some y ∧ Fp.isNaN n = true ∧ Fp.isNaN n' = true ∧
            y.i = Fp.add n (z k).i (Fp.mul n (Fp.sqrt n L.var) (draw s.rng (2 * k))) ∧
            y.q = Fp.add n' (z k).q (Fp.mul n' (Fp.sqrt n' L.var) (draw s.rng (2 * k + 1)))) ∧
          (∀ a, 16 * L.symcnt.toNat ≤ a → Memory.get t.noisy a = Memory.get s.noisy a) ∧
          t = { s with noisy := t.noisy, rng := genAfter s.rng (2 * L.symcnt.toNat), err := .ok, errIdx := 0#32,
                       engine := none, done := true })

/-- R233, R232, R236: DEMOD, from the buffer SRC selects. The errors in their order, each writing nothing, NonFiniteSymbol
with the least index; else the index bits, most significant first, into BITOUT[0 .. N*bps-1] and N*bps into OUTLEN. -/
def Obligations.DemodDecidesEachSymbol : Prop :=
  ∀ (src : Source) (s : State) (L : Latch), s.engine = some L →
    (L.m ≠ 4#32 → L.m ≠ 16#32 → L.m ≠ 64#32 →
      exec (.demod src) s = .next { s with err := .invalidConfiguration, errIdx := 0#32, engine := none, done := true }) ∧
    ∀ o : Order, L.m = BitVec.ofNat 32 o.size →
      (s.params.symCap < L.symcnt.toNat ∨ s.params.bitCap < L.symcnt.toNat * o.bps →
        exec (.demod src) s = .next { s with err := .capacityExceeded, errIdx := 0#32, engine := none, done := true }) ∧
      (L.symcnt.toNat ≤ s.params.symCap → L.symcnt.toNat * o.bps ≤ s.params.bitCap →
        (∀ (k : Nat) (z : Nat → Symbol), k < L.symcnt.toNat →
          (∀ j, j < k → loadSymbol (sourceBuffer s src) j = some (z j) ∧ Fp.isNaN (z j).i = false ∧
            Fp.isNaN (z j).q = false) →
          loadSymbol (sourceBuffer s src) k = some (z k) → Fp.isNaN (z k).i = true ∨ Fp.isNaN (z k).q = true →
            exec (.demod src) s = .next { s with err := .nonFiniteSymbol, errIdx := BitVec.ofNat 32 k, engine := none,
                                                 done := true }) ∧
        ∀ z : Nat → Symbol,
          (∀ k, k < L.symcnt.toNat → loadSymbol (sourceBuffer s src) k = some (z k) ∧ Fp.isNaN (z k).i = false ∧
            Fp.isNaN (z k).q = false) →
          ∃ t, exec (.demod src) s = .next t ∧
            (∀ k j, k < L.symcnt.toNat → j < o.bps → Memory.get t.bitout (k * o.bps + j) =
              some (decide ((slice o (z k).i * o.side + slice o (z k).q) / 2 ^ (o.bps - 1 - j) % 2 = 1))) ∧
            (∀ a, L.symcnt.toNat * o.bps ≤ a → Memory.get t.bitout a = Memory.get s.bitout a) ∧
            t = { s with bitout := t.bitout, outlen := BitVec.ofNat 32 (L.symcnt.toNat * o.bps), err := .ok,
                         errIdx := 0#32, engine := none, done := true })

/-- R49, R305: past their checks AWGN and DEMOD fault at an entry that was never written. That a half-written entry
counts as never written, and that DEMOD's scan stops at whichever comes first, such an entry or a NaN, is the model's
reading (log 9). -/
def Obligations.UnwrittenOperandsFault : Prop :=
  ∀ (s : State) (L : Latch) (k : Nat), s.engine = some L → k < L.symcnt.toNat → L.symcnt.toNat ≤ s.params.symCap →
    (Fp.isFinite L.var = true → 0 ≤ Fp.units L.var → loadSymbol s.clean k = none →
      exec .awgn s = .fault .unwrittenOperand) ∧
    ∀ (src : Source) (o : Order), L.m = BitVec.ofNat 32 o.size → L.symcnt.toNat * o.bps ≤ s.params.bitCap →
      loadSymbol (sourceBuffer s src) k = none →
      (∀ j z, j < k → loadSymbol (sourceBuffer s src) j = some z → Fp.isNaN z.i = false ∧ Fp.isNaN z.q = false) →
        exec (.demod src) s = .fault .unwrittenOperand

/-! The demodulator's decision. -/

/-- R234: for finite components the slicer's count gives the nearest point of R231, ties to the lowest index; distances
are exact. -/
def Obligations.SlicerIsNearestNeighbour : Prop :=
  ∀ (o : Order) (x y : F64), Fp.isFinite x = true → Fp.isFinite y = true →
    let lev : Nat → Int := fun k => (2 * (k : Int) - ((o.side : Int) - 1)) * Fp.one
    let d : Nat → Int := fun j => (Fp.units x - lev (j / o.side)) ^ 2 + (Fp.units y - lev (j % o.side)) ^ 2
    let idx := slice o x * o.side + slice o y
    slice o x = ((Finset.range (o.side - 1)).filter fun j : Nat =>
      (2 * (j : Int) - (o.side : Int) + 2) * Fp.one < Fp.units x).card ∧
    idx < o.size ∧ (∀ j, j < o.size → d idx ≤ d j) ∧ ∀ j, j < idx → d idx < d j

/-- R237: the slicer at the infinities. -/
def Obligations.InfiniteComponentsDecideTheEdge : Prop :=
  ∀ (o : Order) (x : F64), Fp.isInf x = true →
    (Fp.sign x = false → slice o x = o.side - 1) ∧ (Fp.sign x = true → slice o x = 0)

/-- R239: MOD and then DEMOD, from CLEAN or through a channel of variance 0, returns the bits modulated. L, L1, L2 and L3
are what each acceptance latches: the same M, the count MOD wrote, and a zero variance. -/
def Obligations.ModThenDemodReturnsTheBits : Prop :=
  ∀ (s : State) (L : Latch) (o : Order), s.engine = some L → L.m = BitVec.ofNat 32 o.size →
    L.len.toNat % o.bps = 0 → L.len.toNat ≤ s.params.bitCap → L.len.toNat / o.bps ≤ s.params.symCap →
    (∀ i, i < L.len.toNat → Memory.get s.bitin i ≠ none) →
    ∃ t, exec .mod s = .next t ∧
      (∀ L1 : Latch, L1.m = L.m → L1.symcnt = t.symcnt →
        ∃ u, exec (.demod .clean) { t with engine := some L1 } = .next u ∧ u.outlen = L.len ∧
          ∀ i, i < L.len.toNat → Memory.get u.bitout i = Memory.get s.bitin i) ∧
      (∀ L2 L3 : Latch, Fp.isZero L2.var = true → L2.symcnt = t.symcnt → L3.m = L.m → L3.symcnt = t.symcnt →
        ∃ v u, exec .awgn { t with engine := some L2 } = .next v ∧
          exec (.demod .noisy) { v with engine := some L3 } = .next u ∧ u.outlen = L.len ∧
          ∀ i, i < L.len.toNat → Memory.get u.bitout i = Memory.get s.bitin i)

/-! The noise channel. -/

/-- R207: at variance +0 or -0 the standard deviation and every noise term are zeros; a component that is neither a zero
nor a NaN is copied bit for bit; a zero gives a zero, negative only where it and its noise term both are; and the draws
are consumed all the same. -/
def Obligations.ZeroVarianceCopiesTheSymbols : Prop :=
  ∀ (s t : State) (L : Latch), s.engine = some L → Fp.isZero L.var = true → exec .awgn s = .next t → t.err = .ok →
    Fp.isZero (sigmaOf L.var) = true ∧ t.rng = genAfter s.rng (2 * L.symcnt.toNat) ∧
    ∀ k z, k < L.symcnt.toNat → loadSymbol s.clean k = some z →
      ∃ y, loadSymbol t.noisy k = some y ∧ ∀ axis : Bool,
        let x := if axis then z.q else z.i
        let w := if axis then y.q else y.i
        let n := noiseTerm (sigmaOf L.var) (draw s.rng (2 * k + axis.toNat))
        Fp.isZero n = true ∧ (Fp.isNaN x = false → Fp.isZero x = false → w = x) ∧
        (Fp.isZero x = true → Fp.isZero w = true ∧ Fp.sign w = (Fp.sign x && Fp.sign n))

/-- R208: the IEEE outcomes. A NaN component stays a NaN; an infinite one stays as it is, but becomes a NaN where the
noise term overflowed to the opposite infinity; a product or an exact sum beyond the range is an infinity. -/
def Obligations.NonFiniteComponentsPropagate : Prop :=
  ∀ (s t : State) (L : Latch), s.engine = some L → exec .awgn s = .next t → t.err = .ok →
    ∀ k z, k < L.symcnt.toNat → loadSymbol s.clean k = some z →
      ∃ y, loadSymbol t.noisy k = some y ∧ ∀ axis : Bool,
        let x := if axis then z.q else z.i
        let w := if axis then y.q else y.i
        let d := draw s.rng (2 * k + axis.toNat)
        let n := noiseTerm (sigmaOf L.var) d
        Fp.isNaN n = false ∧ (Fp.isNaN x = true → Fp.isNaN w = true) ∧
        (Fp.isInf x = true → if Fp.isInf n = true ∧ Fp.sign n ≠ Fp.sign x then Fp.isNaN w = true else w = x) ∧
        ((2 ^ 54 - 1) * 2 ^ 2044 * Fp.one ≤ Fp.mag (sigmaOf L.var) * Fp.mag d → Fp.isInf n = true) ∧
        (Fp.isFinite x = true → Fp.isInf n = true → w = n) ∧
        (Fp.isFinite x = true → Fp.isFinite n = true → (2 ^ 54 - 1) * 2 ^ 2044 ≤ (Fp.units x + Fp.units n).natAbs →
          Fp.isInf w = true)

/-- R210: equal seeds give equal generator states, and from equal generator states equal variances, counts and clean
symbols give bit-identical noisy symbols and equal generator states again. Down to the payload of a NaN it rests on the
model's free payload being a function of what R210 names (log 7). -/
def Obligations.SameSeedSameNoise : Prop :=
  (∀ (a b t u : State) (La Lb : Latch), a.engine = some La → b.engine = some Lb → La.seed = Lb.seed →
    exec .seed a = .next t → exec .seed b = .next u → t.rng = u.rng) ∧
  (∀ (a b t u : State) (La Lb : Latch), a.engine = some La → b.engine = some Lb → a.rng = b.rng → La.var = Lb.var →
    La.symcnt = Lb.symcnt → (∀ k, k < La.symcnt.toNat → loadSymbol a.clean k = loadSymbol b.clean k) →
    exec .awgn a = .next t → t.err = .ok → exec .awgn b = .next u → u.err = .ok →
      t.rng = u.rng ∧ ∀ k, k < La.symcnt.toNat → loadSymbol t.noisy k = loadSymbol u.noisy k)

/-- R206, R209: output n and the state after it are what `gauss_next` gives from the state after n outputs; every output
is finite; and a generator that has given m outputs gives output m + n as its n-th: what a
successful AWGN of N symbols leaves starts at output 2N. -/
def Obligations.DrawsAreFiniteAndNeverReused : Prop :=
  (∀ (g : Config.Gen) (n : Nat), draw g n = (Config.gaussNext (genAfter g n)).1.bits ∧ genAfter g 0 = g ∧
    genAfter g (n + 1) = (Config.gaussNext (genAfter g n)).2 ∧ Fp.isFinite (draw g n) = true) ∧
  (∀ (s t : State) (L : Latch), s.engine = some L → exec .awgn s = .next t → t.err = .ok →
    ∀ n, draw t.rng n = draw s.rng (2 * L.symcnt.toNat + n))

/-! Errors and writers. -/

/-- R266: a command that completes with an error changes the four completion fields and nothing else; the index is 0 but
for NonFiniteSymbol (R260). -/
def Obligations.ErrorCompletionChangesNothingElse : Prop :=
  ∀ (s t : State) (L : Latch), s.engine = some L → engineStep s = .next t → t.err ≠ .ok →
    t = { s with err := t.err, errIdx := t.errIdx, engine := none, done := true } ∧
    (t.err ≠ .nonFiniteSymbol → t.errIdx = 0#32)

/-- R137: the outcome of NOP, CONST, MOD, DEMOD, SEED and an illegal word is a function of L and the buffers; that of
AWGN of the generator state too. The capacities are the instance's. That NOISY is equal down to the payload of a NaN, which
U22 leaves open, is the model's choice (log 7). -/
def Obligations.OutcomeIsAFunctionOfOperands : Prop :=
  ∀ (a b t : State) (L : Latch), a.engine = some L → b.engine = some L → a.params = b.params → a.bitin = b.bitin →
    a.clean = b.clean → a.noisy = b.noisy → (decode L.cmd = .ok .awgn → a.rng = b.rng) → engineStep a = .next t →
    ∃ u, engineStep b = .next u ∧ u.err = t.err ∧ u.errIdx = t.errIdx ∧ u.clean = t.clean ∧ u.noisy = t.noisy ∧
      (t.err = .ok →
        ((decode L.cmd = .ok .const ∨ decode L.cmd = .ok .mod) → u.symcnt = t.symcnt) ∧
        ((decode L.cmd = .ok .seed ∨ decode L.cmd = .ok .awgn) → u.rng = t.rng) ∧
        (∀ src, decode L.cmd = .ok (.demod src) → u.outlen = t.outlen ∧
          ∀ i, i < L.symcnt.toNat * ((modOrder L.m).elim 0 Order.bps) →
            Memory.get u.bitout i = Memory.get t.bitout i))

/-- R55: the writer table. What a host move never changes, and what the engine changes, by command and only on success.
A host's CMD write is where the engine's acceptance or drop takes place, so BUSY, ERR, DONE and DROP change there. -/
def Obligations.WriterTable : Prop :=
  (∀ s t : State, hostStep s = .next t →
    t.params = s.params ∧ t.outlen = s.outlen ∧ t.errIdx = s.errIdx ∧ t.rng = s.rng ∧
    (t.done = true → s.done = true) ∧
    (t.drop = true → s.drop = true ∨ ((∃ L, s.engine = some L) ∧
      ∃ (c : Word) (rest : List HostOp), s.env.script = .access ⟨0x00C#24, 0xF#4, some c⟩ :: rest)) ∧
    ((t.engine = s.engine ∧ t.err = s.err) ∨
      (s.engine = none ∧ t.engine ≠ none ∧ t.done = false ∧ t.err = .ok ∧
        ∃ (c : Word) (rest : List HostOp), s.env.script = .access ⟨0x00C#24, 0xF#4, some c⟩ :: rest))) ∧
  (∀ (s t : State) (L : Latch), s.engine = some L → engineStep s = .next t →
    t.params = s.params ∧ t.drop = s.drop ∧ t.irqEn = s.irqEn ∧ t.m = s.m ∧ t.len = s.len ∧ t.varLo = s.varLo ∧
    t.varHi = s.varHi ∧ t.seedLo = s.seedLo ∧ t.seedHi = s.seedHi ∧ t.bitin = s.bitin ∧ t.env = s.env ∧
    t.engine = none ∧ t.done = true ∧
    (t.symcnt ≠ s.symcnt → t.err = .ok ∧ (decode L.cmd = .ok .mod ∨ decode L.cmd = .ok .const)) ∧
    (t.clean ≠ s.clean → t.err = .ok ∧ (decode L.cmd = .ok .mod ∨ decode L.cmd = .ok .const)) ∧
    (t.outlen ≠ s.outlen → t.err = .ok ∧ ∃ src, decode L.cmd = .ok (.demod src)) ∧
    (t.bitout ≠ s.bitout → t.err = .ok ∧ ∃ src, decode L.cmd = .ok (.demod src)) ∧
    (t.noisy ≠ s.noisy → t.err = .ok ∧ decode L.cmd = .ok .awgn) ∧
    (t.rng ≠ s.rng → t.err = .ok ∧ (decode L.cmd = .ok .awgn ∨ decode L.cmd = .ok .seed)))

/-- R32, R33: the capacities are constant. -/
def Obligations.CapacitiesAreConstant : Prop :=
  ∀ s t : State, step s = .next t → t.params = s.params

/-- Where the machine stops: never by a refusal and never for want of a command; else only on the engine's turn at a cell
never written that the command reads, or on the host's turn at an access that the spec tells a model to fault on (93, U4,
U9, U10): misaligned, narrow, unmapped, at a window while busy, or a read of a word never written. The names of the faults
are the model's (log 11, log 18). -/
def Obligations.StopsAreTheSpecsFaults : Prop :=
  ∀ s : State, (∀ r, step s ≠ .refused r) ∧ ∀ f, step s = .fault f → s.env.resetHeld = false ∧
    ((nextTurn s = .engine ∧ f = .unwrittenOperand ∧
        ∃ (L : Latch) (i : Instr), s.engine = some L ∧ decode L.cmd = .ok i ∧ readsUnwritten s L i) ∨
      (nextTurn s = .host ∧ ∃ (a : Access) (rest : List HostOp), s.env.script = .access a :: rest ∧
        ((f = .busMisaligned ∧ a.addr.toNat % 4 ≠ 0) ∨
          (a.addr.toNat % 4 = 0 ∧ f = .busLanes ∧ a.lanes ≠ 0xF#4) ∨
          (a.addr.toNat % 4 = 0 ∧ a.lanes = 0xF#4 ∧
            ((f = .busUnmapped ∧ locate s.params a.addr.toNat = none) ∨
              ∃ b off, locate s.params a.addr.toNat = some (.window b off) ∧
                ((f = .bufferWhileBusy ∧ s.engine ≠ none) ∨
                  (f = .unwrittenHostRead ∧ s.engine = none ∧ a.write = none ∧ readBuf s b off = none)))))))

/-! The invariant. -/

/-- Every step keeps the invariant of Safety.lean: R7's constraints, the buffers' canonical form and bounds, STATUS
while busy (R35, R130), ERRIDX of an idle block (R43), OUTLEN's and ERRIDX's ranges. -/
def Obligations.StepKeepsTheInvariant : Prop :=
  ∀ s t : State, s.Inv → step s = .next t → t.Inv

/-- The invariant holds at reset. The capacities of State.reset are the reference values, the model's choice (log 4). -/
def Obligations.ResetMeetsTheInvariant : Prop :=
  State.reset.Inv

/-! Reset. -/

/-- R54: what reset leaves, as a read of each register returns it, in the instance of the reference values (log 4). -/
def Obligations.ResetValues : Prop :=
  readReg State.reset .id = 0x51414D07#32 ∧ readReg State.reset .symcap = 4096#32 ∧
  readReg State.reset .bitcap = 24576#32 ∧ readReg State.reset .status = 0#32 ∧ readReg State.reset .ctrl = 0#32 ∧
  readReg State.reset .m = 0#32 ∧ readReg State.reset .len = 0#32 ∧ readReg State.reset .symcnt = 0#32 ∧
  readReg State.reset .outlen = 0#32 ∧ readReg State.reset .errIdx = 0#32 ∧ readReg State.reset .varLo = 0#32 ∧
  readReg State.reset .varHi = 0#32 ∧ readReg State.reset .seedLo = 0#32 ∧ readReg State.reset .seedHi = 0#32 ∧
  State.reset.engine = none ∧ State.reset.irq = false ∧
  ∀ a, Memory.get State.reset.bitin a = none ∧ Memory.get State.reset.bitout a = none ∧
    Memory.get State.reset.clean a = none ∧ Memory.get State.reset.noisy a = none

/-- R290, R291: reset assertion puts every piece of state in the value of R54, whatever runs; a running command is
abandoned. The generator state is some value; the host's side and the capacities stay. -/
def Obligations.ResetAssertionClearsTheBlock : Prop :=
  ∀ s : State, nextTurn s = .resetAssert → ∃ (g : Config.Gen) (n : Nat),
    step s = .next
      { params := s.params, done := false, drop := false, err := .ok, irqEn := false, m := 0#32, len := 0#32,
        symcnt := 0#32, outlen := 0#32, varLo := 0#32, varHi := 0#32, seedLo := 0#32, seedHi := 0#32, errIdx := 0#32,
        bitin := [], bitout := [], clean := [], noisy := [], engine := none, rng := g,
        env := { s.env with turns := s.env.turns.tail, resetHeld := true, resets := n } }

/-- R290, U12: while reset is asserted a turn of the host or of the engine passes with no effect. -/
def Obligations.NoAccessWhileResetIsHeld : Prop :=
  ∀ s : State, s.env.resetHeld = true → nextTurn s = .host ∨ nextTurn s = .engine →
    step s = .next { s with env := { s.env with turns := s.env.turns.tail } }

/-! The host port. -/

/-- R79: a read changes nothing but the data returned; a write done twice is a write done once, except at CMD. -/
def Obligations.ReadsHaveNoSideEffect : Prop :=
  (∀ (s t : State) (a : Access), a.write = none → performAccess s a = .next t →
    ∃ w, t = { s with env := { s.env with readData := some w } }) ∧
  (∀ (s t u : State) (a : Access) (w : Word), a.write = some w → a.addr ≠ 0x00C#24 → performAccess s a = .next t →
    performAccess t a = .next u → u = t)

/-- R73: a misaligned or narrow access is a bus error, and no other access is illegal; of the aligned word accesses
exactly those outside the registers and the four windows are unmapped (R72). The names of the three faults are the
model's (log 11). -/
def Obligations.IllegalAccessesAreBusErrors : Prop :=
  ∀ (s : State) (a : Access),
    (a.addr.toNat % 4 ≠ 0 → performAccess s a = .fault .busMisaligned) ∧
    (a.addr.toNat % 4 = 0 → a.lanes ≠ 0xF#4 → performAccess s a = .fault .busLanes) ∧
    (a.addr.toNat % 4 = 0 → a.lanes = 0xF#4 →
      performAccess s a ≠ .fault .busMisaligned ∧ performAccess s a ≠ .fault .busLanes ∧
      (performAccess s a = .fault .busUnmapped ↔
        0x3C ≤ a.addr.toNat ∧
        ¬ (0x100000 ≤ a.addr.toNat ∧ a.addr.toNat < 0x100000 + s.params.bitCap / 8) ∧
        ¬ (0x200000 ≤ a.addr.toNat ∧ a.addr.toNat < 0x200000 + s.params.bitCap / 8) ∧
        ¬ (0x400000 ≤ a.addr.toNat ∧ a.addr.toNat < 0x400000 + 16 * s.params.symCap) ∧
        ¬ (0x800000 ≤ a.addr.toNat ∧ a.addr.toNat < 0x800000 + 16 * s.params.symCap)))

/-- R300: a word access to a buffer window while BUSY = 1 is a fault of the host, read or write. -/
def Obligations.BufferAccessWhileBusyFaults : Prop :=
  ∀ (s : State) (a : Access) (L : Latch), s.params.wf = true → s.engine = some L → a.addr.toNat % 4 = 0 →
    a.lanes = 0xF#4 →
    ((0x100000 ≤ a.addr.toNat ∧ a.addr.toNat < 0x100000 + s.params.bitCap / 8) ∨
      (0x200000 ≤ a.addr.toNat ∧ a.addr.toNat < 0x200000 + s.params.bitCap / 8) ∨
      (0x400000 ≤ a.addr.toNat ∧ a.addr.toNat < 0x400000 + 16 * s.params.symCap) ∨
      (0x800000 ≤ a.addr.toNat ∧ a.addr.toNat < 0x800000 + 16 * s.params.symCap)) →
      performAccess s a = .fault .bufferWhileBusy

/-- R75: bit i of a bit buffer is bit 31 - (i mod 32) of the word at window offset 4 * (i div 32), for a host's write
and for its read; an unwritten bit in the word read is a fault of the model (R49). -/
def Obligations.BitWindowsPackMsbFirst : Prop :=
  ∀ (s : State) (w : Nat) (v : Word), s.params.wf = true → s.engine = none → 32 * w < s.params.bitCap →
    (∃ t, performAccess s ⟨BitVec.ofNat 24 (0x100000 + 4 * w), 0xF#4, some v⟩ = .next t ∧
      (∀ j, j < 32 → Memory.get t.bitin (32 * w + j) = some (v.getLsbD (31 - j))) ∧
      (∀ i, i / 32 ≠ w → Memory.get t.bitin i = Memory.get s.bitin i) ∧ t = { s with bitin := t.bitin }) ∧
    (∃ t, performAccess s ⟨BitVec.ofNat 24 (0x200000 + 4 * w), 0xF#4, some v⟩ = .next t ∧
      (∀ j, j < 32 → Memory.get t.bitout (32 * w + j) = some (v.getLsbD (31 - j))) ∧
      (∀ i, i / 32 ≠ w → Memory.get t.bitout i = Memory.get s.bitout i) ∧ t = { s with bitout := t.bitout }) ∧
    (∀ bit : Nat → Bool, (∀ j, j < 32 → Memory.get s.bitin (32 * w + j) = some (bit j)) →
      ∃ r : Word, (∀ j, j < 32 → r.getLsbD (31 - j) = bit j) ∧
        performAccess s ⟨BitVec.ofNat 24 (0x100000 + 4 * w), 0xF#4, none⟩ =
          .next { s with env := { s.env with readData := some r } }) ∧
    (∀ bit : Nat → Bool, (∀ j, j < 32 → Memory.get s.bitout (32 * w + j) = some (bit j)) →
      ∃ r : Word, (∀ j, j < 32 → r.getLsbD (31 - j) = bit j) ∧
        performAccess s ⟨BitVec.ofNat 24 (0x200000 + 4 * w), 0xF#4, none⟩ =
          .next { s with env := { s.env with readData := some r } }) ∧
    (∀ j, j < 32 → Memory.get s.bitin (32 * w + j) = none →
      performAccess s ⟨BitVec.ofNat 24 (0x100000 + 4 * w), 0xF#4, none⟩ = .fault .unwrittenHostRead) ∧
    (∀ j, j < 32 → Memory.get s.bitout (32 * w + j) = none →
      performAccess s ⟨BitVec.ofNat 24 (0x200000 + 4 * w), 0xF#4, none⟩ = .fault .unwrittenHostRead)

/-- R76, R108: the four word writes of WRSYM, issued by the host of an idle block, make entry k the symbol (i, q), and
change no other byte and nothing else in the block. No order of turns is fixed, so that the four steps are the host's by
the model's default order (log 1). -/
def Obligations.WrsymWritesTheEntry : Prop :=
  ∀ (s : State) (b : Source) (k : Nat) (i q : F64), s.params.wf = true → s.engine = none →
    s.env.resetHeld = false → s.env.turns = [] → s.env.script = expand (.wrsym b k i q) → k < s.params.symCap →
    ∃ t, State.Reaches 4 s t ∧ loadSymbol (sourceBuffer t b) k = some ⟨i, q⟩ ∧
      (∀ a, a < 16 * k ∨ 16 * k + 16 ≤ a →
        Memory.get (sourceBuffer t b) a = Memory.get (sourceBuffer s b) a) ∧
      t = (match b with
        | .clean => { s with clean := t.clean, env := { s.env with script := [] } }
        | .noisy => { s with noisy := t.noisy, env := { s.env with script := [] } })

/-- R76: the four words of an entry, as the host reads them: I low, I high, Q low, Q high. -/
def Obligations.SymbolEntryReadsAsFourWords : Prop :=
  ∀ (s : State) (b : Source) (k : Nat) (z : Symbol), s.params.wf = true → s.engine = none → k < s.params.symCap →
    loadSymbol (sourceBuffer s b) k = some z →
    ∀ c, c < 4 →
      performAccess s ⟨BitVec.ofNat 24 (Buf.base (Source.buf b) + 16 * k + 4 * c), 0xF#4, none⟩ =
        .next { s with env := { s.env with
          readData := some ((z.q ++ z.i : BitVec 128).extractLsb' (32 * c) 32) } }

/-- R31 to R34, R37 to R43: a host write of each register but STATUS and CTRL: a plain store, or ignored. -/
def Obligations.RegisterWrites : Prop :=
  ∀ (s : State) (w : Word),
    performAccess s ⟨0x018#24, 0xF#4, some w⟩ = .next { s with m := w } ∧
    performAccess s ⟨0x01C#24, 0xF#4, some w⟩ = .next { s with len := w } ∧
    performAccess s ⟨0x020#24, 0xF#4, some w⟩ = .next { s with symcnt := w } ∧
    performAccess s ⟨0x028#24, 0xF#4, some w⟩ = .next { s with varLo := w } ∧
    performAccess s ⟨0x02C#24, 0xF#4, some w⟩ = .next { s with varHi := w } ∧
    performAccess s ⟨0x030#24, 0xF#4, some w⟩ = .next { s with seedLo := w } ∧
    performAccess s ⟨0x034#24, 0xF#4, some w⟩ = .next { s with seedHi := w } ∧
    performAccess s ⟨0x000#24, 0xF#4, some w⟩ = .next s ∧ performAccess s ⟨0x004#24, 0xF#4, some w⟩ = .next s ∧
    performAccess s ⟨0x008#24, 0xF#4, some w⟩ = .next s ∧ performAccess s ⟨0x024#24, 0xF#4, some w⟩ = .next s ∧
    performAccess s ⟨0x038#24, 0xF#4, some w⟩ = .next s

/-- The register map of 10_state.md section 2: what a host read of each register but STATUS and CTRL returns. -/
def Obligations.RegisterReads : Prop :=
  ∀ s : State,
    let reads : Offset → Word → Prop := fun a v =>
      performAccess s ⟨a, 0xF#4, none⟩ = .next { s with env := { s.env with readData := some v } }
    reads 0x000#24 0x51414D07#32 ∧ reads 0x004#24 (BitVec.ofNat 32 s.params.symCap) ∧
    reads 0x008#24 (BitVec.ofNat 32 s.params.bitCap) ∧ reads 0x00C#24 0#32 ∧ reads 0x018#24 s.m ∧
    reads 0x01C#24 s.len ∧ reads 0x020#24 s.symcnt ∧ reads 0x024#24 s.outlen ∧ reads 0x028#24 s.varLo ∧
    reads 0x02C#24 s.varHi ∧ reads 0x030#24 s.seedLo ∧ reads 0x034#24 s.seedHi ∧ reads 0x038#24 s.errIdx

/-- R35, R36, R260: STATUS and CTRL, bit by bit: what a read returns and what a write does. -/
def Obligations.StatusAndCtrlFields : Prop :=
  ∀ (s : State) (w : Word),
    (∃ v : Word, performAccess s ⟨0x010#24, 0xF#4, none⟩ = .next { s with env := { s.env with readData := some v } } ∧
      v.getLsbD 0 = s.engine.isSome ∧ v.getLsbD 1 = s.done ∧ v.getLsbD 2 = s.drop ∧ v.extractLsb' 3 5 = 0#5 ∧
      v.extractLsb' 8 4 = (match s.err with
        | .ok => 0#4 | .invalidConfiguration => 1#4 | .invalidInput => 2#4 | .degenerateParameter => 3#4
        | .illegalCommand => 4#4 | .capacityExceeded => 5#4 | .nonFiniteSymbol => 6#4) ∧
      v.extractLsb' 12 20 = 0#20) ∧
    performAccess s ⟨0x010#24, 0xF#4, some w⟩ =
      .next { s with done := s.done && !w.getLsbD 1, drop := s.drop && !w.getLsbD 2 } ∧
    (∃ v : Word, performAccess s ⟨0x014#24, 0xF#4, none⟩ = .next { s with env := { s.env with readData := some v } } ∧
      v.getLsbD 0 = s.irqEn ∧ v.extractLsb' 1 31 = 0#31) ∧
    performAccess s ⟨0x014#24, 0xF#4, some w⟩ = .next { s with irqEn := w.getLsbD 0 }

/-- R270: the interrupt is IRQ_EN and DONE: a completion raises it when enabled, a write of 1 to STATUS bit 1 and an
acceptance clear it, a dropped command leaves it. -/
def Obligations.InterruptFollowsDone : Prop :=
  ∀ s : State, s.irq = (s.irqEn && s.done) ∧
    (∀ (t : State) (L : Latch), s.engine = some L → engineStep s = .next t → t.irq = s.irqEn) ∧
    (∀ (t : State) (w : Word), performAccess s ⟨0x010#24, 0xF#4, some w⟩ = .next t → w.getLsbD 1 = true →
      t.irq = false) ∧
    (∀ (t : State) (c : Word), performAccess s ⟨0x00C#24, 0xF#4, some c⟩ = .next t →
      (s.engine = none → t.irq = false) ∧ (∀ L, s.engine = some L → t.irq = s.irq)) ∧
    (nextTurn s = .resetAssert → ∃ t, step s = .next t ∧ t.irq = false)

/-- R108: one poll of WAIT reads STATUS; the host stays at WAIT while BUSY reads 1 and goes on when it reads 0. -/
def Obligations.WaitPollsUntilIdle : Prop :=
  ∀ (s : State) (rest : List HostOp), s.env.script = .wait :: rest →
    ∃ t, hostStep s = .next t ∧ t.env.readData = some (readReg s .status) ∧
      (∀ L, s.engine = some L → t.env.script = .wait :: rest) ∧ (s.engine = none → t.env.script = rest) ∧
      t = { s with env := { s.env with readData := t.env.readData, script := t.env.script } }

/-- R107, R108: the accesses each statement stands for, on every operand, and the offsets the tables give. -/
def Obligations.ScriptStatementsExpand : Prop :=
  let write : Nat → Word → HostOp := fun a w => .access ⟨BitVec.ofNat 24 a, 0xF#4, some w⟩
  let read : Nat → HostOp := fun a => .access ⟨BitVec.ofNat 24 a, 0xF#4, none⟩
  let pair : Nat → BitVec 64 → List HostOp := fun a v =>
    [write a (v.extractLsb' 0 32), write (a + 4) (v.extractLsb' 32 32)]
  ([.id, .symcap, .bitcap, .cmd, .status, .ctrl, .m, .len, .symcnt, .outlen, .varLo, .varHi, .seedLo, .seedHi,
    .errIdx].map Reg.offset =
      [0x000, 0x004, 0x008, 0x00C, 0x010, 0x014, 0x018, 0x01C, 0x020, 0x024, 0x028, 0x02C, 0x030, 0x034, 0x038]) ∧
  ([.bitin, .bitout, .clean, .noisy].map Buf.base = [0x100000, 0x200000, 0x400000, 0x800000]) ∧
  (∀ (r : Reg) (v : Word), expand (.wr r v) = [write (Reg.offset r) v]) ∧
  (∀ r : Reg, expand (.rd r) = [read (Reg.offset r)]) ∧
  (∀ (b : Buf) (w : Nat) (v : Word), expand (.wrw b w v) = [write (Buf.base b + 4 * w) v]) ∧
  (∀ (b : Buf) (w : Nat), expand (.rdw b w) = [read (Buf.base b + 4 * w)]) ∧
  ([.nop, .const, .mod, .awgn, .demod .clean, .demod .noisy, .seed].map (fun i => expand (.cmd i)) =
    [0x0#32, 0x1#32, 0x2#32, 0x3#32, 0x4#32, 0x104#32, 0x5#32].map fun c => [write 0x00C c]) ∧
  (∀ v : F64, expand (.wr64Var v) = pair 0x028 v) ∧
  (∀ v : BitVec 64, expand (.wr64Seed v) = pair 0x030 v) ∧
  (∀ (k : Nat) (i q : F64), expand (.wrsym .clean k i q) = pair (0x400000 + 16 * k) i ++ pair (0x400000 + 16 * k + 8) q ∧
    expand (.wrsym .noisy k i q) = pair (0x800000 + 16 * k) i ++ pair (0x800000 + 16 * k + 8) q) ∧
  expand .wait = [.wait] ∧
  (∀ v : F64, expand (.level v) = pair 0x028 v ++ [write 0x00C 0x3#32, .wait, write 0x00C 0x104#32, .wait])

/-! Arithmetic. -/

/-- R10: `fl_add` of finite values. Where the exact sum stays below the overflow bound (2^54 - 1) * 2^970 in magnitude,
the result is finite, no finite binary64 is closer to the sum, and one that is as close leaves the result's last fraction
bit even; elsewhere the result is the infinity of the sum's sign. An exact zero sum is a zero, negative only where both terms
are (R207, vector N4). -/
def Obligations.AddRoundsToNearestEven : Prop :=
  ∀ (nan a b : F64), Fp.isFinite a = true → Fp.isFinite b = true →
    let sum := Fp.units a + Fp.units b
    let r := Fp.add nan a b
    (sum.natAbs < (2 ^ 54 - 1) * 2 ^ 2044 →
      Fp.isFinite r = true ∧ ∀ w : F64, Fp.isFinite w = true →
        (sum - Fp.units r).natAbs ≤ (sum - Fp.units w).natAbs ∧
        ((sum - Fp.units r).natAbs = (sum - Fp.units w).natAbs → Fp.units w ≠ Fp.units r → Fp.frac r % 2 = 0)) ∧
    ((2 ^ 54 - 1) * 2 ^ 2044 ≤ sum.natAbs → Fp.isInf r = true ∧ (Fp.sign r = true ↔ sum < 0)) ∧
    (sum = 0 → Fp.isZero r = true ∧ Fp.sign r = (Fp.sign a && Fp.sign b))

/-- R10: `fl_mul` of finite values, likewise; the exact product is in units of 2^-2148. The sign is the exclusive or of
the signs. -/
def Obligations.MulRoundsToNearestEven : Prop :=
  ∀ (nan a b : F64), Fp.isFinite a = true → Fp.isFinite b = true →
    let prod := Fp.units a * Fp.units b
    let r := Fp.mul nan a b
    Fp.sign r = (Fp.sign a != Fp.sign b) ∧
    (prod.natAbs < (2 ^ 54 - 1) * 2 ^ 2044 * Fp.one →
      Fp.isFinite r = true ∧ ∀ w : F64, Fp.isFinite w = true →
        (prod - Fp.units r * Fp.one).natAbs ≤ (prod - Fp.units w * Fp.one).natAbs ∧
        ((prod - Fp.units r * Fp.one).natAbs = (prod - Fp.units w * Fp.one).natAbs → Fp.units w ≠ Fp.units r →
          Fp.frac r % 2 = 0)) ∧
    ((2 ^ 54 - 1) * 2 ^ 2044 * Fp.one ≤ prod.natAbs → Fp.isInf r = true)

/-- R202, R10: the standard deviation of a valid variance is finite and not negative, that of a signed zero is that zero,
and it is the correctly rounded root: the root lies between the midpoints to the next finite values, below and above. -/
def Obligations.SigmaIsTheRoundedRoot : Prop :=
  ∀ v : F64, Fp.isFinite v = true → 0 ≤ Fp.units v →
    let r := sigmaOf v
    Fp.isFinite r = true ∧ 0 ≤ Fp.units r ∧ (Fp.isZero v = true → r = v) ∧
    ∀ w : F64, Fp.isFinite w = true → 0 ≤ Fp.units w →
      (Fp.units r < Fp.units w → 4 * Fp.units v * Fp.one ≤ (Fp.units r + Fp.units w) ^ 2) ∧
      (Fp.units w < Fp.units r → (Fp.units r + Fp.units w) ^ 2 ≤ 4 * Fp.units v * Fp.one)

/-! The symbol windows word by word, and the release of reset. -/

/-- R76, R77, R49: word w of a symbol window holds bytes 4w .. 4w + 3, lane 0 first, for a host's write and for its read; a
write of one word leaves every other byte, and a read needs the bytes of its own word only, whatever the rest of the entry
holds; a read of a word with a byte never written is a fault of the model (log 8). -/
def Obligations.SymbolWindowsHoldWords : Prop :=
  ∀ (s : State) (b : Source) (w : Nat) (v : Word), s.params.wf = true → s.engine = none → 4 * w < 16 * s.params.symCap →
    (∃ t, performAccess s ⟨BitVec.ofNat 24 (Buf.base (Source.buf b) + 4 * w), 0xF#4, some v⟩ = .next t ∧
      (∀ j, j < 4 → Memory.get (sourceBuffer t b) (4 * w + j) = some (v.extractLsb' (8 * j) 8)) ∧
      (∀ a, a / 4 ≠ w → Memory.get (sourceBuffer t b) a = Memory.get (sourceBuffer s b) a) ∧
      t = (match b with
        | .clean => { s with clean := t.clean }
        | .noisy => { s with noisy := t.noisy })) ∧
    (∀ byte : Nat → Byte, (∀ j, j < 4 → Memory.get (sourceBuffer s b) (4 * w + j) = some (byte j)) →
      ∃ r : Word, (∀ j, j < 4 → r.extractLsb' (8 * j) 8 = byte j) ∧
        performAccess s ⟨BitVec.ofNat 24 (Buf.base (Source.buf b) + 4 * w), 0xF#4, none⟩ =
          .next { s with env := { s.env with readData := some r } }) ∧
    (∀ j, j < 4 → Memory.get (sourceBuffer s b) (4 * w + j) = none →
      performAccess s ⟨BitVec.ofNat 24 (Buf.base (Source.buf b) + 4 * w), 0xF#4, none⟩ = .fault .unwrittenHostRead)

/-- R290: the release of reset changes nothing but the level of the input; after an assertion and a release the block is
idle and performs the host's first access. The turns, and the host's script kept through reset, are the model's (log 1,
log 12). -/
def Obligations.ResetReleaseMakesTheBlockReady : Prop :=
  (∀ s : State, nextTurn s = .resetRelease →
    step s = .next { s with env := { s.env with turns := s.env.turns.tail, resetHeld := false } }) ∧
  (∀ (s : State) (a : Access) (rest : List HostOp), s.env.turns = [.resetAssert, .resetRelease] →
    s.env.script = .access a :: rest →
    ∃ t, State.Reaches 2 s t ∧ t.engine = none ∧ t.done = false ∧ t.err = .ok ∧ t.env.resetHeld = false ∧
      step t = performAccess { t with env := { t.env with script := rest } } a)
end

