-- ==== Sys2Proof/Laws/Memory.lean ====
section
/-!
SUPPORT. Laws of the buffer operations: what a read returns after a write, the canonical form, and the byte and bit
runs of numbers.
-/

namespace Sys2Proof.Machine

variable {α : Type}

/-! Reading a run. -/

theorem collect_congr {f g : Nat → Option α} :
    ∀ (n k : Nat), (∀ i, k ≤ i → i < k + n → f i = g i) → collect f k n = collect g k n
  | 0, _, _ => rfl
  | n + 1, k, h => by
    have h0 := h k (by omega) (by omega)
    have ih := collect_congr n (k + 1) fun i h1 h2 => h i (by omega) (by omega)
    simp only [collect, h0, ih]

/-- A run of reads answers a list exactly when the list has the run's length and each read answers its entry. -/
theorem collect_eq_some_iff {f : Nat → Option α} :
    ∀ (n k : Nat) (vs : List α),
      collect f k n = some vs ↔ vs.length = n ∧ ∀ i, i < n → f (k + i) = vs[i]?
  | 0, k, vs => by
    cases vs <;> simp [collect]
  | n + 1, k, vs => by
    have ih := collect_eq_some_iff (f := f) n (k + 1)
    constructor
    · intro h
      simp only [collect] at h
      split at h
      · cases h
      · rename_i v hv
        split at h
        · cases h
        · rename_i ws hws
          cases h
          obtain ⟨hl, hr⟩ := (ih ws).1 hws
          refine ⟨by simp [hl], fun i hi => ?_⟩
          cases i with
          | zero => simpa using hv
          | succ i =>
            have := hr i (by omega)
            rw [show k + (i + 1) = k + 1 + i by omega, this]
            simp
    · rintro ⟨hl, hr⟩
      cases vs with
      | nil => simp at hl
      | cons v ws =>
        have h0 : f k = some v := by simpa using hr 0 (by omega)
        have h1 : collect f (k + 1) n = some ws := by
          refine (ih ws).2 ⟨by simpa using hl, fun i hi => ?_⟩
          have := hr (i + 1) (by omega)
          rw [show k + 1 + i = k + (i + 1) by omega, this]
          simp
        simp [collect, h0, h1]

/-- A run of reads that all answer answers the list of the answers. -/
theorem collect_eq_map {f : Nat → Option α} {g : Nat → α} (n k : Nat) (h : ∀ i, i < n → f (k + i) = some (g i)) :
    collect f k n = some ((List.range n).map g) := by
  refine (collect_eq_some_iff n k _).2 ⟨by simp, fun i hi => ?_⟩
  rw [h i hi]
  simp [hi]

/-- A run of reads answers nothing exactly when one of its reads answers nothing. -/
theorem collect_eq_none_iff {f : Nat → Option α} :
    ∀ (n k : Nat), collect f k n = none ↔ ∃ i, i < n ∧ f (k + i) = none
  | 0, k => by simp [collect]
  | n + 1, k => by
    have ih := collect_eq_none_iff (f := f) n (k + 1)
    constructor
    · intro h
      cases hf : f k with
      | none => exact ⟨0, by omega, by simpa using hf⟩
      | some v =>
        have h1 : collect f (k + 1) n = none := by
          cases hc : collect f (k + 1) n with
          | none => rfl
          | some ws => simp [collect, hf, hc] at h
        obtain ⟨i, hi, hn⟩ := ih.1 h1
        exact ⟨i + 1, by omega, by rw [show k + (i + 1) = k + 1 + i by omega]; exact hn⟩
    · rintro ⟨i, hi, hn⟩
      cases hf : f k with
      | none => simp [collect, hf]
      | some v =>
        have h1 : collect f (k + 1) n = none := by
          cases i with
          | zero => simp [hf] at hn
          | succ i => exact ih.2 ⟨i, by omega, by rw [show k + 1 + i = k + (i + 1) by omega]; exact hn⟩
        simp [collect, hf, h1]

/-! Reading one cell. -/

theorem Memory.get_append (l r : List (Nat × α)) (a : Nat) :
    Memory.get (l ++ r) a = (Memory.get l a).or (Memory.get r a) := by
  induction l with
  | nil => simp [Memory.get]
  | cons c l ih =>
    obtain ⟨k, v⟩ := c
    by_cases h : k = a <;> simp [Memory.get, h, ih]

/-- Cells thrown out at other keys do not matter. -/
theorem Memory.get_filter (p : Nat → Bool) (l : List (Nat × α)) (a : Nat) :
    Memory.get (l.filter fun c => p c.1) a = if p a then Memory.get l a else none := by
  induction l with
  | nil => simp [Memory.get]
  | cons c l ih =>
    obtain ⟨k, v⟩ := c
    by_cases hk : k = a
    · subst hk
      by_cases hp : p k = true <;> simp_all [Memory.get]
    · by_cases hp : p k = true <;> simp_all [Memory.get]

theorem Memory.get_run :
    ∀ (vs : List α) (a i : Nat), Memory.get (Memory.run a vs) i = if a ≤ i then vs[i - a]? else none
  | [], a, i => by simp [Memory.run, Memory.get]
  | v :: vs, a, i => by
    have ih := Memory.get_run vs (a + 1) i
    simp only [Memory.run, Memory.get, ih]
    by_cases h : a = i
    · subst h; simp
    · by_cases h2 : a ≤ i
      · obtain ⟨d, rfl⟩ : ∃ d, i = a + 1 + d := ⟨i - a - 1, by omega⟩
        simp [h, show a ≤ a + 1 + d by omega, show a + 1 + d - a = d + 1 by omega]
      · simp [h, h2, show ¬ a + 1 ≤ i by omega]

/-- A read after a write: the written run inside it, the old cell outside. It holds of every cell list. -/
theorem Memory.get_store (l : List (Nat × α)) (a : Nat) (vs : List α) (i : Nat) :
    Memory.get (Memory.store l a vs) i =
      if a ≤ i ∧ i < a + vs.length then vs[i - a]? else Memory.get l i := by
  rw [Memory.store, Memory.get_append, Memory.get_append, Memory.get_run,
    Memory.get_filter (fun k => decide (k < a)), Memory.get_filter (fun k => decide (a + vs.length ≤ k))]
  by_cases h1 : a ≤ i
  · by_cases h2 : i < a + vs.length
    · have h3 : ¬ i < a := by omega
      have h4 : ¬ a + vs.length ≤ i := by omega
      simp [h1, h2, h3, h4]
    · have h3 : ¬ i < a := by omega
      have h4 : a + vs.length ≤ i := by omega
      have h5 : vs[i - a]? = none := by simp; omega
      simp [h1, h2, h3, h4, h5]
  · have h3 : i < a := by omega
    have h4 : ¬ a + vs.length ≤ i := by omega
    simp [h1, h3, h4]

/-- Cells below a are no answer to a read from a on. -/
theorem Memory.get_dropWhile (l : List (Nat × α)) (a i : Nat) (h : a ≤ i) :
    Memory.get (l.dropWhile fun c => decide (c.1 < a)) i = Memory.get l i := by
  induction l with
  | nil => simp
  | cons c l ih =>
    obtain ⟨k, v⟩ := c
    by_cases hk : k < a
    · rw [List.dropWhile_cons_of_pos (by simpa using hk), ih, Memory.get, if_neg (by omega)]
    · rw [List.dropWhile_cons_of_neg (by simpa using hk)]

/-- A run of cells is read cell by cell. -/
theorem Memory.load_eq (l : List (Nat × α)) (a n : Nat) : Memory.load l a n = collect (Memory.get l) a n :=
  collect_congr n a fun i h _ => Memory.get_dropWhile l a i h

theorem Memory.load_eq_some_iff (l : List (Nat × α)) (a n : Nat) (vs : List α) :
    Memory.load l a n = some vs ↔ vs.length = n ∧ ∀ i, i < n → Memory.get l (a + i) = vs[i]? := by
  rw [Memory.load_eq, collect_eq_some_iff]

/-- Two cell lists that read alike over a run load alike. -/
theorem Memory.load_congr {l r : List (Nat × α)} {a n : Nat}
    (h : ∀ i, a ≤ i → i < a + n → Memory.get l i = Memory.get r i) : Memory.load l a n = Memory.load r a n := by
  rw [Memory.load_eq, Memory.load_eq]
  exact collect_congr n a h

/-- Loading a run that was stored gives it back. -/
theorem Memory.load_store_self (l : List (Nat × α)) (a : Nat) (vs : List α) :
    Memory.load (Memory.store l a vs) a vs.length = some vs := by
  refine (Memory.load_eq_some_iff _ _ _ _).2 ⟨rfl, fun i hi => ?_⟩
  rw [Memory.get_store, if_pos ⟨by omega, by omega⟩]
  congr 1
  omega

/-- Loading a part of a stored run gives that part. -/
theorem Memory.load_store_part (l : List (Nat × α)) (a d n : Nat) (vs : List α) (h : d + n ≤ vs.length) :
    Memory.load (Memory.store l a vs) (a + d) n = some ((vs.drop d).take n) := by
  refine (Memory.load_eq_some_iff _ _ _ _).2 ⟨by simp; omega, fun i hi => ?_⟩
  rw [Memory.get_store, if_pos ⟨by omega, by omega⟩, List.getElem?_take, if_pos hi, List.getElem?_drop]
  congr 1
  omega

/-- Loading a run that a store does not touch gives what it gave before. -/
theorem Memory.load_store_disjoint (l : List (Nat × α)) (a b n : Nat) (vs : List α)
    (h : b + n ≤ a ∨ a + vs.length ≤ b) : Memory.load (Memory.store l a vs) b n = Memory.load l b n := by
  refine Memory.load_congr fun i h1 h2 => ?_
  rw [Memory.get_store, if_neg (by omega)]

/-- Writing a run and then the run after it is writing both at once. -/
theorem Memory.get_store_append (l : List (Nat × α)) (a : Nat) (vs ws : List α) (i : Nat) :
    Memory.get (Memory.store (Memory.store l a vs) (a + vs.length) ws) i =
      Memory.get (Memory.store l a (vs ++ ws)) i := by
  rw [Memory.get_store, Memory.get_store, Memory.get_store]
  by_cases h1 : a ≤ i ∧ i < a + vs.length
  · rw [if_neg (by omega), if_pos h1, if_pos ⟨h1.1, by simp; omega⟩, List.getElem?_append_left (by omega)]
  · by_cases h2 : a + vs.length ≤ i ∧ i < a + vs.length + ws.length
    · rw [if_pos h2, if_pos ⟨by omega, by simp; omega⟩, List.getElem?_append_right (by omega)]
      congr 1; omega
    · rw [if_neg h2, if_neg h1, if_neg (by simp; omega)]

/-- Writing a run twice is writing it once. -/
theorem Memory.store_store (l : List (Nat × α)) (a : Nat) (vs : List α) :
    Memory.store (Memory.store l a vs) a vs = Memory.store l a vs := by
  have run_lt : ∀ (vs : List α) (a b : Nat), b ≤ a → (Memory.run a vs).filter (fun c => decide (c.1 < b)) = [] := by
    intro vs; induction vs with
    | nil => intros; rfl
    | cons v vs ih =>
      intro a b h; simp only [Memory.run]
      rw [List.filter_cons_of_neg (by simp; omega), ih _ _ (by omega)]
  have run_ge : ∀ (vs : List α) (a b : Nat), a + vs.length ≤ b →
      (Memory.run a vs).filter (fun c => decide (b ≤ c.1)) = [] := by
    intro vs; induction vs with
    | nil => intros; rfl
    | cons v vs ih =>
      intro a b h; simp only [Memory.run]; simp at h
      rw [List.filter_cons_of_neg (by simp; omega), ih _ _ (by omega)]
  have low : l.filter (fun c => decide (c.1 < a) && decide (a + vs.length ≤ c.1)) = [] := by
    rw [List.filter_eq_nil_iff]; intro c _; simp; omega
  have high : l.filter (fun c => decide (a + vs.length ≤ c.1) && decide (c.1 < a)) = [] := by
    rw [List.filter_eq_nil_iff]; intro c _; simp; omega
  unfold Memory.store
  simp only [List.filter_append, List.filter_filter, run_lt vs a a le_rfl, run_ge vs a _ le_rfl, low, high,
    Bool.and_self, List.append_nil, List.nil_append]

/-! The canonical form. -/

theorem Memory.run_keys : ∀ (vs : List α) (a : Nat), (Memory.run a vs).map Prod.fst = List.range' a vs.length
  | [], _ => rfl
  | v :: vs, a => by
    simp only [Memory.run, List.map_cons, List.length_cons, List.range'_succ, Memory.run_keys vs (a + 1)]

theorem Memory.filter_keys (p : Nat → Bool) (l : List (Nat × α)) :
    (l.filter fun c => p c.1).map Prod.fst = (l.map Prod.fst).filter p := by
  rw [List.filter_map]; rfl

/-- A write keeps the canonical form. -/
theorem Memory.wf_store {l : List (Nat × α)} (h : Memory.wf l) (a : Nat) (vs : List α) :
    Memory.wf (Memory.store l a vs) := by
  unfold Memory.wf Memory.store
  simp only [List.map_append, Memory.run_keys]
  rw [Memory.filter_keys (fun k => decide (k < a)), Memory.filter_keys (fun k => decide (a + vs.length ≤ k))]
  simp only [List.pairwise_append]
  refine ⟨h.filter _, ⟨List.pairwise_lt_range', h.filter _, ?_⟩, ?_⟩
  · intro x hx y hy
    simp only [List.mem_range'_1, List.mem_filter, decide_eq_true_eq] at hx hy
    omega
  · intro x hx y hy
    simp only [List.mem_append, List.mem_range'_1, List.mem_filter, decide_eq_true_eq] at hx hy
    omega

/-- A write inside a bound leaves no cell outside it. -/
theorem Memory.within_store {bound : Nat} {l : List (Nat × α)} (h : Memory.within bound l) (a : Nat) (vs : List α)
    (ha : a + vs.length ≤ bound) : Memory.within bound (Memory.store l a vs) := by
  intro k hk
  unfold Memory.store at hk
  simp only [List.map_append, Memory.run_keys] at hk
  rw [Memory.filter_keys (fun k => decide (k < a)), Memory.filter_keys (fun k => decide (a + vs.length ≤ k))] at hk
  simp only [List.mem_append, List.mem_range'_1, List.mem_filter] at hk
  rcases hk with hk | hk | hk
  · exact h k hk.1
  · omega
  · exact h k hk.1

/-- A cell outside the bound reads as nothing. -/
theorem Memory.get_of_within {bound : Nat} {l : List (Nat × α)} (h : Memory.within bound l) {a : Nat} (ha : bound ≤ a) :
    Memory.get l a = none := by
  induction l with
  | nil => rfl
  | cons c l ih =>
    obtain ⟨k, v⟩ := c
    have hk : k < bound := h k (by simp)
    rw [Memory.get, if_neg (by omega)]
    exact ih fun j hj => h j (by simp [hj])

/-- Equal reads are equal data: two canonical cell lists that read alike at every key are the same list. -/
theorem Memory.ext_of_wf :
    ∀ {l r : List (Nat × α)}, Memory.wf l → Memory.wf r → (∀ a, Memory.get l a = Memory.get r a) → l = r
  | [], [], _, _, _ => rfl
  | [], (k, v) :: r, _, _, h => by simpa [Memory.get] using h k
  | (k, v) :: l, [], _, _, h => by simpa [Memory.get] using h k
  | (k, v) :: l, (k', v') :: r, hl, hr, h => by
    have hl' : Memory.wf l := (List.pairwise_cons.1 hl).2
    have hr' : Memory.wf r := (List.pairwise_cons.1 hr).2
    have low : ∀ {l : List (Nat × α)} {k : Nat}, (∀ j ∈ l.map Prod.fst, k < j) → ∀ i, i ≤ k → Memory.get l i = none := by
      intro l k hk i hi
      induction l with
      | nil => rfl
      | cons c l ih =>
        obtain ⟨j, w⟩ := c
        have := hk j (by simp)
        rw [Memory.get, if_neg (by omega)]
        exact ih fun j hj => hk j (by simp [hj])
    have ll := low (List.pairwise_cons.1 hl).1
    have lr := low (List.pairwise_cons.1 hr).1
    have hkk : k = k' := by
      by_contra hne
      rcases Nat.lt_or_gt_of_ne hne with hlt | hgt
      · have := h k
        rw [Memory.get, if_pos rfl, Memory.get, if_neg (by omega), lr k (by omega)] at this
        cases this
      · have := h k'
        rw [Memory.get, if_neg (by omega), ll k' (by omega), Memory.get, if_pos rfl] at this
        cases this
    subst hkk
    have hv : v = v' := by simpa [Memory.get] using h k
    subst hv
    have : l = r := by
      refine Memory.ext_of_wf hl' hr' fun a => ?_
      by_cases ha : a ≤ k
      · rw [ll a ha, lr a ha]
      · have := h a
        rwa [Memory.get, if_neg (by omega), Memory.get, if_neg (by omega)] at this
    rw [this]

/-! Byte runs and bit runs. -/

@[simp] theorem bytesLE_length : ∀ (n v : Nat), (bytesLE n v).length = n
  | 0, _ => rfl
  | n + 1, v => by simp [bytesLE, bytesLE_length n]

theorem ofBytesLE_bytesLE : ∀ (n v : Nat), ofBytesLE (bytesLE n v) = v % 256 ^ n
  | 0, v => by simp [bytesLE, ofBytesLE, Nat.mod_one]
  | n + 1, v => by
    simp only [bytesLE, ofBytesLE, ofBytesLE_bytesLE n, BitVec.toNat_ofNat]
    rw [show (256 : Nat) ^ (n + 1) = 256 * 256 ^ n by ring, Nat.mod_mul]

theorem bytesLE_ofBytesLE : ∀ (bs : List Byte), bytesLE bs.length (ofBytesLE bs) = bs
  | [] => rfl
  | b :: bs => by
    have hb : b.toNat < 256 := b.isLt
    have h1 : (b.toNat + 256 * ofBytesLE bs) / 256 = ofBytesLE bs := by omega
    have h2 : BitVec.ofNat 8 (b.toNat + 256 * ofBytesLE bs) = b := by
      apply BitVec.eq_of_toNat_eq
      simp only [BitVec.toNat_ofNat]
      omega
    simp only [List.length_cons, ofBytesLE, bytesLE, h1, h2, bytesLE_ofBytesLE bs]

theorem bytesLE_add : ∀ (n m v : Nat), bytesLE (n + m) v = bytesLE n v ++ bytesLE m (v / 256 ^ n)
  | 0, m, v => by simp [bytesLE]
  | n + 1, m, v => by
    rw [Nat.add_right_comm]
    simp only [bytesLE, List.cons_append, bytesLE_add n m, Nat.pow_succ', Nat.div_div_eq_div_mul]

/-- The low n bytes do not see what stands above them. -/
theorem bytesLE_mod (n v : Nat) : bytesLE n (v % 256 ^ n) = bytesLE n v := by
  have := bytesLE_ofBytesLE (bytesLE n v)
  rwa [ofBytesLE_bytesLE, bytesLE_length] at this

/-- The bytes of the two words of a 64-bit value (R76, R77). -/
theorem bytesLE_words (v : F64) :
    bytesLE 4 (v.extractLsb' 0 32).toNat ++ bytesLE 4 (v.extractLsb' 32 32).toNat = bytesLE 8 v.toNat := by
  have h := v.isLt
  have e1 : (v.extractLsb' 0 32).toNat = v.toNat % 256 ^ 4 := by simp [BitVec.extractLsb'_toNat]
  have e2 : (v.extractLsb' 32 32).toNat = v.toNat / 256 ^ 4 := by
    simp only [BitVec.extractLsb'_toNat, Nat.shiftRight_eq_div_pow]; omega
  rw [e1, e2, bytesLE_mod, ← bytesLE_add 4 4]

theorem ofBytesLE_lt : ∀ (bs : List Byte), ofBytesLE bs < 256 ^ bs.length
  | [] => by simp [ofBytesLE]
  | b :: bs => by
    have hb : b.toNat < 256 := b.isLt
    have ih := ofBytesLE_lt bs
    simp only [ofBytesLE, List.length_cons, show (256 : Nat) ^ (bs.length + 1) = 256 * 256 ^ bs.length by ring]
    omega

@[simp] theorem bitsMSB_length : ∀ (n v : Nat), (bitsMSB n v).length = n
  | 0, _ => rfl
  | n + 1, v => by simp [bitsMSB, bitsMSB_length n]

/-- Bit j of an MSB-first run of n bits is bit n - 1 - j of the number (R232). -/
theorem bitsMSB_getElem? : ∀ (n v j : Nat), j < n → (bitsMSB n v)[j]? = some (v.testBit (n - 1 - j))
  | n + 1, v, 0, _ => by simp [bitsMSB]
  | n + 1, v, j + 1, h => by
    have := bitsMSB_getElem? n v j (by omega)
    simp only [bitsMSB, List.getElem?_cons_succ, this]
    congr 2
    omega

theorem ofBitsMSB_bitsMSB : ∀ (n v : Nat), ofBitsMSB (bitsMSB n v) = v % 2 ^ n
  | 0, v => by simp [bitsMSB, ofBitsMSB, Nat.mod_one]
  | n + 1, v => by
    simp only [bitsMSB, ofBitsMSB, bitsMSB_length, ofBitsMSB_bitsMSB n]
    rw [Nat.mod_pow_succ, Nat.testBit_eq_decide_div_mod_eq]
    rcases Nat.mod_two_eq_zero_or_one (v / 2 ^ n) with h | h <;> simp [h, Nat.add_comm]

theorem ofBitsMSB_lt : ∀ (bs : List Bool), ofBitsMSB bs < 2 ^ bs.length
  | [] => by simp [ofBitsMSB]
  | b :: bs => by
    have ih := ofBitsMSB_lt bs
    cases b <;> simp [ofBitsMSB, pow_succ] <;> omega

theorem bitsMSB_ofBitsMSB : ∀ (bs : List Bool), bitsMSB bs.length (ofBitsMSB bs) = bs
  | [] => rfl
  | b :: bs => by
    have hlt := ofBitsMSB_lt bs
    have hcongr : ∀ (n v w : Nat), v % 2 ^ n = w % 2 ^ n → bitsMSB n v = bitsMSB n w := by
      intro n
      induction n with
      | zero => intros; rfl
      | succ n ih =>
        intro v w h
        simp only [bitsMSB]
        have hb : v.testBit n = w.testBit n := by
          have := congrArg (fun x => x.testBit n) h
          simpa [Nat.testBit_mod_two_pow] using this
        have hm : v % 2 ^ n = w % 2 ^ n := by
          have := congrArg (· % 2 ^ n) h
          simpa [Nat.mod_mod_of_dvd _ (pow_dvd_pow 2 (Nat.le_succ n))] using this
        rw [hb, ih v w hm]
    have h1 : (b.toNat * 2 ^ bs.length + ofBitsMSB bs).testBit bs.length = b := by
      rw [Nat.testBit_eq_decide_div_mod_eq, Nat.add_comm, Nat.add_mul_div_right _ _ (by positivity),
        Nat.div_eq_of_lt hlt]
      cases b <;> simp
    simp only [List.length_cons, ofBitsMSB, bitsMSB, h1]
    rw [hcongr bs.length _ (ofBitsMSB bs) (by rw [Nat.add_comm, Nat.add_mul_mod_self_right]), bitsMSB_ofBitsMSB bs]

/-- The number of an MSB-first bit run as the sum of R181. -/
theorem ofBitsMSB_eq_sum (bit : Nat → Bool) :
    ∀ n k, ofBitsMSB ((List.range n).map fun j => bit (k + j)) =
      ∑ j ∈ Finset.range n, (bit (k + j)).toNat * 2 ^ (n - 1 - j)
  | 0, _ => by simp [ofBitsMSB]
  | n + 1, k => by
    have ih := ofBitsMSB_eq_sum bit n (k + 1)
    rw [List.range_succ_eq_map, List.map_cons, List.map_map, Finset.sum_range_succ']
    simp only [ofBitsMSB, List.length_map, List.length_range, Function.comp_def]
    have h1 : ((List.range n).map fun x => bit (k + x.succ)) = (List.range n).map fun j => bit (k + 1 + j) := by
      congr 1; funext j; congr 1; omega
    rw [h1, ih, Nat.add_comm]
    congr 1
    refine Finset.sum_congr rfl fun j hj => ?_
    rw [show k + 1 + j = k + (j + 1) by omega, show n + 1 - 1 - (j + 1) = n - 1 - j by omega]

/-! Components and symbols. -/

@[simp] theorem Symbol.bytes_length (z : Symbol) : z.bytes.length = 16 := by simp [Symbol.bytes]

@[simp] theorem flatMap_bytes_length (zs : List Symbol) : (zs.flatMap Symbol.bytes).length = 16 * zs.length := by
  induction zs with
  | nil => rfl
  | cons z zs ih => simp [ih]; omega

/-- The 16 bytes from offset 16 k of a run of symbols are those of symbol k. -/
theorem flatMap_bytes_drop :
    ∀ (zs : List Symbol) (k : Nat) (z : Symbol), zs[k]? = some z →
      (zs.flatMap Symbol.bytes).drop (16 * k) = z.bytes ++ (zs.drop (k + 1)).flatMap Symbol.bytes
  | [], k, z, h => by simp at h
  | w :: zs, 0, z, h => by
    simp at h; subst h; simp
  | w :: zs, k + 1, z, h => by
    have ih := flatMap_bytes_drop zs k z (by simpa using h)
    rw [List.flatMap_cons, show 16 * (k + 1) = w.bytes.length + 16 * k by simp; omega, List.drop_length_add_append]
    simpa using ih

theorem ofNat_ofBytesLE_bytesLE (v : F64) : BitVec.ofNat 64 (ofBytesLE (bytesLE 8 v.toNat)) = v := by
  apply BitVec.eq_of_toNat_eq
  rw [ofBytesLE_bytesLE, BitVec.toNat_ofNat]
  have := v.isLt
  rw [show (256 : Nat) ^ 8 = 2 ^ 64 by norm_num, Nat.mod_eq_of_lt this, Nat.mod_eq_of_lt this]

/-- Entry k after entries 0, 1, … were written: the new symbol where one was written, the old entry elsewhere. -/
theorem loadSymbol_storeSymbols (l : List Host.Cell) (zs : List Symbol) (k : Nat) :
    loadSymbol (storeSymbols l zs) k = if k < zs.length then zs[k]? else loadSymbol l k := by
  by_cases hk : k < zs.length
  · rw [if_pos hk]
    obtain ⟨z, hz⟩ : ∃ z, zs[k]? = some z := ⟨zs[k], by simp [hk]⟩
    have hd := flatMap_bytes_drop zs k z hz
    have h1 : Memory.load (storeSymbols l zs) (16 * k) 8 = some (bytesLE 8 z.i.toNat) := by
      have := Memory.load_store_part l 0 (16 * k) 8 (zs.flatMap Symbol.bytes) (by simp; omega)
      rw [Nat.zero_add] at this
      rw [storeSymbols, this, hd]
      simp [Symbol.bytes]
    have h2 : Memory.load (storeSymbols l zs) (16 * k + 8) 8 = some (bytesLE 8 z.q.toNat) := by
      have := Memory.load_store_part l 0 (16 * k + 8) 8 (zs.flatMap Symbol.bytes) (by simp; omega)
      rw [Nat.zero_add] at this
      rw [storeSymbols, this, ← List.drop_drop, hd]
      simp [Symbol.bytes]
    simp only [loadSymbol, loadF64, h1, h2, Option.map_some, ofNat_ofBytesLE_bytesLE, hz]
  · rw [if_neg hk]
    have h1 := Memory.load_store_disjoint l 0 (16 * k) 8 (zs.flatMap Symbol.bytes) (by simp; omega)
    have h2 := Memory.load_store_disjoint l 0 (16 * k + 8) 8 (zs.flatMap Symbol.bytes) (by simp; omega)
    simp only [loadSymbol, loadF64, storeSymbols, h1, h2]

/-- A byte past the written entries is untouched. -/
theorem get_storeSymbols_of_le (l : List Host.Cell) (zs : List Symbol) {a : Nat} (h : 16 * zs.length ≤ a) :
    Memory.get (storeSymbols l zs) a = Memory.get l a := by
  rw [storeSymbols, Memory.get_store, if_neg (by simp; omega)]

theorem storeSymbols_wf {l : List Host.Cell} (h : Memory.wf l) (zs : List Symbol) : Memory.wf (storeSymbols l zs) :=
  Memory.wf_store h 0 _

theorem storeSymbols_within {bound : Nat} {l : List Host.Cell} (h : Memory.within bound l) (zs : List Symbol)
    (hb : 16 * zs.length ≤ bound) : Memory.within bound (storeSymbols l zs) :=
  Memory.within_store h 0 _ (by simp only [flatMap_bytes_length]; omega)

/-- Two symbol buffers that read alike over an entry's bytes hold the same symbol there. -/
theorem loadSymbol_congr {l r : List Host.Cell} {k : Nat}
    (h : ∀ i, 16 * k ≤ i → i < 16 * k + 16 → Memory.get l i = Memory.get r i) : loadSymbol l k = loadSymbol r k := by
  have h1 : Memory.load l (16 * k) 8 = Memory.load r (16 * k) 8 :=
    Memory.load_congr fun i a b => h i (by omega) (by omega)
  have h2 : Memory.load l (16 * k + 8) 8 = Memory.load r (16 * k + 8) 8 :=
    Memory.load_congr fun i a b => h i (by omega) (by omega)
  simp only [loadSymbol, loadF64, h1, h2]

end Sys2Proof.Machine
end

