-- ==== Sys2Proof/Laws/State.lean ====
section
/-!
SUPPORT. What each update of the state leaves in each field: one lemma per field, true by definition, so that no later
proof unfolds a record update.
-/

namespace Sys2Proof.Machine

/-! Completion (R133). -/

@[simp] theorem finish_params (s : State) (e : Code) (j : Nat) : (finish s e j).params = s.params := rfl
@[simp] theorem finish_done (s : State) (e : Code) (j : Nat) : (finish s e j).done = true := rfl
@[simp] theorem finish_drop (s : State) (e : Code) (j : Nat) : (finish s e j).drop = s.drop := rfl
@[simp] theorem finish_err (s : State) (e : Code) (j : Nat) : (finish s e j).err = e := rfl
@[simp] theorem finish_irqEn (s : State) (e : Code) (j : Nat) : (finish s e j).irqEn = s.irqEn := rfl
@[simp] theorem finish_m (s : State) (e : Code) (j : Nat) : (finish s e j).m = s.m := rfl
@[simp] theorem finish_len (s : State) (e : Code) (j : Nat) : (finish s e j).len = s.len := rfl
@[simp] theorem finish_symcnt (s : State) (e : Code) (j : Nat) : (finish s e j).symcnt = s.symcnt := rfl
@[simp] theorem finish_outlen (s : State) (e : Code) (j : Nat) : (finish s e j).outlen = s.outlen := rfl
@[simp] theorem finish_varLo (s : State) (e : Code) (j : Nat) : (finish s e j).varLo = s.varLo := rfl
@[simp] theorem finish_varHi (s : State) (e : Code) (j : Nat) : (finish s e j).varHi = s.varHi := rfl
@[simp] theorem finish_seedLo (s : State) (e : Code) (j : Nat) : (finish s e j).seedLo = s.seedLo := rfl
@[simp] theorem finish_seedHi (s : State) (e : Code) (j : Nat) : (finish s e j).seedHi = s.seedHi := rfl
@[simp] theorem finish_errIdx (s : State) (e : Code) (j : Nat) : (finish s e j).errIdx = if e = .nonFiniteSymbol then BitVec.ofNat 32 j else 0#32 := rfl
@[simp] theorem finish_bitin (s : State) (e : Code) (j : Nat) : (finish s e j).bitin = s.bitin := rfl
@[simp] theorem finish_bitout (s : State) (e : Code) (j : Nat) : (finish s e j).bitout = s.bitout := rfl
@[simp] theorem finish_clean (s : State) (e : Code) (j : Nat) : (finish s e j).clean = s.clean := rfl
@[simp] theorem finish_noisy (s : State) (e : Code) (j : Nat) : (finish s e j).noisy = s.noisy := rfl
@[simp] theorem finish_engine (s : State) (e : Code) (j : Nat) : (finish s e j).engine = none := rfl
@[simp] theorem finish_rng (s : State) (e : Code) (j : Nat) : (finish s e j).rng = s.rng := rfl
@[simp] theorem finish_env (s : State) (e : Code) (j : Nat) : (finish s e j).env = s.env := rfl

/-! Acceptance (R130). -/

@[simp] theorem accept_params (s : State) (c : Word) : (accept s c).params = s.params := rfl
@[simp] theorem accept_done (s : State) (c : Word) : (accept s c).done = false := rfl
@[simp] theorem accept_drop (s : State) (c : Word) : (accept s c).drop = s.drop := rfl
@[simp] theorem accept_err (s : State) (c : Word) : (accept s c).err = .ok := rfl
@[simp] theorem accept_irqEn (s : State) (c : Word) : (accept s c).irqEn = s.irqEn := rfl
@[simp] theorem accept_m (s : State) (c : Word) : (accept s c).m = s.m := rfl
@[simp] theorem accept_len (s : State) (c : Word) : (accept s c).len = s.len := rfl
@[simp] theorem accept_symcnt (s : State) (c : Word) : (accept s c).symcnt = s.symcnt := rfl
@[simp] theorem accept_outlen (s : State) (c : Word) : (accept s c).outlen = s.outlen := rfl
@[simp] theorem accept_varLo (s : State) (c : Word) : (accept s c).varLo = s.varLo := rfl
@[simp] theorem accept_varHi (s : State) (c : Word) : (accept s c).varHi = s.varHi := rfl
@[simp] theorem accept_seedLo (s : State) (c : Word) : (accept s c).seedLo = s.seedLo := rfl
@[simp] theorem accept_seedHi (s : State) (c : Word) : (accept s c).seedHi = s.seedHi := rfl
@[simp] theorem accept_errIdx (s : State) (c : Word) : (accept s c).errIdx = s.errIdx := rfl
@[simp] theorem accept_bitin (s : State) (c : Word) : (accept s c).bitin = s.bitin := rfl
@[simp] theorem accept_bitout (s : State) (c : Word) : (accept s c).bitout = s.bitout := rfl
@[simp] theorem accept_clean (s : State) (c : Word) : (accept s c).clean = s.clean := rfl
@[simp] theorem accept_noisy (s : State) (c : Word) : (accept s c).noisy = s.noisy := rfl
@[simp] theorem accept_engine (s : State) (c : Word) : (accept s c).engine = some (latch s c) := rfl
@[simp] theorem accept_rng (s : State) (c : Word) : (accept s c).rng = s.rng := rfl
@[simp] theorem accept_env (s : State) (c : Word) : (accept s c).env = s.env := rfl

/-! Acknowledgement of a completion (R269). -/

@[simp] theorem acknowledge_params (s : State) : (acknowledge s).params = s.params := rfl
@[simp] theorem acknowledge_done (s : State) : (acknowledge s).done = false := rfl
@[simp] theorem acknowledge_drop (s : State) : (acknowledge s).drop = s.drop := rfl
@[simp] theorem acknowledge_err (s : State) : (acknowledge s).err = s.err := rfl
@[simp] theorem acknowledge_irqEn (s : State) : (acknowledge s).irqEn = s.irqEn := rfl
@[simp] theorem acknowledge_m (s : State) : (acknowledge s).m = s.m := rfl
@[simp] theorem acknowledge_len (s : State) : (acknowledge s).len = s.len := rfl
@[simp] theorem acknowledge_symcnt (s : State) : (acknowledge s).symcnt = s.symcnt := rfl
@[simp] theorem acknowledge_outlen (s : State) : (acknowledge s).outlen = s.outlen := rfl
@[simp] theorem acknowledge_varLo (s : State) : (acknowledge s).varLo = s.varLo := rfl
@[simp] theorem acknowledge_varHi (s : State) : (acknowledge s).varHi = s.varHi := rfl
@[simp] theorem acknowledge_seedLo (s : State) : (acknowledge s).seedLo = s.seedLo := rfl
@[simp] theorem acknowledge_seedHi (s : State) : (acknowledge s).seedHi = s.seedHi := rfl
@[simp] theorem acknowledge_errIdx (s : State) : (acknowledge s).errIdx = s.errIdx := rfl
@[simp] theorem acknowledge_bitin (s : State) : (acknowledge s).bitin = s.bitin := rfl
@[simp] theorem acknowledge_bitout (s : State) : (acknowledge s).bitout = s.bitout := rfl
@[simp] theorem acknowledge_clean (s : State) : (acknowledge s).clean = s.clean := rfl
@[simp] theorem acknowledge_noisy (s : State) : (acknowledge s).noisy = s.noisy := rfl
@[simp] theorem acknowledge_engine (s : State) : (acknowledge s).engine = s.engine := rfl
@[simp] theorem acknowledge_rng (s : State) : (acknowledge s).rng = s.rng := rfl
@[simp] theorem acknowledge_env (s : State) : (acknowledge s).env = s.env := rfl

/-! The answer of a bus read. -/

@[simp] theorem returned_params (s : State) (w : Word) : (returned s w).params = s.params := rfl
@[simp] theorem returned_done (s : State) (w : Word) : (returned s w).done = s.done := rfl
@[simp] theorem returned_drop (s : State) (w : Word) : (returned s w).drop = s.drop := rfl
@[simp] theorem returned_err (s : State) (w : Word) : (returned s w).err = s.err := rfl
@[simp] theorem returned_irqEn (s : State) (w : Word) : (returned s w).irqEn = s.irqEn := rfl
@[simp] theorem returned_m (s : State) (w : Word) : (returned s w).m = s.m := rfl
@[simp] theorem returned_len (s : State) (w : Word) : (returned s w).len = s.len := rfl
@[simp] theorem returned_symcnt (s : State) (w : Word) : (returned s w).symcnt = s.symcnt := rfl
@[simp] theorem returned_outlen (s : State) (w : Word) : (returned s w).outlen = s.outlen := rfl
@[simp] theorem returned_varLo (s : State) (w : Word) : (returned s w).varLo = s.varLo := rfl
@[simp] theorem returned_varHi (s : State) (w : Word) : (returned s w).varHi = s.varHi := rfl
@[simp] theorem returned_seedLo (s : State) (w : Word) : (returned s w).seedLo = s.seedLo := rfl
@[simp] theorem returned_seedHi (s : State) (w : Word) : (returned s w).seedHi = s.seedHi := rfl
@[simp] theorem returned_errIdx (s : State) (w : Word) : (returned s w).errIdx = s.errIdx := rfl
@[simp] theorem returned_bitin (s : State) (w : Word) : (returned s w).bitin = s.bitin := rfl
@[simp] theorem returned_bitout (s : State) (w : Word) : (returned s w).bitout = s.bitout := rfl
@[simp] theorem returned_clean (s : State) (w : Word) : (returned s w).clean = s.clean := rfl
@[simp] theorem returned_noisy (s : State) (w : Word) : (returned s w).noisy = s.noisy := rfl
@[simp] theorem returned_engine (s : State) (w : Word) : (returned s w).engine = s.engine := rfl
@[simp] theorem returned_rng (s : State) (w : Word) : (returned s w).rng = s.rng := rfl
@[simp] theorem returned_env (s : State) (w : Word) : (returned s w).env = { s.env with readData := some w } := rfl

/-! The host's remaining script. -/

@[simp] theorem withScript_params (s : State) (ops : List HostOp) : (withScript s ops).params = s.params := rfl
@[simp] theorem withScript_done (s : State) (ops : List HostOp) : (withScript s ops).done = s.done := rfl
@[simp] theorem withScript_drop (s : State) (ops : List HostOp) : (withScript s ops).drop = s.drop := rfl
@[simp] theorem withScript_err (s : State) (ops : List HostOp) : (withScript s ops).err = s.err := rfl
@[simp] theorem withScript_irqEn (s : State) (ops : List HostOp) : (withScript s ops).irqEn = s.irqEn := rfl
@[simp] theorem withScript_m (s : State) (ops : List HostOp) : (withScript s ops).m = s.m := rfl
@[simp] theorem withScript_len (s : State) (ops : List HostOp) : (withScript s ops).len = s.len := rfl
@[simp] theorem withScript_symcnt (s : State) (ops : List HostOp) : (withScript s ops).symcnt = s.symcnt := rfl
@[simp] theorem withScript_outlen (s : State) (ops : List HostOp) : (withScript s ops).outlen = s.outlen := rfl
@[simp] theorem withScript_varLo (s : State) (ops : List HostOp) : (withScript s ops).varLo = s.varLo := rfl
@[simp] theorem withScript_varHi (s : State) (ops : List HostOp) : (withScript s ops).varHi = s.varHi := rfl
@[simp] theorem withScript_seedLo (s : State) (ops : List HostOp) : (withScript s ops).seedLo = s.seedLo := rfl
@[simp] theorem withScript_seedHi (s : State) (ops : List HostOp) : (withScript s ops).seedHi = s.seedHi := rfl
@[simp] theorem withScript_errIdx (s : State) (ops : List HostOp) : (withScript s ops).errIdx = s.errIdx := rfl
@[simp] theorem withScript_bitin (s : State) (ops : List HostOp) : (withScript s ops).bitin = s.bitin := rfl
@[simp] theorem withScript_bitout (s : State) (ops : List HostOp) : (withScript s ops).bitout = s.bitout := rfl
@[simp] theorem withScript_clean (s : State) (ops : List HostOp) : (withScript s ops).clean = s.clean := rfl
@[simp] theorem withScript_noisy (s : State) (ops : List HostOp) : (withScript s ops).noisy = s.noisy := rfl
@[simp] theorem withScript_engine (s : State) (ops : List HostOp) : (withScript s ops).engine = s.engine := rfl
@[simp] theorem withScript_rng (s : State) (ops : List HostOp) : (withScript s ops).rng = s.rng := rfl
@[simp] theorem withScript_env (s : State) (ops : List HostOp) : (withScript s ops).env = { s.env with script := ops } := rfl

/-! A turn taken off the list. -/

@[simp] theorem popTurn_params (s : State) : (popTurn s).params = s.params := rfl
@[simp] theorem popTurn_done (s : State) : (popTurn s).done = s.done := rfl
@[simp] theorem popTurn_drop (s : State) : (popTurn s).drop = s.drop := rfl
@[simp] theorem popTurn_err (s : State) : (popTurn s).err = s.err := rfl
@[simp] theorem popTurn_irqEn (s : State) : (popTurn s).irqEn = s.irqEn := rfl
@[simp] theorem popTurn_m (s : State) : (popTurn s).m = s.m := rfl
@[simp] theorem popTurn_len (s : State) : (popTurn s).len = s.len := rfl
@[simp] theorem popTurn_symcnt (s : State) : (popTurn s).symcnt = s.symcnt := rfl
@[simp] theorem popTurn_outlen (s : State) : (popTurn s).outlen = s.outlen := rfl
@[simp] theorem popTurn_varLo (s : State) : (popTurn s).varLo = s.varLo := rfl
@[simp] theorem popTurn_varHi (s : State) : (popTurn s).varHi = s.varHi := rfl
@[simp] theorem popTurn_seedLo (s : State) : (popTurn s).seedLo = s.seedLo := rfl
@[simp] theorem popTurn_seedHi (s : State) : (popTurn s).seedHi = s.seedHi := rfl
@[simp] theorem popTurn_errIdx (s : State) : (popTurn s).errIdx = s.errIdx := rfl
@[simp] theorem popTurn_bitin (s : State) : (popTurn s).bitin = s.bitin := rfl
@[simp] theorem popTurn_bitout (s : State) : (popTurn s).bitout = s.bitout := rfl
@[simp] theorem popTurn_clean (s : State) : (popTurn s).clean = s.clean := rfl
@[simp] theorem popTurn_noisy (s : State) : (popTurn s).noisy = s.noisy := rfl
@[simp] theorem popTurn_engine (s : State) : (popTurn s).engine = s.engine := rfl
@[simp] theorem popTurn_rng (s : State) : (popTurn s).rng = s.rng := rfl
@[simp] theorem popTurn_env (s : State) : (popTurn s).env = { s.env with turns := s.env.turns.tail } := rfl

/-! Release of reset (R290). -/

@[simp] theorem releaseReset_params (s : State) : (releaseReset s).params = s.params := rfl
@[simp] theorem releaseReset_done (s : State) : (releaseReset s).done = s.done := rfl
@[simp] theorem releaseReset_drop (s : State) : (releaseReset s).drop = s.drop := rfl
@[simp] theorem releaseReset_err (s : State) : (releaseReset s).err = s.err := rfl
@[simp] theorem releaseReset_irqEn (s : State) : (releaseReset s).irqEn = s.irqEn := rfl
@[simp] theorem releaseReset_m (s : State) : (releaseReset s).m = s.m := rfl
@[simp] theorem releaseReset_len (s : State) : (releaseReset s).len = s.len := rfl
@[simp] theorem releaseReset_symcnt (s : State) : (releaseReset s).symcnt = s.symcnt := rfl
@[simp] theorem releaseReset_outlen (s : State) : (releaseReset s).outlen = s.outlen := rfl
@[simp] theorem releaseReset_varLo (s : State) : (releaseReset s).varLo = s.varLo := rfl
@[simp] theorem releaseReset_varHi (s : State) : (releaseReset s).varHi = s.varHi := rfl
@[simp] theorem releaseReset_seedLo (s : State) : (releaseReset s).seedLo = s.seedLo := rfl
@[simp] theorem releaseReset_seedHi (s : State) : (releaseReset s).seedHi = s.seedHi := rfl
@[simp] theorem releaseReset_errIdx (s : State) : (releaseReset s).errIdx = s.errIdx := rfl
@[simp] theorem releaseReset_bitin (s : State) : (releaseReset s).bitin = s.bitin := rfl
@[simp] theorem releaseReset_bitout (s : State) : (releaseReset s).bitout = s.bitout := rfl
@[simp] theorem releaseReset_clean (s : State) : (releaseReset s).clean = s.clean := rfl
@[simp] theorem releaseReset_noisy (s : State) : (releaseReset s).noisy = s.noisy := rfl
@[simp] theorem releaseReset_engine (s : State) : (releaseReset s).engine = s.engine := rfl
@[simp] theorem releaseReset_rng (s : State) : (releaseReset s).rng = s.rng := rfl
@[simp] theorem releaseReset_env (s : State) : (releaseReset s).env = { s.env with resetHeld := false } := rfl

/-! The writes of MOD (R180). -/

@[simp] theorem modulated_params (s : State) (n : Nat) (zs : List Symbol) : (modulated s n zs).params = s.params := rfl
@[simp] theorem modulated_done (s : State) (n : Nat) (zs : List Symbol) : (modulated s n zs).done = s.done := rfl
@[simp] theorem modulated_drop (s : State) (n : Nat) (zs : List Symbol) : (modulated s n zs).drop = s.drop := rfl
@[simp] theorem modulated_err (s : State) (n : Nat) (zs : List Symbol) : (modulated s n zs).err = s.err := rfl
@[simp] theorem modulated_irqEn (s : State) (n : Nat) (zs : List Symbol) : (modulated s n zs).irqEn = s.irqEn := rfl
@[simp] theorem modulated_m (s : State) (n : Nat) (zs : List Symbol) : (modulated s n zs).m = s.m := rfl
@[simp] theorem modulated_len (s : State) (n : Nat) (zs : List Symbol) : (modulated s n zs).len = s.len := rfl
@[simp] theorem modulated_symcnt (s : State) (n : Nat) (zs : List Symbol) : (modulated s n zs).symcnt = BitVec.ofNat 32 n := rfl
@[simp] theorem modulated_outlen (s : State) (n : Nat) (zs : List Symbol) : (modulated s n zs).outlen = s.outlen := rfl
@[simp] theorem modulated_varLo (s : State) (n : Nat) (zs : List Symbol) : (modulated s n zs).varLo = s.varLo := rfl
@[simp] theorem modulated_varHi (s : State) (n : Nat) (zs : List Symbol) : (modulated s n zs).varHi = s.varHi := rfl
@[simp] theorem modulated_seedLo (s : State) (n : Nat) (zs : List Symbol) : (modulated s n zs).seedLo = s.seedLo := rfl
@[simp] theorem modulated_seedHi (s : State) (n : Nat) (zs : List Symbol) : (modulated s n zs).seedHi = s.seedHi := rfl
@[simp] theorem modulated_errIdx (s : State) (n : Nat) (zs : List Symbol) : (modulated s n zs).errIdx = s.errIdx := rfl
@[simp] theorem modulated_bitin (s : State) (n : Nat) (zs : List Symbol) : (modulated s n zs).bitin = s.bitin := rfl
@[simp] theorem modulated_bitout (s : State) (n : Nat) (zs : List Symbol) : (modulated s n zs).bitout = s.bitout := rfl
@[simp] theorem modulated_clean (s : State) (n : Nat) (zs : List Symbol) : (modulated s n zs).clean = storeSymbols s.clean zs := rfl
@[simp] theorem modulated_noisy (s : State) (n : Nat) (zs : List Symbol) : (modulated s n zs).noisy = s.noisy := rfl
@[simp] theorem modulated_engine (s : State) (n : Nat) (zs : List Symbol) : (modulated s n zs).engine = s.engine := rfl
@[simp] theorem modulated_rng (s : State) (n : Nat) (zs : List Symbol) : (modulated s n zs).rng = s.rng := rfl
@[simp] theorem modulated_env (s : State) (n : Nat) (zs : List Symbol) : (modulated s n zs).env = s.env := rfl

/-! The writes of AWGN (R203). -/

@[simp] theorem noised_params (s : State) (n : Nat) (zs : List Symbol) : (noised s n zs).params = s.params := rfl
@[simp] theorem noised_done (s : State) (n : Nat) (zs : List Symbol) : (noised s n zs).done = s.done := rfl
@[simp] theorem noised_drop (s : State) (n : Nat) (zs : List Symbol) : (noised s n zs).drop = s.drop := rfl
@[simp] theorem noised_err (s : State) (n : Nat) (zs : List Symbol) : (noised s n zs).err = s.err := rfl
@[simp] theorem noised_irqEn (s : State) (n : Nat) (zs : List Symbol) : (noised s n zs).irqEn = s.irqEn := rfl
@[simp] theorem noised_m (s : State) (n : Nat) (zs : List Symbol) : (noised s n zs).m = s.m := rfl
@[simp] theorem noised_len (s : State) (n : Nat) (zs : List Symbol) : (noised s n zs).len = s.len := rfl
@[simp] theorem noised_symcnt (s : State) (n : Nat) (zs : List Symbol) : (noised s n zs).symcnt = s.symcnt := rfl
@[simp] theorem noised_outlen (s : State) (n : Nat) (zs : List Symbol) : (noised s n zs).outlen = s.outlen := rfl
@[simp] theorem noised_varLo (s : State) (n : Nat) (zs : List Symbol) : (noised s n zs).varLo = s.varLo := rfl
@[simp] theorem noised_varHi (s : State) (n : Nat) (zs : List Symbol) : (noised s n zs).varHi = s.varHi := rfl
@[simp] theorem noised_seedLo (s : State) (n : Nat) (zs : List Symbol) : (noised s n zs).seedLo = s.seedLo := rfl
@[simp] theorem noised_seedHi (s : State) (n : Nat) (zs : List Symbol) : (noised s n zs).seedHi = s.seedHi := rfl
@[simp] theorem noised_errIdx (s : State) (n : Nat) (zs : List Symbol) : (noised s n zs).errIdx = s.errIdx := rfl
@[simp] theorem noised_bitin (s : State) (n : Nat) (zs : List Symbol) : (noised s n zs).bitin = s.bitin := rfl
@[simp] theorem noised_bitout (s : State) (n : Nat) (zs : List Symbol) : (noised s n zs).bitout = s.bitout := rfl
@[simp] theorem noised_clean (s : State) (n : Nat) (zs : List Symbol) : (noised s n zs).clean = s.clean := rfl
@[simp] theorem noised_noisy (s : State) (n : Nat) (zs : List Symbol) : (noised s n zs).noisy = storeSymbols s.noisy zs := rfl
@[simp] theorem noised_engine (s : State) (n : Nat) (zs : List Symbol) : (noised s n zs).engine = s.engine := rfl
@[simp] theorem noised_rng (s : State) (n : Nat) (zs : List Symbol) : (noised s n zs).rng = genAfter s.rng (2 * n) := rfl
@[simp] theorem noised_env (s : State) (n : Nat) (zs : List Symbol) : (noised s n zs).env = s.env := rfl

/-! The writes of DEMOD (R233). -/

@[simp] theorem demodulated_params (s : State) (o : Order) (n : Nat) (zs : List Symbol) : (demodulated s o n zs).params = s.params := rfl
@[simp] theorem demodulated_done (s : State) (o : Order) (n : Nat) (zs : List Symbol) : (demodulated s o n zs).done = s.done := rfl
@[simp] theorem demodulated_drop (s : State) (o : Order) (n : Nat) (zs : List Symbol) : (demodulated s o n zs).drop = s.drop := rfl
@[simp] theorem demodulated_err (s : State) (o : Order) (n : Nat) (zs : List Symbol) : (demodulated s o n zs).err = s.err := rfl
@[simp] theorem demodulated_irqEn (s : State) (o : Order) (n : Nat) (zs : List Symbol) : (demodulated s o n zs).irqEn = s.irqEn := rfl
@[simp] theorem demodulated_m (s : State) (o : Order) (n : Nat) (zs : List Symbol) : (demodulated s o n zs).m = s.m := rfl
@[simp] theorem demodulated_len (s : State) (o : Order) (n : Nat) (zs : List Symbol) : (demodulated s o n zs).len = s.len := rfl
@[simp] theorem demodulated_symcnt (s : State) (o : Order) (n : Nat) (zs : List Symbol) : (demodulated s o n zs).symcnt = s.symcnt := rfl
@[simp] theorem demodulated_outlen (s : State) (o : Order) (n : Nat) (zs : List Symbol) : (demodulated s o n zs).outlen = BitVec.ofNat 32 (n * o.bps) := rfl
@[simp] theorem demodulated_varLo (s : State) (o : Order) (n : Nat) (zs : List Symbol) : (demodulated s o n zs).varLo = s.varLo := rfl
@[simp] theorem demodulated_varHi (s : State) (o : Order) (n : Nat) (zs : List Symbol) : (demodulated s o n zs).varHi = s.varHi := rfl
@[simp] theorem demodulated_seedLo (s : State) (o : Order) (n : Nat) (zs : List Symbol) : (demodulated s o n zs).seedLo = s.seedLo := rfl
@[simp] theorem demodulated_seedHi (s : State) (o : Order) (n : Nat) (zs : List Symbol) : (demodulated s o n zs).seedHi = s.seedHi := rfl
@[simp] theorem demodulated_errIdx (s : State) (o : Order) (n : Nat) (zs : List Symbol) : (demodulated s o n zs).errIdx = s.errIdx := rfl
@[simp] theorem demodulated_bitin (s : State) (o : Order) (n : Nat) (zs : List Symbol) : (demodulated s o n zs).bitin = s.bitin := rfl
@[simp] theorem demodulated_bitout (s : State) (o : Order) (n : Nat) (zs : List Symbol) : (demodulated s o n zs).bitout = Memory.store s.bitout 0 (demodulate o zs) := rfl
@[simp] theorem demodulated_clean (s : State) (o : Order) (n : Nat) (zs : List Symbol) : (demodulated s o n zs).clean = s.clean := rfl
@[simp] theorem demodulated_noisy (s : State) (o : Order) (n : Nat) (zs : List Symbol) : (demodulated s o n zs).noisy = s.noisy := rfl
@[simp] theorem demodulated_engine (s : State) (o : Order) (n : Nat) (zs : List Symbol) : (demodulated s o n zs).engine = s.engine := rfl
@[simp] theorem demodulated_rng (s : State) (o : Order) (n : Nat) (zs : List Symbol) : (demodulated s o n zs).rng = s.rng := rfl
@[simp] theorem demodulated_env (s : State) (o : Order) (n : Nat) (zs : List Symbol) : (demodulated s o n zs).env = s.env := rfl

/-! Assertion of reset (R290, R54). -/

@[simp] theorem assertReset_params (s : State) : (assertReset s).params = s.params := rfl
@[simp] theorem assertReset_done (s : State) : (assertReset s).done = false := rfl
@[simp] theorem assertReset_drop (s : State) : (assertReset s).drop = false := rfl
@[simp] theorem assertReset_err (s : State) : (assertReset s).err = .ok := rfl
@[simp] theorem assertReset_irqEn (s : State) : (assertReset s).irqEn = false := rfl
@[simp] theorem assertReset_m (s : State) : (assertReset s).m = 0#32 := rfl
@[simp] theorem assertReset_len (s : State) : (assertReset s).len = 0#32 := rfl
@[simp] theorem assertReset_symcnt (s : State) : (assertReset s).symcnt = 0#32 := rfl
@[simp] theorem assertReset_outlen (s : State) : (assertReset s).outlen = 0#32 := rfl
@[simp] theorem assertReset_varLo (s : State) : (assertReset s).varLo = 0#32 := rfl
@[simp] theorem assertReset_varHi (s : State) : (assertReset s).varHi = 0#32 := rfl
@[simp] theorem assertReset_seedLo (s : State) : (assertReset s).seedLo = 0#32 := rfl
@[simp] theorem assertReset_seedHi (s : State) : (assertReset s).seedHi = 0#32 := rfl
@[simp] theorem assertReset_errIdx (s : State) : (assertReset s).errIdx = 0#32 := rfl
@[simp] theorem assertReset_bitin (s : State) : (assertReset s).bitin = [] := rfl
@[simp] theorem assertReset_bitout (s : State) : (assertReset s).bitout = [] := rfl
@[simp] theorem assertReset_clean (s : State) : (assertReset s).clean = [] := rfl
@[simp] theorem assertReset_noisy (s : State) : (assertReset s).noisy = [] := rfl
@[simp] theorem assertReset_engine (s : State) : (assertReset s).engine = none := rfl
@[simp] theorem assertReset_rng (s : State) : (assertReset s).rng = Config.resetGen (s.env.resets + 1) := rfl
@[simp] theorem assertReset_env (s : State) : (assertReset s).env = { s.env with resetHeld := true, resets := s.env.resets + 1 } := rfl

end Sys2Proof.Machine
end

