-- ==== Sys2Proof/Laws/Exec.lean ====
section
/-!
SUPPORT. What a command, a host move and a step can do: one inversion lemma each, which later proofs cite instead of
unfolding the machine.
-/

namespace Sys2Proof.Machine

/-! The shared operations of commands. -/

theorem withCommand_of_busy {s : State} {L : Latch} (h : s.engine = some L) (f : Latch → Result) :
    withCommand s f = f L := by
  simp only [withCommand, h]

theorem withCommand_next {s t : State} {f : Latch → Result} (h : withCommand s f = .next t) :
    ∃ L, s.engine = some L ∧ f L = .next t := by
  unfold withCommand at h
  split at h
  · cases h
  · exact ⟨_, ‹_›, h⟩

theorem withOrder_of_supported {s : State} {m : Word} {o : Order} (h : modOrder m = some o) (f : Order → Result) :
    withOrder s m f = f o := by
  simp only [withOrder, h]

theorem withOrder_of_unsupported {s : State} {m : Word} (h : modOrder m = none) (f : Order → Result) :
    withOrder s m f = raise s .invalidConfiguration 0 := by
  simp only [withOrder, h]

theorem withOrder_next {s t : State} {m : Word} {f : Order → Result} (h : withOrder s m f = .next t) :
    (modOrder m = none ∧ t = finish s .invalidConfiguration 0) ∨ ∃ o, modOrder m = some o ∧ f o = .next t := by
  unfold withOrder at h
  split at h
  · cases h; exact Or.inl ⟨‹_›, rfl⟩
  · exact Or.inr ⟨_, ‹_›, h⟩

/-- The three supported values and their orders (R2). -/
theorem modOrder_eq_some_iff (m : Word) (o : Order) : modOrder m = some o ↔ m = BitVec.ofNat 32 o.size := by
  unfold modOrder
  constructor
  · intro h
    split at h
    · cases h; assumption
    · split at h
      · cases h; assumption
      · split at h
        · cases h; assumption
        · cases h
  · rintro rfl; cases o <;> rfl

theorem modOrder_eq_none_iff (m : Word) : modOrder m = none ↔ m ≠ 4#32 ∧ m ≠ 16#32 ∧ m ≠ 64#32 := by
  unfold modOrder
  constructor
  · intro h
    split at h
    · cases h
    · split at h
      · cases h
      · split at h
        · cases h
        · exact ⟨‹_›, ‹_›, ‹_›⟩
  · rintro ⟨h1, h2, h3⟩; simp [h1, h2, h3]

theorem Order.bps_pos (o : Order) : 0 < o.bps := by cases o <;> decide

theorem Order.size_eq (o : Order) : o.size = o.side * o.side := by cases o <;> rfl

theorem Order.side_pos (o : Order) : 0 < o.side := by cases o <;> decide

theorem Order.size_le (o : Order) : o.size ≤ 64 := by cases o <;> decide

/-! Commands. -/

/-- The writes a command makes beside the four completion fields, when it completes OK (R135, R162, R180, R203, R205,
R233): from the state s with the latched set L to the state w. -/
def BodyWrites (i : Instr) (L : Latch) (s w : State) : Prop :=
  match i with
  | .nop => w = s
  | .const => ∃ o, modOrder L.m = some o ∧
      w = { s with clean := storeSymbols s.clean (constellation o), symcnt := BitVec.ofNat 32 o.size }
  | .mod => ∃ o zs, modOrder L.m = some o ∧ L.len.toNat % o.bps = 0 ∧ L.len.toNat ≤ s.params.bitCap ∧
      L.len.toNat / o.bps ≤ s.params.symCap ∧ modulate o s.bitin (L.len.toNat / o.bps) = some zs ∧
      w = modulated s (L.len.toNat / o.bps) zs
  | .awgn => ∃ zs, validVar L.var = true ∧ L.symcnt.toNat ≤ s.params.symCap ∧
      collect (loadSymbol s.clean) 0 L.symcnt.toNat = some zs ∧
      w = noised s L.symcnt.toNat (noisySymbols s.rng (sigmaOf L.var) 0 zs)
  | .demod src => ∃ o zs, modOrder L.m = some o ∧ L.symcnt.toNat ≤ s.params.symCap ∧
      L.symcnt.toNat * o.bps ≤ s.params.bitCap ∧ scan (sourceBuffer s src) 0 L.symcnt.toNat = .clear zs ∧
      w = demodulated s o L.symcnt.toNat zs
  | .seed => w = { s with rng := Config.seedInit L.seed }

/-- The scan's NaN index lies in the scanned run. -/
theorem scan_nan_lt {l : List Host.Cell} : ∀ {n k j : Nat}, scan l k n = .nan j → k ≤ j ∧ j < k + n
  | 0, k, j, h => by simp [scan] at h
  | n + 1, k, j, h => by
    simp only [scan] at h
    split at h
    · cases h
    · split at h
      · cases h; omega
      · split at h
        · cases h
        · cases h; have := scan_nan_lt (by assumption : scan l (k + 1) n = .nan j); omega
        · cases h

/-- What a command can do when it goes on: it completes OK with its writes, or with an error and no writes; an index is
recorded for NonFiniteSymbol alone and names a scanned entry. -/
theorem exec_next {i : Instr} {s t : State} (h : exec i s = .next t) :
    ∃ L, s.engine = some L ∧
      ((∃ w, BodyWrites i L s w ∧ t = finish w .ok 0) ∨
        ∃ e j, e ≠ .ok ∧ t = finish s e j ∧
          (e = .nonFiniteSymbol → j < L.symcnt.toNat ∧ L.symcnt.toNat ≤ s.params.symCap)) := by
  cases i with
  | nop =>
    obtain ⟨L, hL, h⟩ := withCommand_next h
    cases h
    exact ⟨L, hL, Or.inl ⟨s, rfl, rfl⟩⟩
  | const =>
    obtain ⟨L, hL, h⟩ := withCommand_next h
    refine ⟨L, hL, ?_⟩
    rcases withOrder_next h with ⟨-, rfl⟩ | ⟨o, ho, h⟩
    · exact Or.inr ⟨_, _, by decide, rfl, nofun⟩
    · cases h; exact Or.inl ⟨_, ⟨o, ho, rfl⟩, rfl⟩
  | mod =>
    obtain ⟨L, hL, h⟩ := withCommand_next h
    refine ⟨L, hL, ?_⟩
    rcases withOrder_next h with ⟨-, rfl⟩ | ⟨o, ho, h⟩
    · exact Or.inr ⟨_, _, by decide, rfl, nofun⟩
    · split at h
      · cases h; exact Or.inr ⟨_, _, by decide, rfl, nofun⟩
      · split at h
        · cases h; exact Or.inr ⟨_, _, by decide, rfl, nofun⟩
        · split at h
          · cases h
          · cases h
            exact Or.inl ⟨_, ⟨o, _, ho, by omega, by omega, by omega, by assumption, rfl⟩, rfl⟩
  | awgn =>
    obtain ⟨L, hL, h⟩ := withCommand_next h
    refine ⟨L, hL, ?_⟩
    split at h
    · cases h; exact Or.inr ⟨_, _, by decide, rfl, nofun⟩
    · split at h
      · cases h; exact Or.inr ⟨_, _, by decide, rfl, nofun⟩
      · split at h
        · cases h
        · rename_i hv _ _ _ _
          cases h
          exact Or.inl ⟨_, ⟨_, by simpa using hv, by omega, by assumption, rfl⟩, rfl⟩
  | demod src =>
    obtain ⟨L, hL, h⟩ := withCommand_next h
    refine ⟨L, hL, ?_⟩
    rcases withOrder_next h with ⟨-, rfl⟩ | ⟨o, ho, h⟩
    · exact Or.inr ⟨_, _, by decide, rfl, nofun⟩
    · split at h
      · cases h; exact Or.inr ⟨_, _, by decide, rfl, nofun⟩
      · split at h
        · cases h
        · cases h
          have := scan_nan_lt (by assumption : scan (sourceBuffer s src) 0 L.symcnt.toNat = .nan _)
          exact Or.inr ⟨_, _, by decide, rfl, fun _ => ⟨by omega, by omega⟩⟩
        · cases h
          exact Or.inl ⟨_, ⟨o, _, ho, by omega, by omega, by assumption, rfl⟩, rfl⟩
  | seed =>
    obtain ⟨L, hL, h⟩ := withCommand_next h
    cases h
    exact ⟨L, hL, Or.inl ⟨_, rfl, rfl⟩⟩

/-- What the engine can do when it goes on with a command in flight (R134). -/
theorem engineStep_next {s t : State} {L : Latch} (hL : s.engine = some L) (h : engineStep s = .next t) :
    (∃ i, decode L.cmd = .ok i ∧ exec i s = .next t) ∨
      ((∃ e, decode L.cmd = .error e) ∧ t = finish s .illegalCommand 0) := by
  simp only [engineStep, hL] at h
  split at h
  · exact Or.inl ⟨_, by assumption, h⟩
  · right
    refine ⟨⟨_, by assumption⟩, ?_⟩
    rw [execIllegal, withCommand_of_busy hL] at h
    cases h; rfl

/-! The host. -/

/-- What a host access can do when it goes on. -/
theorem performAccess_next {s t : State} {a : Access} (h : performAccess s a = .next t) :
    illegalShape a = none ∧
      ((∃ r, locate s.params a.addr.toNat = some (.reg r) ∧
          ((a.write = none ∧ t = returned s (readReg s r)) ∨ ∃ w, a.write = some w ∧ t = writeReg s r w)) ∨
        ∃ b off, locate s.params a.addr.toNat = some (.window b off) ∧ s.engine = none ∧
          ((a.write = none ∧ ∃ w, readBuf s b off = some w ∧ t = returned s w) ∨
            ∃ w, a.write = some w ∧ t = writeBuf s b off w)) := by
  unfold performAccess at h
  split at h
  · cases h
  · refine ⟨by assumption, ?_⟩
    split at h
    · cases h
    · rename_i tg htg
      split at h
      · rename_i hw
        cases tg with
        | reg r => cases h; exact Or.inl ⟨r, htg, Or.inl ⟨hw, rfl⟩⟩
        | window b off =>
          simp only [readTarget, State.busy] at h
          cases he : s.engine with
          | some L => simp [he] at h
          | none =>
            simp only [he, Option.isSome_none, Bool.false_eq_true, if_false] at h
            split at h
            · cases h
            · cases h; exact Or.inr ⟨b, off, htg, rfl, Or.inl ⟨hw, _, by assumption, rfl⟩⟩
      · rename_i w hw
        cases tg with
        | reg r => cases h; exact Or.inl ⟨r, htg, Or.inr ⟨w, hw, rfl⟩⟩
        | window b off =>
          simp only [writeTarget, State.busy] at h
          cases he : s.engine with
          | some L => simp [he] at h
          | none =>
            simp only [he, Option.isSome_none, Bool.false_eq_true, if_false] at h
            cases h; exact Or.inr ⟨b, off, htg, rfl, Or.inr ⟨w, hw, rfl⟩⟩

/-- What the host's move can do when it goes on. -/
theorem hostStep_next {s t : State} (h : hostStep s = .next t) :
    (s.env.script = [] ∧ t = s) ∨ (∃ rest, s.env.script = .wait :: rest ∧ t = pollStatus s rest) ∨
      ∃ a rest, s.env.script = .access a :: rest ∧ performAccess (withScript s rest) a = .next t := by
  unfold hostStep at h
  split at h
  · cases h; exact Or.inl ⟨by assumption, rfl⟩
  · cases h; exact Or.inr (Or.inl ⟨_, by assumption, rfl⟩)
  · exact Or.inr (Or.inr ⟨_, _, by assumption, h⟩)

/-! A step. -/

/-- What a step can do when it goes on, by whose turn it is. -/
theorem step_next {s t : State} (h : advance s = .next t) :
    (nextTurn s = .host ∧ s.env.resetHeld = false ∧ hostStep (popTurn s) = .next t) ∨
      (nextTurn s = .engine ∧ s.env.resetHeld = false ∧ engineStep (popTurn s) = .next t) ∨
      ((nextTurn s = .host ∨ nextTurn s = .engine) ∧ s.env.resetHeld = true ∧ t = popTurn s) ∨
      (nextTurn s = .resetAssert ∧ t = assertReset (popTurn s)) ∨
      (nextTurn s = .resetRelease ∧ t = releaseReset (popTurn s)) := by
  unfold advance move at h
  cases hn : nextTurn s with
  | host =>
    simp only [hn, popTurn_env] at h
    cases hr : s.env.resetHeld with
    | true => simp only [hr, if_true] at h; cases h; exact Or.inr (Or.inr (Or.inl ⟨Or.inl rfl, rfl, rfl⟩))
    | false => simp only [hr, Bool.false_eq_true, if_false] at h; exact Or.inl ⟨rfl, rfl, h⟩
  | engine =>
    simp only [hn, popTurn_env] at h
    cases hr : s.env.resetHeld with
    | true => simp only [hr, if_true] at h; cases h; exact Or.inr (Or.inr (Or.inl ⟨Or.inr rfl, rfl, rfl⟩))
    | false => simp only [hr, Bool.false_eq_true, if_false] at h; exact Or.inr (Or.inl ⟨rfl, rfl, h⟩)
  | resetAssert =>
    simp only [hn] at h; cases h; exact Or.inr (Or.inr (Or.inr (Or.inl ⟨rfl, rfl⟩)))
  | resetRelease =>
    simp only [hn] at h; cases h; exact Or.inr (Or.inr (Or.inr (Or.inr ⟨rfl, rfl⟩)))

/-! Where they stop. -/

/-- A read of a target stops only at a buffer window, of a busy block or of a word with an unwritten part. -/
theorem readTarget_answers (s : State) (t : Target) :
    (∃ u, readTarget s t = .next u) ∨
      ∃ b off, t = .window b off ∧
        ((readTarget s t = .fault .bufferWhileBusy ∧ s.busy = true) ∨
          (readTarget s t = .fault .unwrittenHostRead ∧ s.busy = false ∧ readBuf s b off = none)) := by
  cases t with
  | reg r => exact Or.inl ⟨_, rfl⟩
  | window b off =>
    simp only [readTarget]
    cases s.busy with
    | true => exact Or.inr ⟨b, off, rfl, Or.inl ⟨rfl, rfl⟩⟩
    | false =>
      cases hr : readBuf s b off with
      | none => exact Or.inr ⟨b, off, rfl, Or.inr ⟨rfl, rfl, hr⟩⟩
      | some w => exact Or.inl ⟨_, rfl⟩

/-- A write of a target stops only at a buffer window of a busy block. -/
theorem writeTarget_answers (s : State) (w : Word) (t : Target) :
    (∃ u, writeTarget s w t = .next u) ∨
      ∃ b off, t = .window b off ∧ writeTarget s w t = .fault .bufferWhileBusy ∧ s.busy = true := by
  cases t with
  | reg r => exact Or.inl ⟨_, rfl⟩
  | window b off =>
    simp only [writeTarget]
    cases s.busy with
    | true => exact Or.inr ⟨b, off, rfl, rfl, rfl⟩
    | false => exact Or.inl ⟨_, rfl⟩

/-- What a host access answers: a next state, a bus error (R73), or a fault at a buffer window (R300, R49). -/
theorem performAccess_answers (s : State) (a : Access) :
    (∃ u, performAccess s a = .next u) ∨
      (∃ e, illegalShape a = some e ∧ performAccess s a = .fault e) ∨
      (illegalShape a = none ∧
        ((performAccess s a = .fault .busUnmapped ∧ locate s.params a.addr.toNat = none) ∨
          ∃ b off, locate s.params a.addr.toNat = some (.window b off) ∧
            ((performAccess s a = .fault .bufferWhileBusy ∧ s.busy = true) ∨
              (performAccess s a = .fault .unwrittenHostRead ∧ s.busy = false ∧ a.write = none ∧
                readBuf s b off = none)))) := by
  unfold performAccess
  cases illegalShape a with
  | some e => exact Or.inr (Or.inl ⟨e, rfl, rfl⟩)
  | none =>
    cases locate s.params a.addr.toNat with
    | none => exact Or.inr (Or.inr ⟨rfl, Or.inl ⟨rfl, rfl⟩⟩)
    | some t =>
      cases a.write with
      | none =>
        rcases readTarget_answers s t with h | ⟨b, off, rfl, h | ⟨h, hb, hr⟩⟩
        · exact Or.inl h
        · exact Or.inr (Or.inr ⟨rfl, Or.inr ⟨b, off, rfl, Or.inl h⟩⟩)
        · exact Or.inr (Or.inr ⟨rfl, Or.inr ⟨b, off, rfl, Or.inr ⟨h, hb, rfl, hr⟩⟩⟩)
      | some w =>
        rcases writeTarget_answers s w t with h | ⟨b, off, rfl, h⟩
        · exact Or.inl h
        · exact Or.inr (Or.inr ⟨rfl, Or.inr ⟨b, off, rfl, Or.inl h⟩⟩)

/-- The shape of an access that is a bus error (R73). -/
theorem illegalShape_eq_some {a : Access} {e : Fault} (h : illegalShape a = some e) :
    (e = .busMisaligned ∧ a.addr.toNat % 4 ≠ 0) ∨ (a.addr.toNat % 4 = 0 ∧ e = .busLanes ∧ a.lanes ≠ 0xF#4) := by
  unfold illegalShape at h
  split at h
  · cases h; exact Or.inl ⟨rfl, by assumption⟩
  · split at h
    · cases h; exact Or.inr ⟨by omega, rfl, by assumption⟩
    · cases h

/-- An aligned access of all four lanes (R73). -/
theorem illegalShape_eq_none_iff (a : Access) :
    illegalShape a = none ↔ a.addr.toNat % 4 = 0 ∧ a.lanes = 0xF#4 := by
  unfold illegalShape
  split
  · simp [*]
  · split <;> simp_all

end Sys2Proof.Machine
end

