-- ==== Sys2Proof/Laws/Float.lean ====
section
/-!
SUPPORT. Laws of the binary64 operations: the fields of an encoding, the magnitude an encoding stands for, what
rounding answers, and the exact cases of sum and product.
-/

namespace Sys2Proof.Fp

/-! Fields. -/

theorem expo_eq (x : F64) : expo x = x.toNat / 2 ^ 52 % 2 ^ 11 := by
  simp [expo, BitVec.extractLsb'_toNat, Nat.shiftRight_eq_div_pow]

theorem frac_eq (x : F64) : frac x = x.toNat % 2 ^ 52 := by
  simp [frac, BitVec.extractLsb'_toNat]

theorem sign_eq (x : F64) : sign x = decide (2 ^ 63 ≤ x.toNat) := by
  have hx := x.isLt
  rw [sign, BitVec.getLsbD, Nat.testBit_eq_decide_div_mod_eq]
  congr 1
  apply propext
  omega

theorem expo_lt (x : F64) : expo x < 2048 := by rw [expo_eq]; omega

theorem frac_lt (x : F64) : frac x < 2 ^ 52 := by rw [frac_eq]; omega

/-- The 63 low bits of an encoding. -/
def low (x : F64) : Nat := expo x * 2 ^ 52 + frac x

theorem pack_toNat (neg : Bool) {n : Nat} (h : n < 2 ^ 63) :
    (pack neg n).toNat = if neg then 2 ^ 63 + n else n := by
  rw [pack, BitVec.toNat_ofNat]
  cases neg
  · simp only [Bool.false_eq_true, if_false]; omega
  · simp only [if_true]; omega

/-- An encoding is its sign and its low bits. -/
theorem pack_low (x : F64) : pack (sign x) (low x) = x := by
  have hx := x.isLt
  have hl : low x < 2 ^ 63 := by have := expo_lt x; have := frac_lt x; unfold low; omega
  apply BitVec.eq_of_toNat_eq
  rw [pack_toNat _ hl, sign_eq]
  unfold low at *
  rw [expo_eq, frac_eq] at *
  by_cases h : 2 ^ 63 ≤ x.toNat <;> simp only [h, decide_true, decide_false, if_true, Bool.false_eq_true, if_false] <;> omega

theorem sign_pack (neg : Bool) {n : Nat} (h : n < 2 ^ 63) : sign (pack neg n) = neg := by
  rw [sign_eq, pack_toNat neg h]
  cases neg
  · simp only [Bool.false_eq_true, if_false, decide_eq_false_iff_not]; omega
  · simp

theorem expo_pack (neg : Bool) {n : Nat} (h : n < 2 ^ 63) : expo (pack neg n) = n / 2 ^ 52 := by
  rw [expo_eq, pack_toNat neg h]
  cases neg
  · simp only [Bool.false_eq_true, if_false]; omega
  · simp only [if_true]; omega

theorem frac_pack (neg : Bool) {n : Nat} (h : n < 2 ^ 63) : frac (pack neg n) = n % 2 ^ 52 := by
  rw [frac_eq, pack_toNat neg h]
  cases neg
  · simp only [Bool.false_eq_true, if_false]
  · simp only [if_true]; omega

theorem low_pack (neg : Bool) {n : Nat} (h : n < 2 ^ 63) : low (pack neg n) = n := by
  rw [low, expo_pack neg h, frac_pack neg h]; omega

/-! Classes. -/

theorem isFinite_iff (x : F64) : isFinite x = true ↔ low x < infBits := by
  have := expo_lt x; have := frac_lt x
  simp only [isFinite, decide_eq_true_eq, low, infBits]; omega

theorem isInf_iff (x : F64) : isInf x = true ↔ low x = infBits := by
  have := expo_lt x; have := frac_lt x
  simp only [isInf, Bool.and_eq_true, decide_eq_true_eq, low, infBits]; omega

theorem isNaN_iff (x : F64) : isNaN x = true ↔ infBits < low x := by
  have := expo_lt x; have := frac_lt x
  simp only [isNaN, Bool.and_eq_true, decide_eq_true_eq, low, infBits]; omega

theorem isZero_iff (x : F64) : isZero x = true ↔ low x = 0 := by
  have := expo_lt x; have := frac_lt x
  simp only [isZero, Bool.and_eq_true, decide_eq_true_eq, low]; omega

theorem isFinite_of_not {x : F64} (hn : isNaN x = false) (hi : isInf x = false) : isFinite x = true := by
  rw [isFinite_iff]
  have h1 : ¬ infBits < low x := fun h => by simp [(isNaN_iff x).2 h] at hn
  have h2 : ¬ low x = infBits := fun h => by simp [(isInf_iff x).2 h] at hi
  omega

theorem not_isNaN_of_isFinite {x : F64} (h : isFinite x = true) : isNaN x = false := by
  rw [isFinite_iff] at h
  by_contra hn
  have := (isNaN_iff x).1 (by simpa using hn)
  omega

theorem not_isInf_of_isFinite {x : F64} (h : isFinite x = true) : isInf x = false := by
  rw [isFinite_iff] at h
  by_contra hn
  have := (isInf_iff x).1 (by simpa using hn)
  omega

theorem not_isNaN_of_isInf {x : F64} (h : isInf x = true) : isNaN x = false := by
  rw [isInf_iff] at h
  by_contra hn
  have := (isNaN_iff x).1 (by simpa using hn)
  omega

/-- The outputs of the generator are finite (R7, R206). -/
theorem isFinite_bits (z : Config.FiniteF64) : isFinite z.bits = true := by
  have h := z.expo.isLt
  simp only [isFinite, decide_eq_true_eq]
  rw [expo_eq]
  have hb := z.frac.isLt
  have hs := (BitVec.ofBool z.neg).isLt
  simp only [Config.FiniteF64.bits, BitVec.toNat_append, BitVec.toNat_ofNat]
  rw [← Nat.shiftLeft_add_eq_or_of_lt (show (z.expo.val % 2 ^ 11) <<< 52 ||| z.frac.toNat < 2 ^ (11 + 52) by
      rw [← Nat.shiftLeft_add_eq_or_of_lt hb, Nat.shiftLeft_eq]; omega),
    ← Nat.shiftLeft_add_eq_or_of_lt hb, Nat.shiftLeft_eq, Nat.shiftLeft_eq]
  omega

/-- A NaN pattern encodes a NaN. -/
theorem isNaN_bits (n : Config.NanPattern) : isNaN n.bits = true := by
  have h := n.low.isLt
  have hs := (BitVec.ofBool n.neg).isLt
  simp only [isNaN, Bool.and_eq_true, decide_eq_true_eq]
  rw [expo_eq, frac_eq]
  simp only [Config.NanPattern.bits, BitVec.toNat_append, BitVec.toNat_ofNat, BitVec.toNat_allOnes]
  rw [← Nat.shiftLeft_add_eq_or_of_lt (show (2 ^ 11 - 1) <<< 52 ||| (n.low.val + 1) % 2 ^ 52 < 2 ^ (11 + 52) by
      rw [← Nat.shiftLeft_add_eq_or_of_lt (by omega), Nat.shiftLeft_eq]; omega),
    ← Nat.shiftLeft_add_eq_or_of_lt (by omega), Nat.shiftLeft_eq, Nat.shiftLeft_eq]
  omega

/-! Magnitudes. -/

/-- The magnitude, in units of 2^-1074, that 63 low bits stand for. -/
def magLow (n : Nat) : Nat := if n / 2 ^ 52 = 0 then n else (n % 2 ^ 52 + 2 ^ 52) * 2 ^ (n / 2 ^ 52 - 1)

theorem mag_eq (x : F64) : mag x = magLow (low x) := by
  have h1 := frac_lt x
  have h2 : low x / 2 ^ 52 = expo x := by unfold low; omega
  have h3 : low x % 2 ^ 52 = frac x := by unfold low; omega
  simp only [mag, magLow, significand, scale, h2, h3]
  by_cases h : expo x = 0
  · simp [h, low]
  · simp [h]

/-- The encoding of significand q at scale s, also where q carries. -/
theorem magLow_of_scaled {s q : Nat} (hs : s = 0 ∨ 2 ^ 52 ≤ q) (hq : q ≤ 2 ^ 53) : magLow (s * 2 ^ 52 + q) = q * 2 ^ s := by
  unfold magLow
  by_cases h1 : q < 2 ^ 52
  · have : s = 0 := by omega
    subst this
    rw [if_pos (by omega)]; simp
  · by_cases h2 : q = 2 ^ 53
    · subst h2
      have e1 : (s * 2 ^ 52 + 2 ^ 53) / 2 ^ 52 = s + 2 := by omega
      have e2 : (s * 2 ^ 52 + 2 ^ 53) % 2 ^ 52 = 0 := by omega
      rw [e1, e2, if_neg (by omega), show s + 2 - 1 = s + 1 by omega]
      ring
    · have e1 : (s * 2 ^ 52 + q) / 2 ^ 52 = s + 1 := by omega
      have e2 : (s * 2 ^ 52 + q) % 2 ^ 52 = q - 2 ^ 52 := by omega
      rw [e1, e2, if_neg (by omega), show s + 1 - 1 = s by omega, Nat.sub_add_cancel (by omega)]

theorem mag_pos_of_not_isZero {x : F64} (h : isZero x = false) : 0 < mag x := by
  rw [mag_eq, magLow]
  have h0 : low x ≠ 0 := fun hz => by simp [(isZero_iff x).2 hz] at h
  split
  · omega
  · positivity

theorem mag_of_isZero {x : F64} (h : isZero x = true) : mag x = 0 := by
  rw [mag_eq, (isZero_iff x).1 h]; rfl

/-! Rounding. -/

theorem nearestEven_of_dvd {n t q : Nat} (h : n = q * 2 ^ t) : nearestEven n t = q := by
  have hp : 0 < 2 ^ t := by positivity
  subst h
  rw [nearestEven, Nat.mul_mod_left, if_pos (by omega), Nat.mul_div_cancel _ hp]

/-- A magnitude that a finite binary64 has is rounded to itself. -/
theorem round_magLow {r : Nat} (h : r < infBits) : round (magLow r) 0 = r := by
  have hr : r < 2047 * 2 ^ 52 := h
  unfold round
  have key : (cut (magLow r) 0) * 2 ^ 52 + nearestEven (magLow r) (cut (magLow r) 0) = r := by
    unfold magLow
    by_cases h0 : r / 2 ^ 52 = 0
    · rw [if_pos h0]
      have hc : cut r 0 = 0 := by
        have hl : Nat.log2 r ≤ 52 := by
          rcases Nat.eq_zero_or_pos r with h | h
          · simp [h]
          · have := (Nat.log2_lt (by omega)).2 (show r < 2 ^ 53 by omega)
            omega
        unfold cut; omega
      rw [hc, nearestEven_of_dvd (q := r) (by simp)]; omega
    · rw [if_neg h0]
      set e := r / 2 ^ 52 with he
      have hm1 : 2 ^ 52 ≤ r % 2 ^ 52 + 2 ^ 52 := by omega
      have hm2 : r % 2 ^ 52 + 2 ^ 52 < 2 ^ 53 := by omega
      have hlog : Nat.log2 ((r % 2 ^ 52 + 2 ^ 52) * 2 ^ (e - 1)) = 52 + (e - 1) := by
        have hpos : (r % 2 ^ 52 + 2 ^ 52) * 2 ^ (e - 1) ≠ 0 := by positivity
        apply le_antisymm
        · have := (Nat.log2_lt hpos).2 (show _ < 2 ^ (53 + (e - 1)) by
            rw [pow_add]; exact Nat.mul_lt_mul_of_pos_right hm2 (by positivity))
          omega
        · exact (Nat.le_log2 hpos).2 (by rw [pow_add]; exact Nat.mul_le_mul_right _ hm1)
      have hc : cut ((r % 2 ^ 52 + 2 ^ 52) * 2 ^ (e - 1)) 0 = e - 1 := by
        unfold cut; rw [hlog]; omega
      rw [hc, nearestEven_of_dvd rfl]
      omega
  rw [Nat.sub_zero, key]
  exact Nat.min_eq_right (by unfold infBits; omega)

/-- A finite value survives rounding. -/
theorem round_mag {x : F64} (h : isFinite x = true) : round (mag x) 0 = low x := by
  rw [mag_eq, round_magLow ((isFinite_iff x).1 h)]

theorem round_le (n d : Nat) : round n d ≤ infBits := Nat.min_le_left _ _

theorem round_lt (n d : Nat) : round n d < 2 ^ 63 := by
  have := round_le n d
  unfold infBits at this
  omega

@[simp] theorem round_zero (d : Nat) : round 0 d = 0 := by
  have hc : cut 0 d = d := by
    unfold cut; have : Nat.log2 0 = 0 := rfl; omega
  rw [round, hc, nearestEven_of_dvd (q := 0) (by simp)]
  simp [infBits]

/-- The two bounds of a rounding to an integer: never more than half away, and at half only to an even number. -/
theorem nearestEven_spec (n t : Nat) :
    2 * n ≤ (2 * nearestEven n t + 1) * 2 ^ t ∧ 2 * nearestEven n t * 2 ^ t ≤ 2 * n + 2 ^ t ∧
      (2 * n = (2 * nearestEven n t + 1) * 2 ^ t ∨ 2 * nearestEven n t * 2 ^ t = 2 * n + 2 ^ t →
        nearestEven n t % 2 = 0) := by
  have hp : 0 < 2 ^ t := by positivity
  have hd := Nat.div_add_mod n (2 ^ t)
  have hm := Nat.mod_lt n hp
  unfold nearestEven
  generalize n / 2 ^ t = q at *
  generalize n % 2 ^ t = r at *
  generalize 2 ^ t = p at *
  have e1 : ∀ x, (2 * x + 1) * p = 2 * (p * x) + p := fun x => by ring
  have e2 : ∀ x, 2 * x * p = 2 * (p * x) := fun x => by ring
  have e3 : p * (q + 1) = p * q + p := by ring
  split
  · rw [e1, e2]; refine ⟨by omega, by omega, fun h => by omega⟩
  · split
    · rcases Nat.mod_two_eq_zero_or_one q with h | h
      · rw [h, e1, e2, Nat.add_zero]; refine ⟨by omega, by omega, fun _ => h⟩
      · rw [h, e1, e2, e3]; refine ⟨by omega, by omega, fun _ => by omega⟩
    · rw [e1, e2, e3]; refine ⟨by omega, by omega, fun h => by omega⟩

/-- What rounding answers below the range's end: a significand and a scale that encode it, within half a unit in the
last place; the scale is the least that keeps the significand to 53 bits. -/
theorem round_cases (n d : Nat) :
    ∃ s q, (s = 0 ∨ 2 ^ 52 ≤ q) ∧ q ≤ 2 ^ 53 ∧ round n d = Nat.min infBits (s * 2 ^ 52 + q) ∧
      2 * n ≤ (2 * q + 1) * 2 ^ (d + s) ∧ 2 * q * 2 ^ (d + s) ≤ 2 * n + 2 ^ (d + s) ∧
      (2 * n = (2 * q + 1) * 2 ^ (d + s) ∨ 2 * q * 2 ^ (d + s) = 2 * n + 2 ^ (d + s) → q % 2 = 0) ∧
      (s = 0 ∨ 2 ^ 52 * 2 ^ (d + s) ≤ n) ∧ n < 2 ^ 53 * 2 ^ (d + s) := by
  obtain ⟨h1, h2, h3⟩ := nearestEven_spec n (cut n d)
  have hc : cut n d = d + (Nat.log2 n + 1 - (d + 53)) := rfl
  set s := Nat.log2 n + 1 - (d + 53) with hs
  have hup : n < 2 ^ 53 * 2 ^ (d + s) := by
    rcases Nat.eq_zero_or_pos n with h | h
    · rw [h]; positivity
    · have : n < 2 ^ (Nat.log2 n + 1) := (Nat.log2_lt (by omega)).1 (by omega)
      refine lt_of_lt_of_le this ?_
      rw [← pow_add]
      exact Nat.pow_le_pow_right (by norm_num) (by omega)
  have hlo : s = 0 ∨ 2 ^ 52 * 2 ^ (d + s) ≤ n := by
    rcases Nat.eq_zero_or_pos s with h | h
    · exact Or.inl h
    · right
      have hn : n ≠ 0 := by
        intro h0
        have : Nat.log2 0 = 0 := rfl
        rw [h0, this] at hs; omega
      rw [← pow_add]
      exact (Nat.le_log2 hn).1 (by omega)
  have hp : 0 < 2 ^ (d + s) := by positivity
  rw [hc] at h1 h2 h3
  refine ⟨s, nearestEven n (d + s), ?_, ?_, ?_, h1, h2, h3, hlo, hup⟩
  · rcases hlo with h | h
    · exact Or.inl h
    · right
      have : 2 * (2 ^ 52 * 2 ^ (d + s)) ≤ (2 * nearestEven n (d + s) + 1) * 2 ^ (d + s) := by omega
      rw [← Nat.mul_assoc] at this
      have := Nat.le_of_mul_le_mul_right this hp
      omega
  · have : 2 * nearestEven n (d + s) * 2 ^ (d + s) < (2 ^ 54 + 1) * 2 ^ (d + s) := by
      rw [Nat.add_mul, Nat.one_mul, show 2 ^ 54 * 2 ^ (d + s) = 2 * (2 ^ 53 * 2 ^ (d + s)) by ring]
      omega
    have := Nat.lt_of_mul_lt_mul_right this
    omega
  · rw [round, hc, Nat.add_sub_cancel_left]

/-! Exact sums and products. -/

theorem units_natAbs (x : F64) : (units x).natAbs = mag x := by
  unfold units; split <;> simp

theorem units_of_isZero {x : F64} (h : isZero x = true) : units x = 0 := by
  unfold units; simp [mag_of_isZero h]

theorem units_ne_zero {x : F64} (h : isZero x = false) : units x ≠ 0 := by
  have := mag_pos_of_not_isZero h
  unfold units; split <;> omega

theorem units_neg_iff {x : F64} (h : isZero x = false) : decide (units x < 0) = sign x := by
  have := mag_pos_of_not_isZero h
  unfold units
  cases hs : sign x
  · simp
  · simp; omega

/-- Adding a zero to a value that is neither a zero nor a NaN gives that value back, bit for bit (R207). -/
theorem add_zero_right {nan x z : F64} (hx : isNaN x = false) (hx0 : isZero x = false) (hz : isZero z = true) :
    add nan x z = x := by
  have hzf : isFinite z = true := by rw [isFinite_iff, (isZero_iff z).1 hz]; decide
  have hzn := not_isNaN_of_isFinite hzf
  have hzi := not_isInf_of_isFinite hzf
  unfold add
  by_cases hxi : isInf x = true
  · simp [hx, hzn, hxi, hzi]
  · have hxi : isInf x = false := by simpa using hxi
    have hxf := isFinite_of_not hx hxi
    have hu := units_ne_zero hx0
    rw [units_of_isZero hz]
    simp only [hx, hzn, hxi, hzi, Bool.or_self, Bool.false_eq_true, if_false, Int.add_zero, hu, units_natAbs,
      round_mag hxf, units_neg_iff hx0, pack_low]

/-- The sum of two zeros is a zero, negative only if both are (R207, G5). -/
theorem add_zero_zero {nan x z : F64} (hx : isZero x = true) (hz : isZero z = true) :
    add nan x z = pack (sign x && sign z) 0 := by
  have hzf : isFinite z = true := by rw [isFinite_iff, (isZero_iff z).1 hz]; decide
  have hxf : isFinite x = true := by rw [isFinite_iff, (isZero_iff x).1 hx]; decide
  simp [add, not_isNaN_of_isFinite hzf, not_isInf_of_isFinite hzf, not_isNaN_of_isFinite hxf, not_isInf_of_isFinite hxf,
    units_of_isZero hx, units_of_isZero hz]

/-- A zero times a finite value is a zero (R207). -/
theorem mul_zero_left {nan a b : F64} (ha : isZero a = true) (hb : isFinite b = true) : isZero (mul nan a b) = true := by
  have haf : isFinite a = true := by rw [isFinite_iff, (isZero_iff a).1 ha]; decide
  have : mul nan a b = pack (sign a != sign b) 0 := by
    simp [mul, not_isNaN_of_isFinite haf, not_isInf_of_isFinite haf, not_isNaN_of_isFinite hb, not_isInf_of_isFinite hb,
      mag_of_isZero ha]
  rw [this, isZero_iff, low_pack _ (by norm_num)]

theorem sqrt_of_isZero {nan a : F64} (h : isZero a = true) : sqrt nan a = a := by
  have hf : isFinite a = true := by rw [isFinite_iff, (isZero_iff a).1 h]; decide
  simp [sqrt, h, not_isNaN_of_isFinite hf]

/-! Square roots. -/

/-- The integer square root. -/
theorem isqrt_spec : ∀ (k n : Nat), n < 4 ^ k → isqrt k n * isqrt k n ≤ n ∧ n < (isqrt k n + 1) * (isqrt k n + 1)
  | 0, n, h => by simp at h; subst h; decide
  | k + 1, n, h => by
    have ih := isqrt_spec k (n / 4) (by rw [pow_succ] at h; omega)
    simp only [isqrt]
    generalize isqrt k (n / 4) = r at *
    have e1 : (2 * r) * (2 * r) = 4 * (r * r) := by ring
    have e2 : (2 * r + 1) * (2 * r + 1) = 4 * (r * r) + 4 * r + 1 := by ring
    have e3 : (2 * r + 1 + 1) * (2 * r + 1 + 1) = 4 * (r * r) + 8 * r + 4 := by ring
    have e4 : (r + 1) * (r + 1) = r * r + 2 * r + 1 := by ring
    rw [e4] at ih
    rw [e2]
    split
    · rw [e2, e3]; omega
    · rw [e1, e2]; omega

/-! Integers as binary64. -/

/-- `one` as the power it is. It is irreducible, so that no tactic computes it. -/
theorem two_pow_eq_one {e : Nat} (h : e = 1074) : 2 ^ e = one := by
  unfold one
  exact congrArg (fun n => 2 ^ n) h

theorem one_pos : 0 < one := by
  have h : ∀ e, e = 1074 → 0 < one := fun e he => two_pow_eq_one he ▸ Nat.two_pow_pos e
  exact h _ rfl

/-- An integer below 2^53 is held exactly (R160, R167). -/
theorem units_ofInt {z : Int} (h : z.natAbs < 2 ^ 53) : units (ofInt z) = z * (one : Int) ∧ isFinite (ofInt z) = true := by
  rcases Nat.eq_zero_or_pos z.natAbs with h0 | hpos
  · have : z = 0 := by omega
    subst this; decide +kernel
  · obtain ⟨e, he1, he2⟩ : ∃ e, 2 ^ e ≤ z.natAbs ∧ z.natAbs < 2 ^ (e + 1) :=
      ⟨Nat.log2 z.natAbs, (Nat.le_log2 (by omega)).1 le_rfl, (Nat.log2_lt (by omega)).1 (by omega)⟩
    have he : e ≤ 52 := by
      by_contra hc
      have : 2 ^ 53 ≤ 2 ^ e := Nat.pow_le_pow_right (by norm_num) (by omega)
      omega
    obtain ⟨f, hf⟩ : ∃ f, f = 52 - e := ⟨_, rfl⟩
    have hq1 : 2 ^ 52 ≤ z.natAbs * 2 ^ f := by
      calc 2 ^ 52 = 2 ^ e * 2 ^ f := by rw [← pow_add]; congr 1; omega
        _ ≤ _ := Nat.mul_le_mul_right _ he1
    have hq2 : z.natAbs * 2 ^ f < 2 ^ 53 := by
      calc z.natAbs * 2 ^ f < 2 ^ (e + 1) * 2 ^ f := Nat.mul_lt_mul_of_pos_right he2 (by positivity)
        _ = 2 ^ 53 := by rw [← pow_add]; congr 1; omega
    have hr := magLow_of_scaled (s := 1074 - f) (Or.inr hq1) (le_of_lt hq2)
    have hval : z.natAbs * 2 ^ f * 2 ^ (1074 - f) = z.natAbs * one := by
      have : 2 ^ f * 2 ^ (1074 - f) = one := by
        rw [← Nat.pow_add]; exact two_pow_eq_one (by omega)
      rw [Nat.mul_assoc, this]
    have hlt : (1074 - f) * 2 ^ 52 + z.natAbs * 2 ^ f < infBits := by unfold infBits; omega
    have hlow : round (z.natAbs * one) 0 = (1074 - f) * 2 ^ 52 + z.natAbs * 2 ^ f := by
      rw [← hval, ← hr, round_magLow hlt]
    have h63 : (1074 - f) * 2 ^ 52 + z.natAbs * 2 ^ f < 2 ^ 63 := by unfold infBits at hlt; omega
    unfold ofInt
    rw [hlow]
    refine ⟨?_, by rw [isFinite_iff, low_pack _ h63]; exact hlt⟩
    unfold units
    rw [sign_pack _ h63, mag_eq, low_pack _ h63, hr, hval]
    by_cases hz : z < 0
    · simp only [hz, decide_true, if_true]
      rw [Int.natCast_mul, ← Int.neg_mul, Int.ofNat_natAbs_of_nonpos (le_of_lt hz), Int.neg_neg]
    · simp only [hz, decide_false, Bool.false_eq_true, if_false]
      rw [Int.natCast_mul, Int.natAbs_of_nonneg (not_lt.1 hz)]

end Sys2Proof.Fp
end

