-- ==== Sys2Proof/Laws/Rounding.lean ====
section
/-!
SUPPORT. Laws of rounding: no finite value is closer than the rounded one, where rounding overflows, and what the
square root of a valid variance is.
-/

namespace Sys2Proof.Fp

/-! The finite magnitudes. -/

/-- A finite magnitude as a significand and a scale. -/
theorem magLow_form {r : Nat} (h : r < infBits) :
    ∃ s q, (s = 0 ∨ 2 ^ 52 ≤ q) ∧ q < 2 ^ 53 ∧ s ≤ 2045 ∧ r = s * 2 ^ 52 + q ∧ magLow r = q * 2 ^ s := by
  have hr : r < 2047 * 2 ^ 52 := h
  by_cases h0 : r / 2 ^ 52 = 0
  · refine ⟨0, r, Or.inl rfl, by omega, by omega, by omega, ?_⟩
    unfold magLow; rw [if_pos h0, Nat.pow_zero, Nat.mul_one]
  · refine ⟨r / 2 ^ 52 - 1, r % 2 ^ 52 + 2 ^ 52, Or.inr (by omega), by omega, by omega, by omega, ?_⟩
    unfold magLow; rw [if_neg h0]

theorem magLow_zero : magLow 0 = 0 := rfl

theorem units_pack (neg : Bool) {r : Nat} (h : r < 2 ^ 63) :
    units (pack neg r) = if neg then -(magLow r : Int) else (magLow r : Int) := by
  unfold units; rw [sign_pack _ h, mag_eq, low_pack _ h]

theorem units_eq (x : F64) : units x = if sign x then -(magLow (low x) : Int) else (magLow (low x) : Int) := by
  unfold units; rw [mag_eq]

/-- A magnitude whose scale is below s is less than the least significand at scale s. -/
theorem lt_of_lower_scale {q s s' : Nat} (hq : q < 2 ^ 53) (hs : s' < s) (d : Nat) :
    q * 2 ^ (d + s') < 2 ^ 52 * 2 ^ (d + s) := by
  calc q * 2 ^ (d + s') < 2 ^ 53 * 2 ^ (d + s') := Nat.mul_lt_mul_of_pos_right hq (Nat.two_pow_pos _)
    _ = 2 ^ 52 * 2 ^ (d + s' + 1) := by rw [Nat.pow_succ 2 (d + s')]; ring
    _ ≤ _ := Nat.mul_le_mul_left _ (Nat.pow_le_pow_right (by norm_num) (by omega))

/-- A magnitude whose scale is at least s is a multiple of the unit of scale s. -/
theorem multiple_of_scale {s s' : Nat} (q d : Nat) (hs : s ≤ s') : ∃ j, q * 2 ^ (d + s') = j * 2 ^ (d + s) := by
  refine ⟨q * 2 ^ (s' - s), ?_⟩
  rw [Nat.mul_assoc, ← Nat.pow_add]; congr 2; omega

theorem succ_mul_le {i j D : Nat} (h : i < j) : i * D + D ≤ j * D := by
  have := Nat.mul_le_mul_right D (Nat.succ_le_of_lt h)
  rwa [Nat.succ_mul] at this

theorem min_eq_of_lt {a b : Nat} (h : Nat.min a b < a) : Nat.min a b = b := by unfold Nat.min at *; omega

/-! Nearest, ties to even. -/

/-- Where rounding stays in range no finite magnitude is closer, and one as close leaves an even significand. -/
theorem round_nearest {n d : Nat} (hr : round n d < infBits) {w : Nat} (hw : w < infBits) :
    ((n : Int) - magLow (round n d) * 2 ^ d).natAbs ≤ ((n : Int) - magLow w * 2 ^ d).natAbs ∧
      (((n : Int) - magLow (round n d) * 2 ^ d).natAbs = ((n : Int) - magLow w * 2 ^ d).natAbs →
        magLow w ≠ magLow (round n d) → round n d % 2 = 0) := by
  obtain ⟨s, q, h1, h2, h3, h4, h5, h6, h7, h8⟩ := round_cases n d
  have e : round n d = s * 2 ^ 52 + q := by rw [h3] at hr ⊢; exact min_eq_of_lt hr
  have hm : magLow (round n d) = q * 2 ^ s := by rw [e, magLow_of_scaled h1 h2]
  obtain ⟨s', q', -, g2, -, -, g5⟩ := magLow_form hw
  have par : round n d % 2 = q % 2 := by rw [e]; omega
  rw [par, hm, g5]
  have cast : ∀ q s : Nat, ((q * 2 ^ s : Nat) : Int) * 2 ^ d = (q * 2 ^ (d + s) : Nat) := fun q s => by
    rw [Nat.pow_add]; push_cast; ring
  rw [cast, cast]
  have hne : q' * 2 ^ s' ≠ q * 2 ^ s → q' * 2 ^ (d + s') ≠ q * 2 ^ (d + s) := by
    intro hne he
    rw [Nat.pow_add, Nat.pow_add, Nat.mul_left_comm, Nat.mul_left_comm q] at he
    exact hne (Nat.eq_of_mul_eq_mul_left (Nat.two_pow_pos d) he)
  have e1 : (2 * q + 1) * 2 ^ (d + s) = 2 * (q * 2 ^ (d + s)) + 2 ^ (d + s) := by ring
  have e2 : 2 * q * 2 ^ (d + s) = 2 * (q * 2 ^ (d + s)) := by ring
  rw [e1] at h4 h6; rw [e2] at h5 h6
  rcases Nat.lt_or_ge s' s with hs | hs
  · have h0 : s ≠ 0 := by omega
    have hq : 2 ^ 52 ≤ q := h1.resolve_left h0
    have hn : 2 ^ 52 * 2 ^ (d + s) ≤ n := h7.resolve_left h0
    have hlt := lt_of_lower_scale g2 hs d
    have step : q * 2 ^ (d + s) = 2 ^ 52 * 2 ^ (d + s) ∨ 2 ^ 52 * 2 ^ (d + s) + 2 ^ (d + s) ≤ q * 2 ^ (d + s) := by
      rcases Nat.eq_or_lt_of_le hq with h | h
      · left; rw [← h]
      · right; exact succ_mul_le h
    generalize q' * 2 ^ (d + s') = W at *
    generalize q * 2 ^ (d + s) = V at *
    generalize 2 ^ (d + s) = D at *
    exact ⟨by omega, fun ht => by omega⟩
  · obtain ⟨j, hj⟩ := multiple_of_scale q' d hs
    rw [hj] at hne ⊢
    rcases Nat.lt_trichotomy j q with h | h | h
    · have := succ_mul_le (D := 2 ^ (d + s)) h
      generalize q * 2 ^ (d + s) = V at *
      generalize j * 2 ^ (d + s) = W at *
      generalize 2 ^ (d + s) = D at *
      exact ⟨by omega, fun ht _ => h6 (by omega)⟩
    · subst h
      exact ⟨le_rfl, fun _ hc => absurd rfl (hne hc)⟩
    · have := succ_mul_le (D := 2 ^ (d + s)) h
      generalize q * 2 ^ (d + s) = V at *
      generalize j * 2 ^ (d + s) = W at *
      generalize 2 ^ (d + s) = D at *
      exact ⟨by omega, fun ht _ => h6 (by omega)⟩

/-- Rounding stays in range exactly below the midpoint past the largest finite value. -/
theorem round_lt_infBits_iff (n d : Nat) : round n d < infBits ↔ n < (2 ^ 54 - 1) * 2 ^ (2044 + d) := by
  obtain ⟨s, q, h1, h2, h3, h4, h5, h6, h7, h8⟩ := round_cases n d
  have e1 : (2 * q + 1) * 2 ^ (d + s) = 2 * (q * 2 ^ (d + s)) + 2 ^ (d + s) := by ring
  have e2 : 2 * q * 2 ^ (d + s) = 2 * (q * 2 ^ (d + s)) := by ring
  have er : round n d < infBits ↔ s * 2 ^ 52 + q < 2047 * 2 ^ 52 := by
    rw [h3]; unfold infBits Nat.min; omega
  rw [er]
  rcases Nat.lt_or_ge s 2045 with hs | hs
  · have : s * 2 ^ 52 + q < 2047 * 2 ^ 52 := by omega
    simp only [this, true_iff]
    calc n < 2 ^ 53 * 2 ^ (d + s) := h8
      _ ≤ 2 ^ 53 * 2 ^ (2044 + d) := Nat.mul_le_mul_left _ (Nat.pow_le_pow_right (by norm_num) (by omega))
      _ ≤ _ := Nat.mul_le_mul_right _ (by norm_num)
  · have h0 : s ≠ 0 := by omega
    have hq : 2 ^ 52 ≤ q := h1.resolve_left h0
    have hn : 2 ^ 52 * 2 ^ (d + s) ≤ n := h7.resolve_left h0
    rcases Nat.eq_or_lt_of_le hs with hs | hs
    · have hD : 2 ^ (d + s) = 2 * 2 ^ (2044 + d) := by rw [← hs, ← Nat.pow_succ']; congr 1; omega
      have e3 : q * 2 ^ (d + s) = 2 * (q * 2 ^ (2044 + d)) := by rw [hD, Nat.mul_left_comm]
      rw [e1] at h4; rw [e2] at h5; rw [e1, e2] at h6
      rw [e3, hD] at h4 h5 h6
      have hp : 0 < 2 ^ (2044 + d) := Nat.two_pow_pos _
      generalize hE : 2 ^ (2044 + d) = E at *
      constructor
      · intro h
        have hq : q ≤ 2 ^ 53 - 1 := by omega
        have := Nat.mul_le_mul_right E hq
        by_contra hc
        have hqE : q * E = (2 ^ 53 - 1) * E := by omega
        have : q % 2 = 0 := h6 (by omega)
        have : q = 2 ^ 53 - 1 := Nat.eq_of_mul_eq_mul_right hp hqE
        omega
      · intro h
        have : q < 2 ^ 53 := by
          by_contra hc
          have : q = 2 ^ 53 := by omega
          rw [this] at h5
          omega
        omega
    · have : ¬ s * 2 ^ 52 + q < 2047 * 2 ^ 52 := by omega
      simp only [this, false_iff, not_lt]
      calc (2 ^ 54 - 1) * 2 ^ (2044 + d) ≤ 2 ^ 52 * 2 ^ (2 + (2044 + d)) := by
            rw [Nat.pow_add 2 2 (2044 + d), ← Nat.mul_assoc]; exact Nat.mul_le_mul_right _ (by norm_num)
        _ ≤ 2 ^ 52 * 2 ^ (d + s) := Nat.mul_le_mul_left _ (Nat.pow_le_pow_right (by norm_num) (by omega))
        _ ≤ n := hn

/-- The same of signed values: x is in units of 2^-(1074 + d), and a zero may carry either sign. -/
theorem round_nearest_signed {x : Int} {d : Nat} (hr : round x.natAbs d < infBits) {neg : Bool}
    (hneg : x ≠ 0 → neg = decide (x < 0)) {w : F64} (hw : isFinite w = true) :
    (x - units (pack neg (round x.natAbs d)) * 2 ^ d).natAbs ≤ (x - units w * 2 ^ d).natAbs ∧
      ((x - units (pack neg (round x.natAbs d)) * 2 ^ d).natAbs = (x - units w * 2 ^ d).natAbs →
        units w ≠ units (pack neg (round x.natAbs d)) → frac (pack neg (round x.natAbs d)) % 2 = 0) := by
  have hw' := (isFinite_iff w).1 hw
  have hr63 := round_lt x.natAbs d
  have hf : frac (pack neg (round x.natAbs d)) % 2 = round x.natAbs d % 2 := by rw [frac_pack _ hr63]; omega
  rw [hf, units_pack _ hr63]
  by_cases hx : x = 0
  · subst hx
    simp only [Int.natAbs_zero, round_zero, magLow_zero]
    simp
  · rw [hneg hx]
    have a := round_nearest hr hw'
    have b := round_nearest hr (w := 0) (by decide)
    rw [magLow_zero, Nat.cast_zero, Int.zero_mul] at b
    rw [units_eq w]
    generalize magLow (round x.natAbs d) = R at *
    generalize magLow (low w) = W at *
    generalize round x.natAbs d = r at *
    have hW : 0 ≤ (W : Int) * 2 ^ d := by positivity
    have hW0 : (W : Int) * 2 ^ d = 0 → W = 0 := by
      intro h; rcases Int.mul_eq_zero.1 h with h | h
      · omega
      · have : (0 : Int) < 2 ^ d := by positivity
        omega
    have na : (-(R : Int)) * 2 ^ d = -((R : Int) * 2 ^ d) := by ring
    have nb : (-(W : Int)) * 2 ^ d = -((W : Int) * 2 ^ d) := by ring
    rcases lt_or_gt_of_ne hx with h | h
    · rw [decide_eq_true h]
      cases hs : sign w
      · simp only [Bool.false_eq_true, if_false, if_true]; rw [na]
        generalize (R : Int) * 2 ^ d = RD at *
        generalize (W : Int) * 2 ^ d = WD at *
        refine ⟨by omega, fun h1 h2 => ?_⟩
        have := hW0 (by omega)
        exact b.2 (by omega) (by omega)
      · simp only [if_true]; rw [na, nb]
        generalize (R : Int) * 2 ^ d = RD at *
        generalize (W : Int) * 2 ^ d = WD at *
        exact ⟨by omega, fun h1 h2 => a.2 (by omega) (by omega)⟩
    · rw [decide_eq_false (by omega)]
      simp only [Bool.false_eq_true, if_false]
      cases hs : sign w
      · simp only [Bool.false_eq_true, if_false]
        generalize (R : Int) * 2 ^ d = RD at *
        generalize (W : Int) * 2 ^ d = WD at *
        exact ⟨by omega, fun h1 h2 => a.2 (by omega) (by omega)⟩
      · simp only [if_true]; rw [nb]
        generalize (R : Int) * 2 ^ d = RD at *
        generalize (W : Int) * 2 ^ d = WD at *
        refine ⟨by omega, fun h1 h2 => ?_⟩
        have := hW0 (by omega)
        exact b.2 (by omega) (by omega)

/-! Sum and product of finite values. -/

theorem add_of_finite {nan a b : F64} (ha : isFinite a = true) (hb : isFinite b = true) :
    ∃ neg, (units a + units b ≠ 0 → neg = decide (units a + units b < 0)) ∧
      add nan a b = pack neg (round (units a + units b).natAbs 0) := by
  unfold add
  simp only [not_isNaN_of_isFinite ha, not_isInf_of_isFinite ha, not_isNaN_of_isFinite hb, not_isInf_of_isFinite hb,
    Bool.or_self, Bool.false_eq_true, if_false]
  by_cases h : units a + units b = 0
  · rw [if_pos h, h]; exact ⟨sign a && sign b, by simp, by simp⟩
  · rw [if_neg h]; exact ⟨_, fun _ => rfl, rfl⟩

theorem mul_of_finite {nan a b : F64} (ha : isFinite a = true) (hb : isFinite b = true) :
    mul nan a b = pack (sign a != sign b) (round (mag a * mag b) 1074) := by
  unfold mul
  simp only [not_isNaN_of_isFinite ha, not_isInf_of_isFinite ha, not_isNaN_of_isFinite hb, not_isInf_of_isFinite hb,
    Bool.or_self, Bool.false_eq_true, if_false]

/-- A product of finite values is no NaN, whatever NaN was asked for. -/
theorem not_isNaN_mul {nan a b : F64} (ha : isFinite a = true) (hb : isFinite b = true) :
    isNaN (mul nan a b) = false := by
  rw [mul_of_finite ha hb, ← Bool.not_eq_true, isNaN_iff, low_pack _ (round_lt _ _)]
  have := round_le (mag a * mag b) 1074
  omega

/-! Square root. -/

theorem root_le {n r st k P : Nat} (hr : n < (r + 1) * (r + 1)) (hst : st = 2 * r + (if r * r = n then 0 else 1))
    (hk : 2 * (st * 2 ^ P) ≤ k * 2 ^ (P + 2)) : 4 * (n * (2 ^ (P + 1)) ^ 2) ≤ (k * 2 ^ (P + 2)) ^ 2 := by
  have hk' : st ≤ 2 * k := by
    have : (2 * st) * 2 ^ P ≤ (4 * k) * 2 ^ P := by
      calc (2 * st) * 2 ^ P = 2 * (st * 2 ^ P) := by ring
        _ ≤ k * 2 ^ (P + 2) := hk
        _ = _ := by rw [Nat.pow_add]; ring
    have := Nat.le_of_mul_le_mul_right this (Nat.two_pow_pos P)
    omega
  have hnk : n ≤ k * k := by
    rw [hst] at hk'
    split at hk'
    · rename_i hx; rw [← hx]; exact Nat.mul_le_mul (by omega) (by omega)
    · have := Nat.mul_le_mul (show r + 1 ≤ k by omega) (show r + 1 ≤ k by omega); omega
  calc 4 * (n * (2 ^ (P + 1)) ^ 2) ≤ 4 * (k * k * (2 ^ (P + 1)) ^ 2) :=
        Nat.mul_le_mul_left _ (Nat.mul_le_mul_right _ hnk)
    _ = _ := by rw [show P + 2 = P + 1 + 1 from rfl, Nat.pow_succ 2 (P + 1)]; ring

theorem le_root {n r st k P : Nat} (hr : r * r ≤ n) (hst : st = 2 * r + (if r * r = n then 0 else 1))
    (hk : k * 2 ^ (P + 2) ≤ 2 * (st * 2 ^ P)) : (k * 2 ^ (P + 2)) ^ 2 ≤ 4 * (n * (2 ^ (P + 1)) ^ 2) := by
  have hk' : 2 * k ≤ st := by
    have : (4 * k) * 2 ^ P ≤ (2 * st) * 2 ^ P := by
      calc (4 * k) * 2 ^ P = k * 2 ^ (P + 2) := by rw [Nat.pow_add]; ring
        _ ≤ 2 * (st * 2 ^ P) := hk
        _ = _ := by ring
    have := Nat.le_of_mul_le_mul_right this (Nat.two_pow_pos P)
    omega
  have hnk : k * k ≤ n := by
    have : k ≤ r := by rw [hst] at hk'; split at hk' <;> omega
    have := Nat.mul_le_mul this this; omega
  calc _ = 4 * (k * k * (2 ^ (P + 1)) ^ 2) := by rw [show P + 2 = P + 1 + 1 from rfl, Nat.pow_succ 2 (P + 1)]; ring
    _ ≤ _ := Nat.mul_le_mul_left _ (Nat.mul_le_mul_right _ hnk)

/-- A root rounded through its sticky form lies between the midpoints to every other finite magnitude. -/
theorem root_between {n r st P s q s' q' : Nat} (hr : r * r ≤ n) (hr' : n < (r + 1) * (r + 1))
    (hst : st = 2 * r + (if r * r = n then 0 else 1)) (hsP : P + 2 ≤ s) (hq : 2 ^ 52 ≤ q)
    (hn : 2 ^ 52 * 2 ^ s ≤ st * 2 ^ P) (h4 : 2 * (st * 2 ^ P) ≤ (2 * q + 1) * 2 ^ s)
    (h5 : 2 * q * 2 ^ s ≤ 2 * (st * 2 ^ P) + 2 ^ s) (hq' : q' < 2 ^ 53) :
    (q * 2 ^ s < q' * 2 ^ s' → 4 * (n * (2 ^ (P + 1)) ^ 2) ≤ (q * 2 ^ s + q' * 2 ^ s') ^ 2) ∧
      (q' * 2 ^ s' < q * 2 ^ s → (q * 2 ^ s + q' * 2 ^ s') ^ 2 ≤ 4 * (n * (2 ^ (P + 1)) ^ 2)) := by
  obtain ⟨c, hc⟩ : ∃ c, 2 ^ s = c * 2 ^ (P + 2) := ⟨2 ^ (s - (P + 2)), by rw [← Nat.pow_add]; congr 1; omega⟩
  have e1 : (2 * q + 1) * 2 ^ s = 2 * (q * 2 ^ s) + 2 ^ s := by ring
  have e2 : 2 * q * 2 ^ s = 2 * (q * 2 ^ s) := by ring
  rw [e1] at h4; rw [e2] at h5
  have low : s' < s → q' * 2 ^ s' < 2 ^ 52 * 2 ^ s := fun hs => by simpa using lt_of_lower_scale hq' hs 0
  have hge : 2 ^ 52 * 2 ^ s ≤ q * 2 ^ s := Nat.mul_le_mul_right _ hq
  have mult : s ≤ s' → ∃ j, q' * 2 ^ s' = j * 2 ^ s := fun h => by simpa using multiple_of_scale q' 0 h
  have sum : ∀ j, q * 2 ^ s + j * 2 ^ s = ((q + j) * c) * 2 ^ (P + 2) := fun j => by rw [hc]; ring
  have lt_of : ∀ {i j : Nat}, i * 2 ^ s < j * 2 ^ s → i < j := fun h => Nat.lt_of_mul_lt_mul_right h
  constructor
  · intro hlt
    obtain ⟨j, hj⟩ := mult (by
      by_contra hc
      exact absurd (lt_trans hlt (low (by omega))) (not_lt.2 hge))
    rw [hj] at hlt ⊢
    have hjq := succ_mul_le (D := 2 ^ s) (lt_of hlt)
    rw [sum]; apply root_le hr' hst; rw [← sum]
    generalize q * 2 ^ s = Q at *; generalize j * 2 ^ s = J at *; generalize 2 ^ s = D at *
    omega
  · intro hlt
    have cover : ∀ j, q' * 2 ^ s' ≤ j * 2 ^ s → q * 2 ^ s + j * 2 ^ s ≤ 2 * (st * 2 ^ P) →
        (q * 2 ^ s + q' * 2 ^ s') ^ 2 ≤ 4 * (n * (2 ^ (P + 1)) ^ 2) := by
      intro j hj hk
      refine le_trans (Nat.pow_le_pow_left (Nat.add_le_add_left hj _) 2) ?_
      rw [sum] at hk ⊢; exact le_root hr hst hk
    rcases Nat.lt_or_ge s' s with hs | hs
    · refine cover (2 ^ 52) (le_of_lt (low hs)) ?_
      rcases Nat.eq_or_lt_of_le hq with h | h
      · rw [← h]
        generalize 2 ^ 52 * 2 ^ s = Q at *
        omega
      · have := succ_mul_le (D := 2 ^ s) h
        generalize 2 ^ 52 * 2 ^ s = Q at *; generalize q * 2 ^ s = J at *; generalize 2 ^ s = D at *
        omega
    · obtain ⟨j, hj⟩ := mult hs
      refine cover j (le_of_eq hj) ?_
      rw [hj] at hlt
      have := succ_mul_le (D := 2 ^ s) (lt_of hlt)
      generalize q * 2 ^ s = Q at *; generalize j * 2 ^ s = J at *; generalize 2 ^ s = D at *
      omega

/-- What `sqrt` rounds: the integer root of n, of at least 56 bits, where n over a square is the value. -/
theorem rootSticky_spec {x : F64} (hz : isZero x = false) :
    ∃ n r : Nat, 2 ^ 55 ≤ r ∧ r < 2 ^ 82 ∧ r * r ≤ n ∧ n < (r + 1) * (r + 1) ∧
      rootSticky x = 2 * r + (if r * r = n then 0 else 1) ∧
      mag x * one = n * (2 ^ (scale x / 2 + 481 + 1)) ^ 2 := by
  have hsp : 0 < significand x := by
    have := mag_pos_of_not_isZero hz
    unfold mag at this
    exact Nat.pos_of_mul_pos_right this
  have hs2 : significand x < 2 ^ 53 := by
    have := frac_lt x
    unfold significand; split <;> omega
  have hev1 : 1 ≤ evenSignificand x := by
    unfold evenSignificand; exact Nat.mul_pos hsp (Nat.two_pow_pos _)
  have hev2 : evenSignificand x < 2 ^ 54 := by
    unfold evenSignificand
    calc _ ≤ significand x * 2 ^ 1 := Nat.mul_le_mul_left _ (Nat.pow_le_pow_right (by norm_num) (by omega))
      _ < _ := by omega
  have hlt : evenSignificand x * 2 ^ 110 < 2 ^ 54 * 2 ^ 110 := Nat.mul_lt_mul_of_pos_right hev2 (by positivity)
  have hge : 1 * 2 ^ 110 ≤ evenSignificand x * 2 ^ 110 := Nat.mul_le_mul_right _ hev1
  have hi := isqrt_spec 82 (evenSignificand x * 2 ^ 110) (by omega)
  refine ⟨evenSignificand x * 2 ^ 110, isqrt 82 (evenSignificand x * 2 ^ 110), ?_, ?_, hi.1, hi.2, rfl, ?_⟩
  · by_contra hc
    have : isqrt 82 (evenSignificand x * 2 ^ 110) + 1 ≤ 2 ^ 55 := by omega
    have := Nat.mul_le_mul this this
    omega
  · by_contra hc
    have : 2 ^ 82 ≤ isqrt 82 (evenSignificand x * 2 ^ 110) := by omega
    have := Nat.mul_le_mul this this
    omega
  · unfold mag evenSignificand
    obtain ⟨d, hd⟩ : ∃ d, d = 1074 := ⟨_, rfl⟩
    rw [← two_pow_eq_one hd, Nat.mul_assoc, Nat.mul_assoc, Nat.mul_assoc, ← Nat.pow_mul, ← Nat.pow_add, ← Nat.pow_add,
      ← Nat.pow_add]
    congr 2; omega

/-- The 63 low bits of a root, as `round_cases` gives them: the scale is far from either end of the range. -/
theorem round_rootSticky {x : F64} (hz : isZero x = false) :
    ∃ s q, 2 ^ 52 ≤ q ∧ q ≤ 2 ^ 53 ∧ s ≤ 1600 ∧ scale x / 2 + 481 + 2 ≤ s ∧
      round (rootSticky x * 2 ^ (scale x / 2 + 481)) 0 = s * 2 ^ 52 + q ∧
      2 ^ 52 * 2 ^ s ≤ rootSticky x * 2 ^ (scale x / 2 + 481) ∧
      2 * (rootSticky x * 2 ^ (scale x / 2 + 481)) ≤ (2 * q + 1) * 2 ^ s ∧
      2 * q * 2 ^ s ≤ 2 * (rootSticky x * 2 ^ (scale x / 2 + 481)) + 2 ^ s := by
  obtain ⟨n, r, n0, n1, -, -, n4, -⟩ := rootSticky_spec hz
  have hst1 : 2 ^ 56 ≤ rootSticky x := by rw [n4]; omega
  have hst2 : rootSticky x < 2 ^ 83 := by rw [n4]; split <;> omega
  have hsc : scale x ≤ 2046 := by have := expo_lt x; unfold scale; omega
  obtain ⟨s, q, h1, h2, h3, h4, h5, -, h7, h8⟩ := round_cases (rootSticky x * 2 ^ (scale x / 2 + 481)) 0
  rw [Nat.zero_add] at h4 h5 h7 h8
  generalize hP : scale x / 2 + 481 = P at *
  have hsP : P + 2 ≤ s := by
    by_contra hc
    have a : 2 ^ 56 * 2 ^ P ≤ rootSticky x * 2 ^ P := Nat.mul_le_mul_right _ hst1
    have b : 2 ^ 53 * 2 ^ s ≤ 2 ^ 53 * 2 ^ (P + 2) :=
      Nat.mul_le_mul_left _ (Nat.pow_le_pow_right (by norm_num) (by omega))
    rw [Nat.pow_add] at b
    have : 0 < 2 ^ P := Nat.two_pow_pos _
    omega
  have hs0 : s ≠ 0 := by omega
  have hn : 2 ^ 52 * 2 ^ s ≤ rootSticky x * 2 ^ P := h7.resolve_left hs0
  have hsle : s ≤ 1600 := by
    by_contra hc
    have : rootSticky x * 2 ^ P < 2 ^ 83 * 2 ^ P := Nat.mul_lt_mul_of_pos_right hst2 (Nat.two_pow_pos _)
    have e : 2 ^ 83 * 2 ^ P ≤ 2 ^ 52 * 2 ^ s := by
      rw [← Nat.pow_add, ← Nat.pow_add]; exact Nat.pow_le_pow_right (by norm_num) (by omega)
    omega
  refine ⟨s, q, h1.resolve_left hs0, h2, hsle, hsP, ?_, hn, h4, h5⟩
  rw [h3]
  exact Nat.min_eq_right (by unfold infBits; omega)

/-- The root of a positive finite value. -/
theorem sqrt_of_pos {nan x : F64} (hf : isFinite x = true) (hz : isZero x = false) (hs : sign x = false) :
    sqrt nan x = pack false (round (rootSticky x * 2 ^ (scale x / 2 + 481)) 0) := by
  simp [sqrt, not_isNaN_of_isFinite hf, not_isInf_of_isFinite hf, hz, hs]

theorem isFinite_sqrt {nan x : F64} (hf : isFinite x = true) (hz : isZero x = false) (hs : sign x = false) :
    isFinite (sqrt nan x) = true := by
  obtain ⟨s, q, -, hq, hs', -, hr, -⟩ := round_rootSticky hz
  rw [sqrt_of_pos hf hz hs, isFinite_iff, low_pack _ (round_lt _ _), hr]
  unfold infBits; omega

end Sys2Proof.Fp
end

