-- ==== Sys2Proof/Laws/Commands.lean ====
section
/-!
SUPPORT. Laws of the commands' own operations: the constellation, the chunks MOD reads, the noise of AWGN, the scan, the
slicer and the bits of DEMOD; what each command answers where its checks pass; and where a command stops.
-/

namespace Sys2Proof.Machine

/-! The constellation (R160). -/

theorem level_natAbs_lt (o : Order) (k : Nat) (h : k < o.side) : (level o k).natAbs < 2 ^ 53 := by
  cases o <;> simp only [level, Order.side, Order.axisBits] at * <;> omega

theorem level_ne_zero (o : Order) (k : Nat) : level o k ≠ 0 := by
  cases o <;> simp only [level, Order.side, Order.axisBits] <;> omega

theorem Order.size_eq_two_pow (o : Order) : o.size = 2 ^ o.bps := rfl

theorem Order.div_side_lt {o : Order} {idx : Nat} (h : idx < o.size) : idx / o.side < o.side := by
  rw [Order.size_eq] at h; exact Nat.div_lt_of_lt_mul h

theorem Order.mod_side_lt (o : Order) (idx : Nat) : idx % o.side < o.side := Nat.mod_lt _ o.side_pos

/-- A point's components are finite and exact. -/
theorem point_exact (o : Order) (idx : Nat) (h : idx < o.size) :
    Fp.isFinite (point o idx).i = true ∧ Fp.units (point o idx).i = level o (idx / o.side) * Fp.one ∧
      Fp.isFinite (point o idx).q = true ∧ Fp.units (point o idx).q = level o (idx % o.side) * Fp.one := by
  have a := Fp.units_ofInt (level_natAbs_lt o _ (Order.div_side_lt h))
  have b := Fp.units_ofInt (level_natAbs_lt o _ (o.mod_side_lt idx))
  exact ⟨a.2, a.1, b.2, b.1⟩

theorem not_isZero_of_units {x : F64} {o : Order} {k : Nat} (hu : Fp.units x = level o k * Fp.one) :
    Fp.isZero x = false := by
  have hone : (0 : Int) < Fp.one := by exact_mod_cast Fp.one_pos
  by_contra hc
  rw [Fp.units_of_isZero (by simpa using hc)] at hu
  rcases Int.mul_eq_zero.1 hu.symm with h | h
  · exact level_ne_zero _ _ h
  · omega

/-- A point's components are neither zeros nor NaNs. -/
theorem point_classes {o : Order} {idx : Nat} (h : idx < o.size) :
    Fp.isNaN (point o idx).i = false ∧ Fp.isNaN (point o idx).q = false ∧ Fp.isZero (point o idx).i = false ∧
      Fp.isZero (point o idx).q = false := by
  obtain ⟨f1, u1, f2, u2⟩ := point_exact o idx h
  exact ⟨Fp.not_isNaN_of_isFinite f1, Fp.not_isNaN_of_isFinite f2, not_isZero_of_units u1, not_isZero_of_units u2⟩

@[simp] theorem constellation_length (o : Order) : (constellation o).length = o.size := by simp [constellation]

theorem constellation_get? (o : Order) {idx : Nat} (h : idx < o.size) : (constellation o)[idx]? = some (point o idx) := by
  simp [constellation, h]

/-! MOD (R180, R181). -/

theorem loadChunk_eq_some {o : Order} {bits : List (Nat × Bool)} {bit : Nat → Bool} {k : Nat}
    (h : ∀ j, j < o.bps → Memory.get bits (k * o.bps + j) = some (bit (k * o.bps + j))) :
    loadChunk o bits k = some (ofBitsMSB ((List.range o.bps).map fun j => bit (k * o.bps + j))) := by
  rw [loadChunk, Memory.load_eq, collect_eq_map (g := fun j => bit (k * o.bps + j)) _ _ h]; rfl

theorem mul_bps_add_lt {o : Order} {n k j : Nat} (hk : k < n) (hj : j < o.bps) : k * o.bps + j < n * o.bps := by
  calc k * o.bps + j < k * o.bps + o.bps := by omega
    _ = (k + 1) * o.bps := by ring
    _ ≤ n * o.bps := Nat.mul_le_mul_right _ hk

theorem modulate_eq_some {o : Order} {bits : List (Nat × Bool)} {bit : Nat → Bool} {n : Nat}
    (h : ∀ i, i < n * o.bps → Memory.get bits i = some (bit i)) :
    modulate o bits n = some ((List.range n).map fun k =>
      point o (ofBitsMSB ((List.range o.bps).map fun j => bit (k * o.bps + j)))) := by
  have hc := collect_eq_map (f := loadChunk o bits)
    (g := fun k => ofBitsMSB ((List.range o.bps).map fun j => bit (k * o.bps + j))) n 0 fun k hk => by
      rw [Nat.zero_add]
      exact loadChunk_eq_some fun j hj => h _ (mul_bps_add_lt hk hj)
  simp [modulate, hc]

theorem modulate_eq_none {o : Order} {bits : List (Nat × Bool)} {n : Nat}
    (h : ∃ i, i < n * o.bps ∧ Memory.get bits i = none) : modulate o bits n = none := by
  obtain ⟨i, hi, hn⟩ := h
  have hb := o.bps_pos
  have : collect (loadChunk o bits) 0 n = none := by
    rw [collect_eq_none_iff]
    refine ⟨i / o.bps, Nat.div_lt_of_lt_mul (by rwa [Nat.mul_comm]), ?_⟩
    rw [Nat.zero_add, loadChunk, Memory.load_eq, Option.map_eq_none_iff, collect_eq_none_iff]
    refine ⟨i % o.bps, Nat.mod_lt _ hb, ?_⟩
    rw [Nat.mul_comm, Nat.div_add_mod]; exact hn
  simp [modulate, this]

theorem unwritten_of_modulate_eq_none {o : Order} {bits : List (Nat × Bool)} {n : Nat} (h : modulate o bits n = none) :
    ∃ i, i < n * o.bps ∧ Memory.get bits i = none := by
  rw [modulate, Option.map_eq_none_iff, collect_eq_none_iff] at h
  obtain ⟨k, hk, h⟩ := h
  rw [Nat.zero_add, loadChunk, Memory.load_eq, Option.map_eq_none_iff, collect_eq_none_iff] at h
  obtain ⟨j, hj, h⟩ := h
  exact ⟨_, mul_bps_add_lt hk hj, h⟩

theorem modulate_length {o : Order} {bits : List (Nat × Bool)} {n : Nat} {zs : List Symbol}
    (h : modulate o bits n = some zs) : zs.length = n := by
  unfold modulate at h
  rw [Option.map_eq_some_iff] at h
  obtain ⟨idxs, h, rfl⟩ := h
  rw [List.length_map]
  exact ((collect_eq_some_iff _ _ _).1 h).1

/-- MOD past its checks. -/
theorem exec_mod {s : State} {L : Latch} {o : Order} (hL : s.engine = some L) (ho : modOrder L.m = some o)
    (h1 : L.len.toNat % o.bps = 0) (h2 : L.len.toNat ≤ s.params.bitCap) (h3 : L.len.toNat / o.bps ≤ s.params.symCap) :
    exec .mod s = match modulate o s.bitin (L.len.toNat / o.bps) with
      | none => .fault .unwrittenOperand
      | some zs => complete (modulated s (L.len.toNat / o.bps) zs) := by
  cases h : modulate o s.bitin (L.len.toNat / o.bps) <;>
    (simp only [exec, execMod, withCommand, hL, withOrder, ho, h]; rw [if_neg (by omega), if_neg (by omega)])

/-- Bit j of the chunk value of b bits. -/
theorem testBit_ofBitsMSB {b k j : Nat} {bit : Nat → Bool} (hj : j < b) :
    (ofBitsMSB ((List.range b).map fun j => bit (k + j))).testBit (b - 1 - j) = bit (k + j) := by
  have h := bitsMSB_ofBitsMSB ((List.range b).map fun j => bit (k + j))
  rw [List.length_map, List.length_range] at h
  have h2 := bitsMSB_getElem? b (ofBitsMSB ((List.range b).map fun j => bit (k + j))) j hj
  rw [h] at h2
  simp [hj] at h2
  exact h2.symm

theorem chunk_lt (o : Order) (bit : Nat → Bool) (k : Nat) :
    ofBitsMSB ((List.range o.bps).map fun j => bit (k + j)) < o.size := by
  have := ofBitsMSB_lt ((List.range o.bps).map fun j => bit (k + j))
  rwa [List.length_map, List.length_range] at this

/-! The noise channel (R201 to R206). -/

theorem isFinite_of_isZero {v : F64} (h : Fp.isZero v = true) : Fp.isFinite v = true := by
  rw [Fp.isFinite_iff, (Fp.isZero_iff v).1 h]; decide

/-- R201 in exact arithmetic: finite and not negative. -/
theorem validVar_iff (v : F64) : validVar v = true ↔ Fp.isFinite v = true ∧ 0 ≤ Fp.units v := by
  simp only [validVar, Bool.and_eq_true, Bool.not_eq_true', Bool.or_eq_true]
  constructor
  · rintro ⟨⟨h1, h2⟩, h3⟩
    refine ⟨Fp.isFinite_of_not h1 h3, ?_⟩
    rcases h2 with h2 | h2
    · unfold Fp.units; rw [h2]; simp
    · rw [Fp.units_of_isZero h2]
  · rintro ⟨h1, h2⟩
    refine ⟨⟨Fp.not_isNaN_of_isFinite h1, ?_⟩, Fp.not_isInf_of_isFinite h1⟩
    by_contra hc
    rw [not_or] at hc
    have hz : Fp.isZero v = false := by simpa using hc.2
    have hs : Fp.sign v = true := by simpa using hc.1
    have := Fp.mag_pos_of_not_isZero hz
    unfold Fp.units at h2
    rw [hs] at h2; simp at h2; omega

theorem sign_of_validVar {v : F64} (h : validVar v = true) (hz : Fp.isZero v = false) : Fp.sign v = false := by
  simp only [validVar, Bool.and_eq_true, Bool.not_eq_true', Bool.or_eq_true] at h
  rcases h.1.2 with h | h
  · exact h
  · rw [hz] at h; cases h

/-- The root of a valid variance is finite, and no NaN asked for shows in it. -/
theorem isFinite_sqrt_of_validVar {v : F64} (nan : F64) (h : validVar v = true) : Fp.isFinite (Fp.sqrt nan v) = true := by
  have hf := ((validVar_iff v).1 h).1
  by_cases hz : Fp.isZero v = true
  · rw [Fp.sqrt_of_isZero hz]; exact hf
  · have hz : Fp.isZero v = false := by simpa using hz
    exact Fp.isFinite_sqrt hf hz (sign_of_validVar h hz)

theorem sqrt_nan_irrelevant {v : F64} (nan nan' : F64) (h : validVar v = true) : Fp.sqrt nan v = Fp.sqrt nan' v := by
  have hf := ((validVar_iff v).1 h).1
  by_cases hz : Fp.isZero v = true
  · rw [Fp.sqrt_of_isZero hz, Fp.sqrt_of_isZero hz]
  · have hz : Fp.isZero v = false := by simpa using hz
    have hs := sign_of_validVar h hz
    rw [Fp.sqrt_of_pos hf hz hs, Fp.sqrt_of_pos hf hz hs]

theorem isFinite_draw (g : Config.Gen) (n : Nat) : Fp.isFinite (draw g n) = true := Fp.isFinite_bits _

/-- The noise term of a valid variance, whatever NaN the operations are asked for. -/
theorem noiseTerm_eq {v : F64} (nan : F64) (h : validVar v = true) (g : Config.Gen) (n : Nat) :
    noiseTerm (sigmaOf v) (draw g n) = Fp.mul nan (Fp.sqrt nan v) (draw g n) := by
  unfold noiseTerm sigmaOf
  rw [sqrt_nan_irrelevant v nan h, Fp.mul_of_finite (isFinite_sqrt_of_validVar nan h) (isFinite_draw g n),
    Fp.mul_of_finite (isFinite_sqrt_of_validVar nan h) (isFinite_draw g n)]

theorem not_isNaN_noiseTerm {v : F64} (h : validVar v = true) (g : Config.Gen) (n : Nat) :
    Fp.isNaN (noiseTerm (sigmaOf v) (draw g n)) = false :=
  Fp.not_isNaN_mul (isFinite_sqrt_of_validVar v h) (isFinite_draw g n)

/-- At a zero variance every noise term is a zero. -/
theorem isZero_noiseTerm {v : F64} (h : Fp.isZero v = true) (g : Config.Gen) (n : Nat) :
    Fp.isZero (noiseTerm (sigmaOf v) (draw g n)) = true := by
  unfold noiseTerm sigmaOf
  rw [Fp.sqrt_of_isZero h]
  exact Fp.mul_zero_left h (isFinite_draw g n)

theorem genAfter_genAfter (g : Config.Gen) (m : Nat) : ∀ n, genAfter (genAfter g m) n = genAfter g (m + n)
  | 0 => rfl
  | n + 1 => by rw [← Nat.add_assoc]; simp only [genAfter, genAfter_genAfter g m n]

@[simp] theorem noisySymbols_length (g : Config.Gen) (sigma : F64) :
    ∀ (zs : List Symbol) (k : Nat), (noisySymbols g sigma k zs).length = zs.length
  | [], _ => rfl
  | z :: zs, k => by simp [noisySymbols, noisySymbols_length g sigma zs]

theorem noisySymbols_get? (g : Config.Gen) (sigma : F64) :
    ∀ (zs : List Symbol) (k i : Nat), (noisySymbols g sigma k zs)[i]? = (zs[i]?).map (noisySymbol g sigma (k + i))
  | [], _, _ => by simp [noisySymbols]
  | z :: zs, k, 0 => by simp [noisySymbols]
  | z :: zs, k, i + 1 => by
    simp only [noisySymbols, List.getElem?_cons_succ, noisySymbols_get? g sigma zs]
    congr 2; omega

/-- AWGN past its checks. -/
theorem exec_awgn {s : State} {L : Latch} (hL : s.engine = some L) (hv : validVar L.var = true)
    (hn : L.symcnt.toNat ≤ s.params.symCap) :
    exec .awgn s = match collect (loadSymbol s.clean) 0 L.symcnt.toNat with
      | none => .fault .unwrittenOperand
      | some zs => complete (noised s L.symcnt.toNat (noisySymbols s.rng (sigmaOf L.var) 0 zs)) := by
  cases h : collect (loadSymbol s.clean) 0 L.symcnt.toNat <;>
    (simp only [exec, execAwgn, withCommand, hL, hv, h]; rw [if_neg (by simp), if_neg (by omega)])

/-- What a successful AWGN did. -/
theorem exec_awgn_ok {s t : State} {L : Latch} (hL : s.engine = some L) (h : exec .awgn s = .next t) (he : t.err = .ok) :
    ∃ zs, validVar L.var = true ∧ L.symcnt.toNat ≤ s.params.symCap ∧
      collect (loadSymbol s.clean) 0 L.symcnt.toNat = some zs ∧
      t = finish (noised s L.symcnt.toNat (noisySymbols s.rng (sigmaOf L.var) 0 zs)) .ok 0 := by
  obtain ⟨L', hL', h⟩ := exec_next h
  rw [hL] at hL'; cases hL'
  rcases h with ⟨w, ⟨zs, a, b, c, rfl⟩, rfl⟩ | ⟨e, j, h1, rfl, _⟩
  · exact ⟨zs, a, b, c, rfl⟩
  · simp at he; exact absurd he h1

/-- The noisy entry of a clean entry. -/
theorem loadSymbol_noisy {l r : List Host.Cell} {g : Config.Gen} {sigma : F64} {n k : Nat} {zs : List Symbol} {z : Symbol}
    (hc : collect (loadSymbol l) 0 n = some zs) (hk : k < n) (hz : loadSymbol l k = some z) :
    loadSymbol (storeSymbols r (noisySymbols g sigma 0 zs)) k = some (noisySymbol g sigma k z) := by
  obtain ⟨hl, hg⟩ := (collect_eq_some_iff _ _ _).1 hc
  have := hg k hk
  rw [Nat.zero_add, hz] at this
  rw [loadSymbol_storeSymbols, if_pos (by rw [noisySymbols_length]; omega), noisySymbols_get?, ← this]
  simp

/-! The slicer (R234, R235). -/

/-- A predicate that holds below wherever it holds splits a run at its count. -/
theorem countP_range_split (p : Nat → Bool) (hp : ∀ i j, i ≤ j → p j = true → p i = true) (n : Nat) :
    (∀ j, j < (List.range n).countP p → p j = true) ∧ ∀ j, (List.range n).countP p ≤ j → j < n → p j = false := by
  induction n with
  | zero => simp
  | succ n ih =>
    rw [List.range_succ, List.countP_append]
    by_cases h : p n = true
    · have : (List.range n).countP p = n := by
        have := List.countP_eq_length (p := p) (l := List.range n)
        rw [List.length_range] at this
        rw [this]; intro a ha; exact hp a n (by simp at ha; omega) h
      simp only [this, List.countP_singleton, h, if_true]
      exact ⟨fun j hj => hp j n (by omega) h, fun j h1 h2 => by omega⟩
    · have h : p n = false := by simpa using h
      simp only [List.countP_singleton, h, Bool.false_eq_true, if_false, Nat.add_zero]
      refine ⟨ih.1, fun j h1 h2 => ?_⟩
      rcases Nat.lt_or_ge j n with h3 | h3
      · exact ih.2 j h1 h3
      · rw [show j = n by omega]; exact h

theorem above_of_finite {x : F64} (h : Fp.isFinite x = true) (t : Int) :
    Fp.above x t = decide (t * (Fp.one : Int) < Fp.units x) := by
  simp [Fp.above, Fp.not_isNaN_of_isFinite h, Fp.not_isInf_of_isFinite h]

theorem slice_lt (o : Order) (x : F64) : slice o x < o.side := by
  have h : slice o x ≤ (List.range (o.side - 1)).length := List.countP_le_length
  have := o.side_pos
  rw [List.length_range] at h; omega

/-- The slice of a finite value splits the midpoints into those below it and the rest. -/
theorem slice_spec (o : Order) {x : F64} (h : Fp.isFinite x = true) :
    (∀ j, j < slice o x → threshold o j * (Fp.one : Int) < Fp.units x) ∧
      ∀ j, slice o x ≤ j → j < o.side - 1 → Fp.units x ≤ threshold o j * (Fp.one : Int) := by
  have hone : (0 : Int) < Fp.one := by exact_mod_cast Fp.one_pos
  have := countP_range_split (fun j => Fp.above x (threshold o j)) (by
    intro i j hij hj
    simp only [above_of_finite h, decide_eq_true_eq] at *
    refine lt_of_le_of_lt ?_ hj
    refine Int.mul_le_mul_of_nonneg_right ?_ hone.le
    unfold threshold; omega) (o.side - 1)
  refine ⟨fun j hj => ?_, fun j h1 h2 => ?_⟩
  · have := this.1 j hj
    simpa [above_of_finite h] using this
  · have := this.2 j h1 h2
    simpa [above_of_finite h] using this

/-- The slice of a level is its axis value. -/
theorem slice_of_units {o : Order} {x : F64} {k : Nat} (hf : Fp.isFinite x = true) (hk : k < o.side)
    (hu : Fp.units x = level o k * Fp.one) : slice o x = k := by
  have hone : (0 : Int) < Fp.one := by exact_mod_cast Fp.one_pos
  obtain ⟨h1, h2⟩ := slice_spec o hf
  have hl := slice_lt o x
  rw [hu] at h1 h2
  rcases Nat.lt_trichotomy (slice o x) k with h | h | h
  · have := Int.le_of_mul_le_mul_right (h2 (slice o x) le_rfl (by omega)) hone
    unfold level threshold at this; omega
  · exact h
  · have := Int.lt_of_mul_lt_mul_right (h1 k h) hone.le
    unfold level threshold at this; omega

theorem decideIndex_lt (o : Order) (z : Symbol) : decideIndex o z < o.size := by
  have h1 := slice_lt o z.i
  have h2 := slice_lt o z.q
  rw [o.size_eq, decideIndex]; nlinarith

/-- DEMOD of a point returns its index. -/
theorem decideIndex_point (o : Order) (idx : Nat) (h : idx < o.size) : decideIndex o (point o idx) = idx := by
  obtain ⟨f1, u1, f2, u2⟩ := point_exact o idx h
  rw [decideIndex, slice_of_units f1 (Order.div_side_lt h) u1, slice_of_units f2 (o.mod_side_lt idx) u2, Nat.mul_comm,
    Nat.div_add_mod]

/-! The scan and the bits of DEMOD (R232, R233). -/

theorem hasNaN_eq_false {z : Symbol} : z.hasNaN = false ↔ Fp.isNaN z.i = false ∧ Fp.isNaN z.q = false := by
  simp [Symbol.hasNaN]

theorem scan_eq_clear {l : List Host.Cell} {z : Nat → Symbol} :
    ∀ (n k : Nat), (∀ i, i < n → loadSymbol l (k + i) = some (z (k + i)) ∧ (z (k + i)).hasNaN = false) →
      scan l k n = .clear ((List.range n).map fun i => z (k + i))
  | 0, k, _ => rfl
  | n + 1, k, h => by
    have h0 := h 0 (by omega)
    rw [Nat.add_zero] at h0
    have ih := scan_eq_clear (z := z) (l := l) n (k + 1) fun i hi => by
      have := h (i + 1) (by omega)
      rwa [show k + (i + 1) = k + 1 + i by omega] at this
    simp only [scan, h0.1, h0.2, Bool.false_eq_true, if_false, ih, List.range_succ_eq_map, List.map_cons, List.map_map,
      Nat.add_zero]
    congr 2
    apply List.map_congr_left
    intro i _
    simp only [Function.comp]; congr 1; omega

/-- The scan stops at the first entry that was never written or has a NaN. -/
theorem scan_stops {l : List Host.Cell} {z : Nat → Symbol} {d : Nat} :
    ∀ (n k : Nat), d < n →
      (∀ i, i < d → loadSymbol l (k + i) = some (z (k + i)) ∧ (z (k + i)).hasNaN = false) →
      (loadSymbol l (k + d) = none → scan l k n = .unwritten) ∧
        (loadSymbol l (k + d) = some (z (k + d)) → (z (k + d)).hasNaN = true → scan l k n = .nan (k + d)) := by
  induction d with
  | zero =>
    intro n k hd h
    obtain ⟨n, rfl⟩ : ∃ m, n = m + 1 := ⟨n - 1, by omega⟩
    rw [Nat.add_zero]
    exact ⟨fun h => by simp only [scan, h], fun h1 h2 => by simp [scan, h1, h2]⟩
  | succ d ih =>
    intro n k hd h
    obtain ⟨n, rfl⟩ : ∃ m, n = m + 1 := ⟨n - 1, by omega⟩
    have h0 := h 0 (by omega)
    rw [Nat.add_zero] at h0
    have := ih n (k + 1) (by omega) fun i hi => by
      have := h (i + 1) (by omega)
      rwa [show k + (i + 1) = k + 1 + i by omega] at this
    rw [show k + 1 + d = k + (d + 1) by omega] at this
    refine ⟨fun e => ?_, fun e1 e2 => ?_⟩
    · simp only [scan, h0.1, h0.2, Bool.false_eq_true, if_false, this.1 e]
    · simp only [scan, h0.1, h0.2, Bool.false_eq_true, if_false, this.2 e1 e2]

theorem unwritten_of_scan {l : List Host.Cell} :
    ∀ {n k : Nat}, scan l k n = .unwritten → ∃ i, i < n ∧ loadSymbol l (k + i) = none
  | 0, k, h => by cases h
  | n + 1, k, h => by
    simp only [scan] at h
    split at h
    · exact ⟨0, by omega, by assumption⟩
    · split at h
      · cases h
      · split at h
        · obtain ⟨i, hi, hn⟩ := unwritten_of_scan (by assumption)
          exact ⟨i + 1, by omega, by rw [← Nat.add_assoc, Nat.add_right_comm]; exact hn⟩
        · cases h
        · cases h

theorem scan_length {l : List Host.Cell} : ∀ {n k : Nat} {zs : List Symbol}, scan l k n = .clear zs → zs.length = n
  | 0, k, zs, h => by cases h; rfl
  | n + 1, k, zs, h => by
    simp only [scan] at h
    split at h
    · cases h
    · split at h
      · cases h
      · split at h
        · cases h
        · cases h
        · rename_i hs
          cases h; rw [List.length_cons, scan_length hs]

theorem demodulate_cons (o : Order) (z : Symbol) (zs : List Symbol) :
    demodulate o (z :: zs) = bitsMSB o.bps (decideIndex o z) ++ demodulate o zs := rfl

@[simp] theorem demodulate_length (o : Order) (zs : List Symbol) : (demodulate o zs).length = zs.length * o.bps := by
  induction zs with
  | nil => simp [demodulate]
  | cons z zs ih => rw [demodulate_cons]; simp [ih]; ring

/-- Bit j of symbol k (R232). -/
theorem demodulate_get? (o : Order) :
    ∀ (zs : List Symbol) (k j : Nat) (z : Symbol), zs[k]? = some z → j < o.bps →
      (demodulate o zs)[k * o.bps + j]? = some ((decideIndex o z).testBit (o.bps - 1 - j))
  | [], k, j, z, h, _ => by simp at h
  | w :: zs, 0, j, z, h, hj => by
    simp at h; subst h
    rw [demodulate_cons, Nat.zero_mul, Nat.zero_add, List.getElem?_append_left (by simpa using hj),
      bitsMSB_getElem? _ _ _ hj]
  | w :: zs, k + 1, j, z, h, hj => by
    have he : (k + 1) * o.bps + j = o.bps + (k * o.bps + j) := by ring
    rw [demodulate_cons, he, List.getElem?_append_right (by simp), bitsMSB_length, Nat.add_sub_cancel_left,
      demodulate_get? o zs k j z (by simpa using h) hj]

/-- DEMOD past its checks. -/
theorem exec_demod {src : Source} {s : State} {L : Latch} {o : Order} (hL : s.engine = some L)
    (ho : modOrder L.m = some o) (h1 : L.symcnt.toNat ≤ s.params.symCap)
    (h2 : L.symcnt.toNat * o.bps ≤ s.params.bitCap) :
    exec (.demod src) s = match scan (sourceBuffer s src) 0 L.symcnt.toNat with
      | .unwritten => .fault .unwrittenOperand
      | .nan k => raise s .nonFiniteSymbol k
      | .clear zs => complete (demodulated s o L.symcnt.toNat zs) := by
  cases h : scan (sourceBuffer s src) 0 L.symcnt.toNat <;>
    (simp only [exec, execDemod, withCommand, hL, withOrder, ho, h]; rw [if_neg (by omega)])

/-! Where a command stops. -/

/-- A command in flight runs to a next state or stops at a cell it reads that was never written (R49). -/
theorem exec_answers (i : Instr) {s : State} {L : Latch} (hL : s.engine = some L) :
    (∃ t, exec i s = .next t) ∨ (exec i s = .fault .unwrittenOperand ∧ readsUnwritten s L i) := by
  cases i with
  | nop => simp only [exec, execNop, withCommand_of_busy hL]; exact Or.inl ⟨_, rfl⟩
  | seed => simp only [exec, execSeed, withCommand_of_busy hL]; exact Or.inl ⟨_, rfl⟩
  | const =>
    simp only [exec, execConst, withCommand_of_busy hL, withOrder]
    split <;> exact Or.inl ⟨_, rfl⟩
  | mod =>
    simp only [exec, execMod, withCommand_of_busy hL, withOrder]
    split
    · exact Or.inl ⟨_, rfl⟩
    · rename_i o _
      split
      · exact Or.inl ⟨_, rfl⟩
      · split
        · exact Or.inl ⟨_, rfl⟩
        · split
          · obtain ⟨j, hj, hn⟩ := unwritten_of_modulate_eq_none (by assumption)
            exact Or.inr ⟨rfl, j, Nat.lt_of_lt_of_le hj (Nat.div_mul_le_self _ _), hn⟩
          · exact Or.inl ⟨_, rfl⟩
  | awgn =>
    simp only [exec, execAwgn, withCommand_of_busy hL]
    split
    · exact Or.inl ⟨_, rfl⟩
    · split
      · exact Or.inl ⟨_, rfl⟩
      · split
        · rename_i hc
          obtain ⟨k, hk, hn⟩ := (collect_eq_none_iff _ _).1 hc
          exact Or.inr ⟨rfl, k, hk, by rwa [Nat.zero_add] at hn⟩
        · exact Or.inl ⟨_, rfl⟩
  | demod src =>
    simp only [exec, execDemod, withCommand_of_busy hL, withOrder]
    split
    · exact Or.inl ⟨_, rfl⟩
    · split
      · exact Or.inl ⟨_, rfl⟩
      · split
        · obtain ⟨k, hk, hn⟩ := unwritten_of_scan (by assumption)
          exact Or.inr ⟨rfl, k, hk, by rwa [Nat.zero_add] at hn⟩
        · exact Or.inl ⟨_, rfl⟩
        · exact Or.inl ⟨_, rfl⟩

end Sys2Proof.Machine
end

