-- ==== Sys2Proof/Laws/PerInstr.lean ====
section
/-!
SUPPORT. Per-instruction families: what is said of every constructor of Instr, one lemma each.
-/

namespace Sys2Proof.Laws.RoundTrip

/-- The decoder reads from the command's word the command, and the command is well formed. -/
def Statement (i : Instr) : Prop := i.wf = true ∧ decode (encode i) = .ok i

theorem nop : Statement .nop := by unfold Statement; decide
theorem const : Statement .const := by unfold Statement; decide
theorem mod : Statement .mod := by unfold Statement; decide
theorem awgn : Statement .awgn := by unfold Statement; decide
theorem demod (src : Source) : Statement (.demod src) := by cases src <;> (unfold Statement; decide)
theorem seed : Statement .seed := by unfold Statement; decide

end Sys2Proof.Laws.RoundTrip
end

