-- ==== Sys2Proof/Laws/Port.lean ====
section
/-!
SUPPORT. Laws of the host port: where the address map sends an offset, and what an access does there.
-/

namespace Sys2Proof.Machine

/-! The address map (R72). -/

theorem regAt_offset (r : Reg) : regAt (Reg.offset r) = some r := by cases r <;> decide

theorem regAt_eq_some {a : Nat} {r : Reg} (h : regAt a = some r) : a = Reg.offset r := by
  have := List.find?_some h
  simpa [eq_comm] using this

/-- The registers stand at the multiples of 4 below 0x3C. -/
theorem regAt_eq_none_iff (a : Nat) : regAt a = none ↔ ¬ (a < 0x3C ∧ a % 4 = 0) := by
  constructor
  · rintro h ⟨h1, h2⟩
    obtain ⟨k, rfl⟩ : ∃ k, a = 4 * k := ⟨a / 4, by omega⟩
    have hk : k < 15 := by omega
    have all : ∀ j : Fin 15, regAt (4 * j.val) ≠ none := by decide
    exact all ⟨k, hk⟩ h
  · intro h
    cases hr : regAt a with
    | none => rfl
    | some r =>
      exfalso; apply h
      rw [regAt_eq_some hr]
      cases r <;> decide

theorem wf_iff (p : Config.Params) :
    p.wf = true ↔ 64 ≤ p.symCap ∧ p.symCap ≤ 2 ^ 18 ∧ 32 ≤ p.bitCap ∧ p.bitCap ≤ 2 ^ 23 ∧ p.bitCap % 32 = 0 := by
  simp only [Config.Params.wf, Bool.and_eq_true, decide_eq_true_eq]
  tauto

theorem Buf.base_add_bytes_lt {p : Config.Params} (hp : p.wf = true) (b : Buf) : Buf.base b + Buf.bytes p b ≤ 2 ^ 24 := by
  obtain ⟨h1, h2, h3, h4, h5⟩ := (wf_iff p).1 hp
  cases b <;> simp only [Buf.base, Buf.bytes] <;> omega

theorem locate_reg (p : Config.Params) (r : Reg) : locate p (Reg.offset r) = some (.reg r) := by
  simp only [locate, regAt_offset]

/-- A byte of a window is found there: the windows do not overlap, nor do they meet the registers. -/
theorem locate_window {p : Config.Params} (hp : p.wf = true) (b : Buf) {off : Nat} (ho : off < Buf.bytes p b) :
    locate p (Buf.base b + off) = some (.window b off) := by
  obtain ⟨h1, h2, h3, h4, h5⟩ := (wf_iff p).1 hp
  have hr : regAt (Buf.base b + off) = none := by
    rw [regAt_eq_none_iff]; cases b <;> simp only [Buf.base] <;> omega
  have hb : bufAt p (Buf.base b + off) = some b := by
    have key : (fun b' => decide (Buf.base b' ≤ Buf.base b + off) &&
        decide (Buf.base b + off < Buf.base b' + Buf.bytes p b')) = fun b' => decide (b' = b) := by
      funext b'
      rw [← Bool.decide_and]
      apply decide_eq_decide.2
      cases b <;> cases b' <;> simp only [Buf.base, Buf.bytes, reduceCtorEq, iff_true, iff_false] at ho ⊢ <;> omega
    rw [bufAt, key]
    cases b <;> rfl
  simp only [locate, hr, hb, Nat.add_sub_cancel_left]

theorem bufAt_eq_some {p : Config.Params} {a : Nat} {b : Buf} (h : bufAt p a = some b) :
    Buf.base b ≤ a ∧ a < Buf.base b + Buf.bytes p b := by
  have := List.find?_some h
  simpa using this

theorem locate_eq_window {p : Config.Params} {a : Nat} {b : Buf} {off : Nat} (h : locate p a = some (.window b off)) :
    Buf.base b ≤ a ∧ off = a - Buf.base b ∧ off < Buf.bytes p b := by
  unfold locate at h
  split at h
  · cases h
  · split at h
    · cases h
      have := bufAt_eq_some (by assumption)
      omega
    · cases h

theorem locate_eq_reg {p : Config.Params} {a : Nat} {r : Reg} (h : locate p a = some (.reg r)) : a = Reg.offset r := by
  unfold locate at h
  split at h
  · cases h; exact regAt_eq_some (by assumption)
  · split at h <;> cases h

/-- An offset is unmapped when it is no register's and in no window (R72). -/
theorem locate_eq_none_iff (p : Config.Params) (a : Nat) :
    locate p a = none ↔ ¬ (a < 0x3C ∧ a % 4 = 0) ∧ ∀ b, ¬ (Buf.base b ≤ a ∧ a < Buf.base b + Buf.bytes p b) := by
  rw [← regAt_eq_none_iff]
  unfold locate
  cases hr : regAt a with
  | some r => simp
  | none =>
    cases hb : bufAt p a with
    | some b =>
      simp only [reduceCtorEq, true_and, false_iff, not_forall, not_not]
      exact ⟨b, bufAt_eq_some hb⟩
    | none =>
      have hb' := List.find?_eq_none.1 hb
      simp only [true_and, true_iff]
      intro b hc
      have : b ∈ allBufs := by cases b <;> decide
      exact hb' b this (by simp [hc.1, hc.2])

/-! One access. -/

theorem illegalShape_word {n : Nat} (h : n % 4 = 0) (hn : n < 2 ^ 24) (w : Option Word) :
    illegalShape ⟨BitVec.ofNat 24 n, 0xF#4, w⟩ = none := by
  simp only [illegalShape, BitVec.toNat_ofNat, Nat.mod_eq_of_lt hn, h, ne_eq, not_true_eq_false, if_false]

theorem Reg.offset_lt (r : Reg) : Reg.offset r < 2 ^ 24 := by cases r <;> decide

theorem Reg.offset_mod (r : Reg) : Reg.offset r % 4 = 0 := by cases r <;> decide

/-- A word write of a register. -/
theorem performAccess_writeReg (s : State) (r : Reg) (w : Word) :
    performAccess s ⟨BitVec.ofNat 24 (Reg.offset r), 0xF#4, some w⟩ = .next (writeReg s r w) := by
  simp only [performAccess, illegalShape_word (Reg.offset_mod r) (Reg.offset_lt r), BitVec.toNat_ofNat,
    Nat.mod_eq_of_lt (Reg.offset_lt r), locate_reg, writeTarget]

/-- A word read of a register. -/
theorem performAccess_readReg (s : State) (r : Reg) :
    performAccess s ⟨BitVec.ofNat 24 (Reg.offset r), 0xF#4, none⟩ = .next (returned s (readReg s r)) := by
  simp only [performAccess, illegalShape_word (Reg.offset_mod r) (Reg.offset_lt r), BitVec.toNat_ofNat,
    Nat.mod_eq_of_lt (Reg.offset_lt r), locate_reg, readTarget]

theorem Buf.base_mod (b : Buf) : Buf.base b % 4 = 0 := by cases b <;> decide

/-- A word write of a buffer while no command is in flight. -/
theorem performAccess_writeBuf {s : State} (hp : s.params.wf = true) (he : s.engine = none) (b : Buf) {off : Nat}
    (ho : off < Buf.bytes s.params b) (hm : off % 4 = 0) (w : Word) :
    performAccess s ⟨BitVec.ofNat 24 (Buf.base b + off), 0xF#4, some w⟩ = .next (writeBuf s b off w) := by
  have hlt : Buf.base b + off < 2 ^ 24 := by have := Buf.base_add_bytes_lt hp b; omega
  have hmod : (Buf.base b + off) % 4 = 0 := by have := Buf.base_mod b; omega
  simp only [performAccess, illegalShape_word hmod hlt, BitVec.toNat_ofNat, Nat.mod_eq_of_lt hlt,
    locate_window hp b ho, writeTarget, State.busy, he, Option.isSome_none, Bool.false_eq_true, if_false]

/-- A word read of a buffer while no command is in flight. -/
theorem performAccess_readBuf {s : State} (hp : s.params.wf = true) (he : s.engine = none) (b : Buf) {off : Nat}
    (ho : off < Buf.bytes s.params b) (hm : off % 4 = 0) {w : Word} (hw : readBuf s b off = some w) :
    performAccess s ⟨BitVec.ofNat 24 (Buf.base b + off), 0xF#4, none⟩ = .next (returned s w) := by
  have hlt : Buf.base b + off < 2 ^ 24 := by have := Buf.base_add_bytes_lt hp b; omega
  have hmod : (Buf.base b + off) % 4 = 0 := by have := Buf.base_mod b; omega
  simp only [performAccess, illegalShape_word hmod hlt, BitVec.toNat_ofNat, Nat.mod_eq_of_lt hlt,
    locate_window hp b ho, readTarget, State.busy, he, Option.isSome_none, Bool.false_eq_true, if_false, hw]

/-- A word read of a buffer word with an unwritten part while no command is in flight (R49). -/
theorem performAccess_readBuf_none {s : State} (hp : s.params.wf = true) (he : s.engine = none) (b : Buf) {off : Nat}
    (ho : off < Buf.bytes s.params b) (hm : off % 4 = 0) (hw : readBuf s b off = none) :
    performAccess s ⟨BitVec.ofNat 24 (Buf.base b + off), 0xF#4, none⟩ = .fault .unwrittenHostRead := by
  have hlt : Buf.base b + off < 2 ^ 24 := by have := Buf.base_add_bytes_lt hp b; omega
  have hmod : (Buf.base b + off) % 4 = 0 := by have := Buf.base_mod b; omega
  simp only [performAccess, illegalShape_word hmod hlt, BitVec.toNat_ofNat, Nat.mod_eq_of_lt hlt,
    locate_window hp b ho, readTarget, State.busy, he, Option.isSome_none, Bool.false_eq_true, if_false, hw]

/-! Registers. -/

theorem offer_of_idle {s : State} (h : s.engine = none) (c : Word) : offer s c = accept s c := by
  simp only [offer, h]

theorem offer_of_busy {s : State} {L : Latch} (h : s.engine = some L) (c : Word) :
    offer s c = { s with drop := true } := by
  simp only [offer, h]

theorem writeReg_params (s : State) (r : Reg) (w : Word) : (writeReg s r w).params = s.params := by
  cases r
  case cmd =>
    simp only [writeReg]
    cases he : s.engine with
    | none => rw [offer_of_idle he]; rfl
    | some L => rw [offer_of_busy he]
  case status => simp only [writeReg, writeStatus]; split <;> rfl
  all_goals rfl

/-- A register write done twice is one done once, but at CMD (R79). -/
theorem writeReg_writeReg (s : State) {r : Reg} (h : r ≠ .cmd) (w : Word) :
    writeReg (writeReg s r w) r w = writeReg s r w := by
  cases r
  case cmd => exact absurd rfl h
  case status =>
    simp only [writeReg, writeStatus]
    cases w.getLsbD 1 <;> cases w.getLsbD 2 <;> simp [acknowledge]
  all_goals rfl

/-! Buffer words. -/

theorem writeBuf_writeBuf (s : State) (b : Buf) (off : Nat) (w : Word) :
    writeBuf (writeBuf s b off w) b off w = writeBuf s b off w := by
  cases b <;> simp only [writeBuf, storeBitWord, storeByteWord, Memory.store_store]

/-- A word written to a bit buffer, bit by bit (R75). -/
theorem get_storeBitWord (l : List (Nat × Bool)) (w : Nat) (v : Word) :
    (∀ j, j < 32 → Memory.get (storeBitWord l (4 * w) v) (32 * w + j) = some (v.getLsbD (31 - j))) ∧
      ∀ i, i / 32 ≠ w → Memory.get (storeBitWord l (4 * w) v) i = Memory.get l i := by
  unfold storeBitWord
  constructor
  · intro j hj
    rw [Memory.get_store, if_pos ⟨by omega, by simp; omega⟩, show 32 * w + j - 8 * (4 * w) = j by omega,
      bitsMSB_getElem? _ _ _ hj]
    rfl
  · intro i hi
    rw [Memory.get_store, if_neg (by simp; omega)]

/-- A word read from a bit buffer whose 32 bits were written (R75). -/
theorem loadBitWord_eq_some {l : List (Nat × Bool)} {w : Nat} {bit : Nat → Bool}
    (h : ∀ j, j < 32 → Memory.get l (32 * w + j) = some (bit j)) :
    ∃ r : Word, (∀ j, j < 32 → r.getLsbD (31 - j) = bit j) ∧ loadBitWord l (4 * w) = some r := by
  have hc := collect_eq_map (f := Memory.get l) (g := bit) 32 (8 * (4 * w)) fun i hi => by
    rw [show 8 * (4 * w) + i = 32 * w + i by omega]; exact h i hi
  refine ⟨BitVec.ofNat 32 (ofBitsMSB ((List.range 32).map bit)), ?_, ?_⟩
  · intro j hj
    have h1 := bitsMSB_ofBitsMSB ((List.range 32).map bit)
    rw [List.length_map, List.length_range] at h1
    have h2 := bitsMSB_getElem? 32 (ofBitsMSB ((List.range 32).map bit)) j hj
    rw [h1] at h2
    simp [hj] at h2
    rw [h2, BitVec.getLsbD, BitVec.toNat_ofNat, Nat.testBit_mod_two_pow]
    simp; omega
  · rw [loadBitWord, Memory.load_eq, hc]; rfl

theorem loadBitWord_eq_none {l : List (Nat × Bool)} {w j : Nat} (hj : j < 32)
    (h : Memory.get l (32 * w + j) = none) : loadBitWord l (4 * w) = none := by
  rw [loadBitWord, Memory.load_eq, Option.map_eq_none_iff, collect_eq_none_iff]
  exact ⟨j, hj, by rw [show 8 * (4 * w) + j = 32 * w + j by omega]; exact h⟩

/-- A word written to a symbol buffer, lane by lane (R76, R77). -/
theorem get_storeByteWord (l : List Host.Cell) (w : Nat) (v : Word) :
    (∀ j, j < 4 → Memory.get (storeByteWord l (4 * w) v) (4 * w + j) = some (v.extractLsb' (8 * j) 8)) ∧
      ∀ a, a / 4 ≠ w → Memory.get (storeByteWord l (4 * w) v) a = Memory.get l a := by
  unfold storeByteWord
  constructor
  · intro j hj
    rw [Memory.get_store, if_pos ⟨by omega, by simp; omega⟩, Nat.add_sub_cancel_left]
    have lane : ∀ k : Nat, BitVec.ofNat 8 (v.toNat / 2 ^ k) = v.extractLsb' k 8 := fun k => by
      apply BitVec.eq_of_toNat_eq
      rw [BitVec.extractLsb'_toNat, BitVec.toNat_ofNat, Nat.shiftRight_eq_div_pow]
    match j, hj with
    | 0, _ => simpa [bytesLE] using lane 0
    | 1, _ => simpa [bytesLE] using lane 8
    | 2, _ => simpa [bytesLE, Nat.div_div_eq_div_mul] using lane 16
    | 3, _ => simpa [bytesLE, Nat.div_div_eq_div_mul] using lane 24
  · intro a ha
    rw [Memory.get_store, if_neg (by simp; omega)]

/-- A word read from a symbol buffer whose four bytes were written (R76, R77). -/
theorem loadByteWord_eq_some {l : List Host.Cell} {w : Nat} {byte : Nat → Byte}
    (h : ∀ j, j < 4 → Memory.get l (4 * w + j) = some (byte j)) :
    ∃ r : Word, (∀ j, j < 4 → r.extractLsb' (8 * j) 8 = byte j) ∧ loadByteWord l (4 * w) = some r := by
  have hc := collect_eq_map (f := Memory.get l) (g := byte) 4 (4 * w) h
  refine ⟨_, ?_, by rw [loadByteWord, Memory.load_eq, hc]; rfl⟩
  have b0 := (byte 0).isLt; have b1 := (byte 1).isLt; have b2 := (byte 2).isLt; have b3 := (byte 3).isLt
  intro j hj
  apply BitVec.eq_of_toNat_eq
  rw [BitVec.extractLsb'_toNat, BitVec.toNat_ofNat, Nat.shiftRight_eq_div_pow]
  rw [show (List.range 4).map byte = [byte 0, byte 1, byte 2, byte 3] from rfl]
  simp only [ofBytesLE]
  match j, hj with
  | 0, _ => omega
  | 1, _ => omega
  | 2, _ => omega
  | 3, _ => omega

theorem loadByteWord_eq_none {l : List Host.Cell} {w j : Nat} (hj : j < 4)
    (h : Memory.get l (4 * w + j) = none) : loadByteWord l (4 * w) = none := by
  rw [loadByteWord, Memory.load_eq, Option.map_eq_none_iff, collect_eq_none_iff]
  exact ⟨j, hj, h⟩

/-- A word written to a bit buffer keeps its canonical form and its bound. -/
theorem storeBitWord_wf {l : List (Nat × Bool)} {cap off : Nat} (w : Word) (h : Memory.wf l)
    (h' : Memory.within cap l) (ho : 8 * off + 32 ≤ cap) :
    Memory.wf (storeBitWord l off w) ∧ Memory.within cap (storeBitWord l off w) :=
  ⟨Memory.wf_store h _ _, Memory.within_store h' _ _ (by simpa using ho)⟩

/-- A word written to a symbol buffer keeps its canonical form and its bound. -/
theorem storeByteWord_wf {l : List Host.Cell} {cap off : Nat} (w : Word) (h : Memory.wf l)
    (h' : Memory.within cap l) (ho : off + 4 ≤ cap) :
    Memory.wf (storeByteWord l off w) ∧ Memory.within cap (storeByteWord l off w) :=
  ⟨Memory.wf_store h _ _, Memory.within_store h' _ _ (by simpa using ho)⟩

/-- The two words of a component (R76, R77). -/
theorem loadByteWord_of_loadF64 {l : List Host.Cell} {off : Nat} {v : F64} (h : loadF64 l off = some v) :
    loadByteWord l off = some (v.extractLsb' 0 32) ∧ loadByteWord l (off + 4) = some (v.extractLsb' 32 32) := by
  unfold loadF64 at h
  rw [Option.map_eq_some_iff] at h
  obtain ⟨bs, hl, rfl⟩ := h
  obtain ⟨hlen, hg⟩ := (Memory.load_eq_some_iff _ _ _ _).1 hl
  have l1 : Memory.load l off 4 = some (bs.take 4) := (Memory.load_eq_some_iff _ _ _ _).2
    ⟨by simp; omega, fun i hi => by rw [hg i (by omega), List.getElem?_take, if_pos hi]⟩
  have l2 : Memory.load l (off + 4) 4 = some (bs.drop 4) := (Memory.load_eq_some_iff _ _ _ _).2
    ⟨by simp; omega, fun i hi => by rw [Nat.add_assoc, hg (4 + i) (by omega), List.getElem?_drop]⟩
  match bs, hlen with
  | [b0, b1, b2, b3, b4, b5, b6, b7], _ =>
    have q0 := b0.isLt; have q1 := b1.isLt; have q2 := b2.isLt; have q3 := b3.isLt
    have q4 := b4.isLt; have q5 := b5.isLt; have q6 := b6.isLt; have q7 := b7.isLt
    simp only [loadByteWord, l1, l2, Option.map_some, List.take, List.drop, ofBytesLE]
    refine ⟨congrArg some ?_, congrArg some ?_⟩
    · apply BitVec.eq_of_toNat_eq
      simp only [BitVec.extractLsb'_toNat, BitVec.toNat_ofNat, Nat.shiftRight_eq_div_pow]
      omega
    · apply BitVec.eq_of_toNat_eq
      simp only [BitVec.extractLsb'_toNat, BitVec.toNat_ofNat, Nat.shiftRight_eq_div_pow]
      omega

end Sys2Proof.Machine
end

