-- ==== Sys2Proof/Tests/Slice0.lean ====
section
/-!
SUPPORT. Tests: ill-formed terms, decoding, one step of each command on the spec's vectors, and for each statement that
has hypotheses a state and operands that meet them.
-/

-- One kernel check at a time.
set_option Elab.async false

namespace Sys2Proof.Tests

open Sys2Proof Sys2Proof.Machine

/-! WellFormed refuses the ill-formed (R7, R107, R108). -/

theorem test_params_reference_wf : Config.refParams.wf = true := by decide
theorem test_params_symcap_too_small : Config.Params.wf ⟨63, 32⟩ = false := by decide
theorem test_params_symcap_too_large : Config.Params.wf ⟨2 ^ 18 + 1, 32⟩ = false := by decide
theorem test_params_bitcap_too_small : Config.Params.wf ⟨64, 0⟩ = false := by decide
theorem test_params_bitcap_too_large : Config.Params.wf ⟨64, 2 ^ 23 + 32⟩ = false := by decide
theorem test_params_bitcap_not_words : Config.Params.wf ⟨64, 33⟩ = false := by decide
theorem test_stmt_wrw_out_of_range :
    Stmt.wf (.wrw .bitin 0x3FFFF 0#32) = true ∧ Stmt.wf (.wrw .bitin 0x40000 0#32) = false := by decide
theorem test_stmt_rdw_out_of_range :
    Stmt.wf (.rdw .noisy 0x1FFFFF) = true ∧ Stmt.wf (.rdw .noisy 0x200000) = false := by decide
theorem test_stmt_wrsym_out_of_range :
    Stmt.wf (.wrsym .clean 0x3FFFF 0#64 0#64) = true ∧ Stmt.wf (.wrsym .clean 0x40000 0#64 0#64) = false ∧
      Stmt.wf (.wrsym .noisy 0x7FFFF 0#64 0#64) = true ∧ Stmt.wf (.wrsym .noisy 0x80000 0#64 0#64) = false := by decide

/-! Decoding: words written out from the layout of R101, RSV1 SRC RSV0 OP. -/

theorem test_decode_nop : decode 0b00000000000000000000000_0_0000_0000#32 = .ok .nop := by decide
theorem test_decode_const : decode 0b00000000000000000000000_0_0000_0001#32 = .ok .const := by decide
theorem test_decode_mod : decode 0b00000000000000000000000_0_0000_0010#32 = .ok .mod := by decide
theorem test_decode_awgn : decode 0b00000000000000000000000_0_0000_0011#32 = .ok .awgn := by decide
theorem test_decode_demod_clean : decode 0b00000000000000000000000_0_0000_0100#32 = .ok (.demod .clean) := by decide
theorem test_decode_demod_noisy : decode 0b00000000000000000000000_1_0000_0100#32 = .ok (.demod .noisy) := by decide
theorem test_decode_seed : decode 0b00000000000000000000000_0_0000_0101#32 = .ok .seed := by decide
theorem test_decode_bytes_lane_zero_first :
    decodeBytes [0x04#8, 0x01#8, 0x00#8, 0x00#8, 0xFF#8] = .ok (.demod .noisy, [0xFF#8]) := by decide
theorem test_decode_truncated : decodeBytes [0x04#8, 0x01#8, 0x00#8] = .error .truncated := by decide
theorem test_decode_table_word :
    decodeTableWord 32 0x104 = some (.demod .noisy) ∧ decodeTableWord 32 0x105 = none := by decide

/-! Helpers. -/

/-- What a function reads in the next state. -/
def after {α : Type} (r : Result) (f : State → α) : Option α :=
  match r with
  | .next t => some (f t)
  | .fault _ => none
  | .refused _ => none

theorem after_next {α : Type} {r : Result} {f : State → α} {v : α} (h : after r f = some v) :
    ∃ t, r = .next t ∧ f t = v := by
  cases r with
  | next t => exact ⟨t, rfl, by simpa [after] using h⟩
  | fault _ => cases h
  | refused _ => cases h

/-- A small legal instance, after reset. -/
def small : State := { State.reset with params := ⟨64, 128⟩ }

/-- A buffer that holds the symbols from entry 0 on. -/
def symbols (zs : List Machine.Symbol) : List Host.Cell := storeSymbols [] zs

/-- The n low bits of a bit buffer, all written, every third one set. -/
def bits (n : Nat) : List (Nat × Bool) := (List.range n).map fun i => (i, decide (i % 3 = 0))

/-- The next step runs the command word. -/
def run (s : State) (c : Word) : Result := step (s.withFetchWord 32 c.toNat)

def one : F64 := 0x3FF0000000000000#64
def minusOne : F64 := 0xBFF0000000000000#64
def three : F64 := 0x4008000000000000#64
def minusThree : F64 := 0xC008000000000000#64
def five : F64 := 0x4014000000000000#64
def two : F64 := 0x4000000000000000#64
def half : F64 := 0x3FE0000000000000#64
def minusZero : F64 := 0x8000000000000000#64
def nan : F64 := 0x7FF8000000000000#64
def posInf : F64 := 0x7FF0000000000000#64
def negInf : F64 := 0xFFF0000000000000#64
def largest : F64 := 0x7FEFFFFFFFFFFFFF#64
def minusTiny : F64 := 0x8000000000000001#64

/-! The spec's vectors (95_test_vectors.md section 2), one step each. -/

/-- G1. -/
theorem test_nop_from_reset : after (run .reset 0x0#32) (fun t => (t.statusWord, t.errIdx)) = some (0x2#32, 0#32) := by
  decide
/-- The example of R135. -/
theorem test_nop_clears_error :
    after (run { State.reset with done := true, err := .degenerateParameter } 0x0#32) State.statusWord = some 0x2#32 := by
  decide
/-- K1. -/
theorem test_const_qpsk : after (run { State.reset with m := 4#32 } 0x1#32)
    (fun t => (t.err, t.symcnt, loadSymbol t.clean 0, loadSymbol t.clean 3)) =
      some (.ok, 4#32, some ⟨minusOne, minusOne⟩, some ⟨one, one⟩) := by decide +kernel
/-- K6. -/
theorem test_const_unsupported : after (run { State.reset with m := 256#32 } 0x1#32)
    (fun t => (t.err, t.symcnt, t.clean)) = some (.invalidConfiguration, 0#32, []) := by decide
/-- M3. -/
theorem test_mod_msb_first : after (run { State.reset with
      m := 16#32, len := 4#32, bitin := storeBitWord [] 0 0x10000000#32 } 0x2#32)
    (fun t => (t.err, t.symcnt, loadSymbol t.clean 0)) = some (.ok, 1#32, some ⟨minusThree, minusOne⟩) := by
  decide +kernel
/-- M9. -/
theorem test_mod_error_order : after (run { State.reset with m := 16#32, len := 8194#32 } 0x2#32)
    (fun t => (t.err, t.symcnt)) = some (.invalidInput, 0#32) := by decide
/-- N7d: the variance is checked before the capacity. -/
theorem test_awgn_error_order : after (run { State.reset with varHi := 0xBFF00000#32, symcnt := 5000#32 } 0x3#32)
    (fun t => (t.err, t.noisy)) = some (.degenerateParameter, []) := by decide +kernel
/-- N7e. -/
theorem test_awgn_capacity : after (run { State.reset with varHi := 0x3FF00000#32, symcnt := 5000#32 } 0x3#32)
    (fun t => (t.err, t.noisy)) = some (.capacityExceeded, []) := by decide +kernel
/-- D25. -/
theorem test_demod_reads_src : after (run { State.reset with
      m := 16#32, symcnt := 1#32, clean := symbols [⟨minusThree, minusThree⟩], noisy := symbols [⟨three, three⟩] } 0x104#32)
    (fun t => (t.err, t.outlen, t.bitout)) =
      some (.ok, 4#32, [(0, true), (1, true), (2, true), (3, true)]) := by decide +kernel
/-- D20. -/
theorem test_demod_nan : after (run { State.reset with
      m := 16#32, symcnt := 3#32, clean := symbols [⟨one, one⟩, ⟨one, one⟩, ⟨one, nan⟩] } 0x4#32)
    (fun t => (t.err, t.errIdx, t.outlen, t.bitout)) = some (.nonFiniteSymbol, 2#32, 0#32, []) := by decide +kernel
/-- G7. -/
theorem test_seed : after (run { State.reset with seedLo := 0x2A#32, seedHi := 0x1#32 } 0x5#32) State.rng =
    some (Config.seedInit 0x10000002A#64) := rfl
/-- G2 to G5. -/
theorem test_illegal_words : (after (run .reset 0x6#32) State.err, after (run .reset 0x14#32) State.err,
    after (run .reset 0x101#32) State.err, after (run .reset 0x80000004#32) State.err) =
      (some .illegalCommand, some .illegalCommand, some .illegalCommand, some .illegalCommand) := by decide

/-! Arithmetic and decisions on the vectors' values. -/

/-- N3: 1 + 2 * 0.5 and -1 + 2 * -1.25. -/
theorem test_noise_arithmetic : Fp.sqrt nan 0x4010000000000000#64 = two ∧ Fp.add nan one (Fp.mul nan two half) = two ∧
    Fp.add nan minusOne (Fp.mul nan two 0xBFF4000000000000#64) = 0xC00C000000000000#64 := by decide +kernel
/-- N4: an exact zero sum is +0. -/
theorem test_exact_zero_sum :
    Fp.add nan three (Fp.mul nan 0x3FF8000000000000#64 0xC000000000000000#64) = 0#64 := by decide +kernel
/-- N5. -/
theorem test_sqrt_two : Fp.sqrt nan two = 0x3FF6A09E667F3BCD#64 ∧
    Fp.add nan one 0x3FF6A09E667F3BCD#64 = 0x4003504F333F9DE6#64 := by decide +kernel
/-- D2 to D9. -/
theorem test_decisions : decideIndex .qam4 ⟨half, 0xBFE0000000000000#64⟩ = 2 ∧ decideIndex .qam4 ⟨minusZero, 0#64⟩ = 0 ∧
    decideIndex .qam4 ⟨posInf, negInf⟩ = 2 ∧ decideIndex .qam16 ⟨0#64, 0#64⟩ = 5 ∧ decideIndex .qam16 ⟨two, two⟩ = 10 ∧
    decideIndex .qam16 ⟨0x4000000000000001#64, 0xC000000000000000#64⟩ = 12 := by decide +kernel
/-- D13 to D18. -/
theorem test_decisions_64 : decideIndex .qam64 ⟨0x401C000000000000#64, 0xC01C000000000000#64⟩ = 56 ∧
    decideIndex .qam64 ⟨0#64, 0#64⟩ = 27 ∧ decideIndex .qam64 ⟨0x4018000000000000#64, 0x4018000000000000#64⟩ = 54 ∧
    decideIndex .qam64 ⟨0xC059000000000000#64, 0x4059000000000000#64⟩ = 7 ∧
    decideIndex .qam64 ⟨0xC018000000000000#64, 0xC010000000000000#64⟩ = 1 ∧
    decideIndex .qam64 ⟨0x4016000000000000#64, 0xBFE0000000000000#64⟩ = 51 := by decide +kernel
/-- R202 on a subnormal: the root of 2^-1074 is 2^-537. -/
theorem test_sqrt_subnormal : Fp.sqrt nan 0x1#64 = 0x1E60000000000000#64 := by decide +kernel

/-! Witnesses: for each statement with hypotheses, states and operands that meet them, clause by clause. -/

/-- A state with the command word in flight and nothing else fixed. -/
def busy (s : State) (c : Word) : State := accept s c

/-- The latched set of `busy s c`. -/
def held (s : State) (c : Word) : Latch := latch s c

/-- A state whose host is to do the given moves. -/
def hosting (s : State) (ops : List HostOp) : State := withScript s ops

/-- 64 symbols, all written: SYM_CAP of the small instance. -/
def full : State := { small with m := 4#32, symcnt := 64#32, len := 128#32, bitin := bits 128
                                 clean := symbols (List.replicate 64 ⟨one, minusOne⟩)
                                 noisy := symbols (List.replicate 64 ⟨one, minusOne⟩) }

/-- Every entry of the full buffers, by the law of a store, which is cheaper than to evaluate. -/
theorem full_symbols (src : Source) (k : Nat) (h : k < 64) :
    loadSymbol (sourceBuffer full src) k = some ⟨one, minusOne⟩ := by
  have key : loadSymbol (storeSymbols [] (List.replicate 64 ⟨one, minusOne⟩)) k = some ⟨one, minusOne⟩ := by
    rw [loadSymbol_storeSymbols, List.length_replicate, if_pos h, List.getElem?_replicate, if_pos h]
  cases src <;> exact key

/-- Two symbols and their bits. -/
def few : State := { small with m := 4#32, symcnt := 2#32, len := 4#32, bitin := bits 4
                                clean := symbols [⟨one, minusOne⟩, ⟨three, one⟩] }

theorem witness_LegalWordsAreTheSeven :
    (busy small 0x6#32).engine = some (held small 0x6#32) ∧ (held small 0x6#32).cmd = 0x6#32 ∧
      (¬ ∃ i, decode 0x6#32 = .ok i) ∧ (¬ ∃ i, decode 0x80000005#32 = .ok i) := by
  refine ⟨rfl, rfl, ?_, ?_⟩ <;> rintro ⟨i, h⟩ <;> cases h

theorem witness_StepRunsTheDecodedCommand :
    ((busy small 0x2#32).env.resetHeld = false ∧ nextTurn (busy small 0x2#32) = .engine ∧
      (busy small 0x2#32).engine = some (held small 0x2#32) ∧ decode (held small 0x2#32).cmd = .ok .mod) ∧
    nextTurn (small.withFetchWord 32 0x2) = .engine ∧ (small.withFetchWord 32 0x2).env.turns ≠ [] := by decide

theorem witness_CommandWriteIsAcceptedWhenIdle :
    let s := hosting small [.access ⟨0x00C#24, 0xF#4, some 0xFFFFFFFF#32⟩]
    let b := { s with engine := some (held small 0x2#32), env := { s.env with turns := [.host] } }
    (s.env.resetHeld = false ∧ nextTurn s = .host ∧ s.engine = none) ∧
      b.env.resetHeld = false ∧ nextTurn b = .host ∧ b.engine = some (held small 0x2#32) := by decide

theorem witness_LatchedOperandsAreTheOnlyOnes :
    small.engine = none ∧
    (∃ t, hostStep (hosting (busy small 0x2#32) [writeAt 0x018 4#32]) = .next t ∧ t.m = 4#32) ∧
    ∃ t, exec .const (busy { small with m := 4#32 } 0x1#32) = .next t ∧ t.err = .ok :=
  ⟨rfl, after_next (f := State.m) (by decide), after_next (f := State.err) (by decide +kernel)⟩

theorem witness_DroppedCommandStaysVisible :
    let s := { hosting small [.access ⟨0x010#24, 0xF#4, some 4#32⟩] with drop := true }
    let r := { s with env := { s.env with turns := [.resetAssert] } }
    (busy small 0x2#32).engine = some (held small 0x2#32) ∧ (s.drop = true ∧ ∃ t, step s = .next t ∧ t.drop = false) ∧
      r.drop = true ∧ ∃ t, step r = .next t ∧ t.drop = false :=
  ⟨rfl, ⟨rfl, after_next (f := State.drop) (by decide)⟩, rfl, after_next (f := State.drop) (by decide)⟩

theorem witness_BackToBackCommandsBothOrders :
    let s := hosting small [command .nop, .access ⟨0x00C#24, 0xF#4, some 0x2#32⟩]
    s.env.resetHeld = false ∧ s.engine = none ∧
      s.env.script = [command .nop, .access ⟨0x00C#24, 0xF#4, some 0x2#32⟩] := by decide

/-- A state that completes and one that stops at an unwritten bit. -/
theorem witness_EngineCompletesTheCommand :
    let s := { full with bitin := bits 127 }
    ((busy small 0x2#32).env.resetHeld = false ∧ (busy small 0x2#32).env.turns = [] ∧
      (busy small 0x2#32).engine = some (held small 0x2#32) ∧ ∃ t, step (busy small 0x2#32) = .next t) ∧
    (busy s 0x2#32).env.resetHeld = false ∧ (busy s 0x2#32).env.turns = [] ∧
      (busy s 0x2#32).engine = some (held s 0x2#32) ∧ step (busy s 0x2#32) = .fault .unwrittenOperand ∧
      readsUnwritten (busy s 0x2#32) (held s 0x2#32) .mod :=
  ⟨⟨rfl, rfl, rfl, _, rfl⟩, rfl, rfl, rfl, rfl, 127, by decide, rfl⟩

theorem witness_NopCompletesOk : (busy small 0x0#32).engine = some (held small 0x0#32) := by decide

theorem witness_SeedSetsTheGenerator :
    (busy small 0x5#32).engine = some (held small 0x5#32) ∧
      ∃ t, exec .seed (busy small 0x5#32) = .next t ∧
        ∃ u, exec .seed { t with engine := some (held small 0x5#32) } = .next u :=
  ⟨rfl, _, rfl, _, rfl⟩

theorem witness_ConstWritesTheConstellation :
    (∀ o : Order, (busy { small with m := BitVec.ofNat 32 o.size } 0x1#32).engine =
        some (held { small with m := BitVec.ofNat 32 o.size } 0x1#32) ∧
      (held { small with m := BitVec.ofNat 32 o.size } 0x1#32).m = BitVec.ofNat 32 o.size) ∧
    (held { small with m := 8#32 } 0x1#32).m ≠ 4#32 ∧ (held { small with m := 8#32 } 0x1#32).m ≠ 16#32 ∧
      (held { small with m := 8#32 } 0x1#32).m ≠ 64#32 :=
  ⟨fun _ => ⟨rfl, rfl⟩, by decide, by decide, by decide⟩

/-- Unsupported M; LEN = 3 for M = 4; LEN one chunk past both capacities; LEN at both capacities with every bit written,
and with none. -/
theorem witness_ModMapsChunksToPoints :
    (busy full 0x2#32).engine = some (held full 0x2#32) ∧ (held full 0x2#32).m = BitVec.ofNat 32 Order.qam4.size ∧
    ((0xFFFFFFFF#32 : Word) ≠ 4#32 ∧ (0xFFFFFFFF#32 : Word) ≠ 16#32 ∧ (0xFFFFFFFF#32 : Word) ≠ 64#32) ∧
    (held { full with len := 3#32 } 0x2#32).len.toNat % Order.qam4.bps ≠ 0 ∧
    ((held { full with len := 130#32 } 0x2#32).len.toNat % Order.qam4.bps = 0 ∧
      full.params.bitCap < (held { full with len := 130#32 } 0x2#32).len.toNat ∧
      full.params.symCap < (held { full with len := 130#32 } 0x2#32).len.toNat / Order.qam4.bps) ∧
    ((held full 0x2#32).len.toNat % Order.qam4.bps = 0 ∧ (held full 0x2#32).len.toNat = full.params.bitCap ∧
      (held full 0x2#32).len.toNat / Order.qam4.bps = full.params.symCap) ∧
    (∃ i, i < 128 ∧ Memory.get (busy small 0x2#32).bitin i = none) ∧
    ∀ i, i < (held full 0x2#32).len.toNat → Memory.get (busy full 0x2#32).bitin i = some (decide (i % 3 = 0)) :=
  ⟨rfl, by decide, by decide, by decide, by decide, by decide, ⟨127, by decide, rfl⟩, by decide +kernel⟩

/-- The least negative value, the infinity and a NaN; the largest variance with SYM_CAP + 1 and with SYM_CAP symbols. -/
theorem witness_AwgnAddsScaledDraws :
    (busy full 0x3#32).engine = some (held full 0x3#32) ∧
    ¬ (Fp.isFinite minusTiny = true ∧ 0 ≤ Fp.units minusTiny) ∧ ¬ (Fp.isFinite posInf = true ∧ 0 ≤ Fp.units posInf) ∧
    ¬ (Fp.isFinite nan = true ∧ 0 ≤ Fp.units nan) ∧
    (Fp.isFinite largest = true ∧ 0 ≤ Fp.units largest ∧ Fp.isFinite minusZero = true ∧ 0 ≤ Fp.units minusZero) ∧
    full.params.symCap < (held { full with symcnt := 65#32 } 0x3#32).symcnt.toNat ∧
    (held full 0x3#32).symcnt.toNat = full.params.symCap ∧
    ∀ k, k < (held full 0x3#32).symcnt.toNat → loadSymbol (busy full 0x3#32).clean k = some ⟨one, minusOne⟩ :=
  ⟨rfl, by decide +kernel, by decide, by decide, by decide +kernel, by decide, rfl, fun k h => full_symbols .clean k h⟩

/-- Unsupported M = 5; one symbol past each capacity; a NaN in the last symbol; SYM_CAP symbols without one. -/
theorem witness_DemodDecidesEachSymbol :
    (busy full 0x4#32).engine = some (held full 0x4#32) ∧ (held full 0x4#32).m = BitVec.ofNat 32 Order.qam4.size ∧
    ((5#32 : Word) ≠ 4#32 ∧ (5#32 : Word) ≠ 16#32 ∧ (5#32 : Word) ≠ 64#32) ∧
    (full.params.symCap < (held { full with symcnt := 65#32 } 0x4#32).symcnt.toNat ∧
      full.params.bitCap < (held { full with symcnt := 33#32 } 0x4#32).symcnt.toNat * Order.qam16.bps) ∧
    ((held full 0x4#32).symcnt.toNat = full.params.symCap ∧
      (held full 0x4#32).symcnt.toNat * Order.qam4.bps = full.params.bitCap) ∧
    (loadSymbol (symbols [⟨one, one⟩, ⟨one, nan⟩]) 0 = some ⟨one, one⟩ ∧ Fp.isNaN one = false ∧
      loadSymbol (symbols [⟨one, one⟩, ⟨one, nan⟩]) 1 = some ⟨one, nan⟩ ∧ Fp.isNaN nan = true) ∧
    ∀ src k, k < (held full 0x4#32).symcnt.toNat →
      loadSymbol (sourceBuffer (busy full 0x4#32) src) k = some ⟨one, minusOne⟩ ∧ Fp.isNaN one = false ∧
        Fp.isNaN minusOne = false := by
  refine ⟨rfl, by decide, by decide, by decide, by decide, by decide +kernel, fun src k h => ?_⟩
  exact ⟨by have := full_symbols src k h; cases src <;> exact this, by decide, by decide⟩

/-- Entry 1 of two, of which one byte is missing. -/
theorem witness_UnwrittenOperandsFault :
    let s := { small with m := 4#32, symcnt := 2#32, clean := (symbols [⟨one, one⟩, ⟨one, one⟩]).dropLast }
    (busy s 0x4#32).engine = some (held s 0x4#32) ∧ 1 < (held s 0x4#32).symcnt.toNat ∧
      (held s 0x4#32).symcnt.toNat ≤ s.params.symCap ∧
      (Fp.isFinite (held s 0x4#32).var = true ∧ 0 ≤ Fp.units (held s 0x4#32).var ∧ loadSymbol s.clean 1 = none) ∧
      (held s 0x4#32).m = BitVec.ofNat 32 Order.qam4.size ∧
      (held s 0x4#32).symcnt.toNat * Order.qam4.bps ≤ s.params.bitCap ∧
      loadSymbol s.clean 0 = some ⟨one, one⟩ ∧ Fp.isNaN one = false := by decide +kernel

theorem witness_SlicerIsNearestNeighbour : Fp.isFinite largest = true ∧ Fp.isFinite minusTiny = true := by decide

theorem witness_InfiniteComponentsDecideTheEdge :
    Fp.isInf posInf = true ∧ Fp.sign posInf = false ∧ Fp.isInf negInf = true ∧ Fp.sign negInf = true := by decide

theorem witness_ModThenDemodReturnsTheBits :
    ((busy full 0x2#32).engine = some (held full 0x2#32) ∧ (held full 0x2#32).m = BitVec.ofNat 32 Order.qam4.size ∧
      (held full 0x2#32).len.toNat % Order.qam4.bps = 0 ∧ (held full 0x2#32).len.toNat ≤ full.params.bitCap ∧
      (held full 0x2#32).len.toNat / Order.qam4.bps ≤ full.params.symCap ∧
      ∀ i, i < (held full 0x2#32).len.toNat → Memory.get (busy full 0x2#32).bitin i ≠ none) ∧
    (∃ t, exec .mod (busy full 0x2#32) = .next t ∧ t.symcnt = (held full 0x4#32).symcnt) ∧
    (held full 0x4#32).m = (held full 0x2#32).m ∧ Fp.isZero (held full 0x3#32).var = true ∧
      (held full 0x3#32).symcnt = (held full 0x4#32).symcnt :=
  ⟨by decide +kernel, after_next (f := State.symcnt) (by decide +kernel), rfl, by decide, rfl⟩

/-- Both zeros as the variance; a finite, a zero and an infinite component. -/
theorem witness_ZeroVarianceCopiesTheSymbols :
    let s := { small with symcnt := 2#32, clean := symbols [⟨three, minusZero⟩, ⟨0#64, negInf⟩] }
    let n := { s with varHi := 0x80000000#32 }
    ((busy s 0x3#32).engine = some (held s 0x3#32) ∧ Fp.isZero (held s 0x3#32).var = true ∧
      Fp.isZero (held n 0x3#32).var = true) ∧
    (∃ t, exec .awgn (busy s 0x3#32) = .next t ∧ t.err = .ok) ∧ (∃ t, exec .awgn (busy n 0x3#32) = .next t ∧ t.err = .ok) ∧
    1 < (held s 0x3#32).symcnt.toNat ∧ loadSymbol s.clean 1 = some ⟨0#64, negInf⟩ ∧
    (Fp.isNaN negInf = false ∧ Fp.isZero negInf = false ∧ Fp.isZero minusZero = true) :=
  ⟨by decide, after_next (f := State.err) (by decide +kernel), after_next (f := State.err) (by decide +kernel), by decide,
    by decide +kernel, by decide⟩

/-- A NaN and an infinite component. The overflows hang on the free draws, so they are met here by values in the draws'
place: the root of the largest variance times the largest draw, and a sum of two largest values. -/
theorem witness_NonFiniteComponentsPropagate :
    let s := { small with varLo := 0xFFFFFFFF#32, varHi := 0x7FEFFFFF#32, symcnt := 2#32
                          clean := symbols [⟨nan, posInf⟩, ⟨largest, negInf⟩] }
    ((busy s 0x3#32).engine = some (held s 0x3#32) ∧ (held s 0x3#32).var = largest) ∧
    (∃ t, exec .awgn (busy s 0x3#32) = .next t ∧ t.err = .ok) ∧
    (1 < (held s 0x3#32).symcnt.toNat ∧ loadSymbol s.clean 0 = some ⟨nan, posInf⟩ ∧
      loadSymbol s.clean 1 = some ⟨largest, negInf⟩) ∧
    (Fp.isNaN nan = true ∧ Fp.isInf posInf = true ∧ Fp.isFinite largest = true) ∧
    ((2 ^ 54 - 1) * 2 ^ 2044 * Fp.one ≤ Fp.mag (sigmaOf largest) * Fp.mag largest ∧
      Fp.isInf (noiseTerm (sigmaOf largest) largest) = true) ∧
    (Fp.isFinite (noiseTerm one largest) = true ∧
      (2 ^ 54 - 1) * 2 ^ 2044 ≤ (Fp.units largest + Fp.units (noiseTerm one largest)).natAbs) :=
  ⟨by decide, after_next (f := State.err) (by decide +kernel), by decide +kernel, by decide, by decide +kernel,
    by decide +kernel⟩

/-- Two states that differ in M and in a symbol past the count. -/
theorem witness_SameSeedSameNoise :
    let a := { small with varHi := 0x3FF00000#32, symcnt := 1#32, clean := symbols [⟨one, nan⟩] }
    let b := { a with m := 4#32, clean := symbols [⟨one, nan⟩, ⟨two, two⟩] }
    ((busy a 0x5#32).engine = some (held a 0x5#32) ∧ (busy b 0x5#32).engine = some (held b 0x5#32) ∧
      (held a 0x5#32).seed = (held b 0x5#32).seed ∧ (∃ t, exec .seed (busy a 0x5#32) = .next t) ∧
      ∃ u, exec .seed (busy b 0x5#32) = .next u) ∧
    (busy a 0x3#32).rng = (busy b 0x3#32).rng ∧
    ((held a 0x3#32).var = (held b 0x3#32).var ∧ (held a 0x3#32).symcnt = (held b 0x3#32).symcnt ∧
      ∀ k, k < (held a 0x3#32).symcnt.toNat → loadSymbol (busy a 0x3#32).clean k = loadSymbol (busy b 0x3#32).clean k) ∧
    (∃ t, exec .awgn (busy a 0x3#32) = .next t ∧ t.err = .ok) ∧ ∃ u, exec .awgn (busy b 0x3#32) = .next u ∧ u.err = .ok :=
  ⟨⟨rfl, rfl, rfl, ⟨_, rfl⟩, _, rfl⟩, rfl, by decide +kernel, after_next (f := State.err) (by decide +kernel),
    after_next (f := State.err) (by decide +kernel)⟩

theorem witness_DrawsAreFiniteAndNeverReused :
    (busy few 0x3#32).engine = some (held few 0x3#32) ∧ ∃ t, exec .awgn (busy few 0x3#32) = .next t ∧ t.err = .ok :=
  ⟨rfl, after_next (f := State.err) (by decide +kernel)⟩

theorem witness_ErrorCompletionChangesNothingElse :
    (busy small 0x6#32).engine = some (held small 0x6#32) ∧
    (∃ t, engineStep (busy small 0x6#32) = .next t ∧ t.err = .illegalCommand) ∧
    ∃ t, engineStep (busy { small with m := 4#32, symcnt := 1#32, clean := symbols [⟨nan, one⟩] } 0x4#32) = .next t ∧
      t.err = .nonFiniteSymbol :=
  ⟨rfl, after_next (f := State.err) (by decide), after_next (f := State.err) (by decide +kernel)⟩

/-- Two states with the same latched set that differ in registers. -/
theorem witness_OutcomeIsAFunctionOfOperands :
    let a := busy few 0x3#32
    let b := { a with m := 0#32, outlen := 2#32 }
    (a.engine = some (held few 0x3#32) ∧ b.engine = some (held few 0x3#32) ∧ a.params = b.params ∧ a.bitin = b.bitin ∧
      a.clean = b.clean ∧ a.noisy = b.noisy ∧ a.rng = b.rng) ∧ ∃ t, engineStep a = .next t ∧ t.err = .ok :=
  ⟨⟨rfl, rfl, rfl, rfl, rfl, rfl, rfl⟩, after_next (f := State.err) (by decide +kernel)⟩

/-- A host's register write, an acceptance, a drop; a successful MOD that changes SYMCNT and CLEAN. -/
theorem witness_WriterTable :
    let w : List HostOp := [.access ⟨0x00C#24, 0xF#4, some 0x2#32⟩]
    (∃ t, hostStep (hosting { small with done := true } [writeAt 0x018 4#32]) = .next t ∧ t.done = true) ∧
    (∃ t, hostStep (hosting small w) = .next t ∧ t.engine.isSome = true) ∧
    (∃ t, hostStep (hosting (busy small 0x2#32) w) = .next t ∧ t.drop = true) ∧
    (busy few 0x2#32).engine = some (held few 0x2#32) ∧
    ∃ t, engineStep (busy { few with symcnt := 0#32, clean := [] } 0x2#32) = .next t ∧
      (t.symcnt, t.clean.length) = (2#32, 32) :=
  ⟨after_next (f := State.done) (by decide), after_next (f := fun t => t.engine.isSome) (by decide),
    after_next (f := State.drop) (by decide), rfl, after_next (f := fun t => (t.symcnt, t.clean.length)) (by decide +kernel)⟩

/-- The same for the three commands that write elsewhere. -/
theorem witness_WriterTable_outputs :
    (∃ t, engineStep (busy few 0x4#32) = .next t ∧ (t.outlen, t.bitout.length) = (4#32, 4)) ∧
    (∃ t, engineStep (busy few 0x3#32) = .next t ∧ t.noisy.length = 32) ∧
    ∃ t, engineStep (busy small 0x5#32) = .next t ∧ t.rng = Config.seedInit 0#64 :=
  ⟨after_next (f := fun t => (t.outlen, t.bitout.length)) (by decide +kernel),
    after_next (f := fun t => t.noisy.length) (by decide +kernel), _, rfl, rfl⟩

theorem witness_CapacitiesAreConstant : ∃ t, step small = .next t := ⟨_, rfl⟩

/-- Each of the six faults a step can end in, the first of them by each command that reads a buffer. -/
theorem witness_StopsAreTheSpecsFaults :
    step (busy { full with bitin := [] } 0x2#32) = .fault .unwrittenOperand ∧
    step (busy { full with clean := [] } 0x3#32) = .fault .unwrittenOperand ∧
    step (busy { full with noisy := [] } 0x104#32) = .fault .unwrittenOperand ∧
    step (hosting small [.access ⟨0x000012#24, 0xF#4, none⟩]) = .fault .busMisaligned ∧
    step (hosting small [.access ⟨0x000018#24, 0x1#4, some 0#32⟩]) = .fault .busLanes ∧
    step (hosting small [.access ⟨0x00003C#24, 0xF#4, none⟩]) = .fault .busUnmapped ∧
    step (hosting { busy small 0x0#32 with env := { small.env with turns := [.host] } } [readAt 0x400000]) =
      .fault .bufferWhileBusy ∧
    step (hosting small [readAt 0x100000]) = .fault .unwrittenHostRead := by
  refine ⟨?_, ?_, ?_, ?_, ?_, ?_, ?_, ?_⟩ <;> rfl

/-- The reset state and a state with a command in flight meet the invariant, and step on. -/
theorem witness_StepKeepsTheInvariant :
    (small.Inv ∧ ∃ t, step small = .next t) ∧ (busy small 0x2#32).Inv ∧ ∃ t, step (busy small 0x2#32) = .next t := by
  have hb : ∀ s : State, s.params.wf = true → s.bitin = [] → s.bitout = [] → s.clean = [] → s.noisy = [] →
      s.done = false → s.err = .ok → s.errIdx = 0#32 → s.outlen = 0#32 → s.params.symCap = 64 → s.Inv := by
    intro s h0 h1 h2 h3 h4 h5 h6 h7 h8 h9
    refine ⟨h0, ⟨?_, ?_, ?_, ?_, ?_, ?_, ?_, ?_⟩, fun _ => h5, fun _ => h6, fun _ _ => h7, ?_, ?_⟩
    all_goals simp_all [Memory.wf, Memory.within]
  exact ⟨⟨hb _ (by decide) rfl rfl rfl rfl rfl rfl rfl rfl rfl, _, rfl⟩,
    hb _ (by decide) rfl rfl rfl rfl rfl rfl rfl rfl rfl, _, rfl⟩

theorem witness_ResetAssertionClearsTheBlock :
    nextTurn { busy full 0x2#32 with env := { full.env with turns := [.resetAssert] } } = .resetAssert := by decide

theorem witness_NoAccessWhileResetIsHeld :
    let s := { busy full 0x2#32 with env := { full.env with resetHeld := true } }
    (s.env.resetHeld = true ∧ nextTurn s = .engine) ∧ nextTurn { s with engine := none } = .host := by decide

/-- A read of the last register; a write done twice, of a register and of the last word of BITIN. -/
theorem witness_ReadsHaveNoSideEffect :
    (∃ t, performAccess full ⟨0x038#24, 0xF#4, none⟩ = .next t) ∧
    (∃ t, performAccess full ⟨0x018#24, 0xF#4, some 5#32⟩ = .next t ∧
      ∃ u, performAccess t ⟨0x018#24, 0xF#4, some 5#32⟩ = .next u) ∧
    ∃ t, performAccess full ⟨0x10000C#24, 0xF#4, some 5#32⟩ = .next t ∧
      ∃ u, performAccess t ⟨0x10000C#24, 0xF#4, some 5#32⟩ = .next u :=
  ⟨⟨_, rfl⟩, ⟨_, rfl, _, rfl⟩, _, rfl, _, rfl⟩

/-- A misaligned offset, a narrow access, the last register and the first offset past it, and the offsets at and past
the end of each window. -/
theorem witness_IllegalAccessesAreBusErrors :
    (0x3B#24 : Offset).toNat % 4 ≠ 0 ∧ ((0x38#24 : Offset).toNat % 4 = 0 ∧ (0x7#4 : BitVec 4) ≠ 0xF#4) ∧
    (locate small.params 0x38 ≠ none ∧ locate small.params 0x3C = none ∧ locate small.params 0x10000C ≠ none ∧
      locate small.params 0x100010 = none ∧ locate small.params 0x20000C ≠ none ∧ locate small.params 0x200010 = none ∧
      locate small.params 0x4003FC ≠ none ∧ locate small.params 0x400400 = none ∧ locate small.params 0x8003FC ≠ none ∧
      locate small.params 0x800400 = none) := by decide

/-- The first and the last word of each window, read and written. -/
theorem witness_BufferAccessWhileBusyFaults :
    small.params.wf = true ∧ (busy small 0x2#32).engine = some (held small 0x2#32) ∧
    (∀ b : Buf, (Buf.base b) % 4 = 0 ∧ (Buf.base b + Buf.bytes small.params b - 4) % 4 = 0) ∧
    (0x100000 ≤ (0x10000C#24 : Offset).toNat ∧ (0x10000C#24 : Offset).toNat < 0x100000 + small.params.bitCap / 8) ∧
    (0x200000 ≤ (0x20000C#24 : Offset).toNat ∧ (0x20000C#24 : Offset).toNat < 0x200000 + small.params.bitCap / 8) ∧
    (0x400000 ≤ (0x4003FC#24 : Offset).toNat ∧ (0x4003FC#24 : Offset).toNat < 0x400000 + 16 * small.params.symCap) ∧
    (0x800000 ≤ (0x8003FC#24 : Offset).toNat ∧ (0x8003FC#24 : Offset).toNat < 0x800000 + 16 * small.params.symCap) := by
  refine ⟨by decide, rfl, fun b => by cases b <;> decide, by decide, by decide, by decide, by decide⟩

/-- The last word of BITIN and of BITOUT, written and unwritten. -/
theorem witness_BitWindowsPackMsbFirst :
    full.params.wf = true ∧ full.engine = none ∧ 32 * 3 < full.params.bitCap ∧
    (∀ j, j < 32 → Memory.get full.bitin (32 * 3 + j) = some (decide ((32 * 3 + j) % 3 = 0))) ∧
    (∀ j, j < 32 → Memory.get { full with bitout := bits 128 }.bitout (32 * 3 + j) =
      some (decide ((32 * 3 + j) % 3 = 0))) ∧
    Memory.get small.bitin (32 * 3 + 31) = none ∧ Memory.get small.bitout (32 * 3 + 31) = none := by decide +kernel

theorem witness_WrsymWritesTheEntry :
    let c := hosting small (expand (.wrsym .clean 63 one nan))
    let n := hosting small (expand (.wrsym .noisy 63 one nan))
    (c.params.wf = true ∧ c.engine = none ∧ c.env.resetHeld = false ∧ c.env.turns = [] ∧
      c.env.script = expand (.wrsym .clean 63 one nan) ∧ 63 < c.params.symCap) ∧
    n.env.script = expand (.wrsym .noisy 63 one nan) := by decide

theorem witness_SymbolEntryReadsAsFourWords :
    full.params.wf = true ∧ full.engine = none ∧ 63 < full.params.symCap ∧
      loadSymbol (sourceBuffer full .clean) 63 = some ⟨one, minusOne⟩ ∧
      loadSymbol (sourceBuffer full .noisy) 63 = some ⟨one, minusOne⟩ :=
  ⟨by decide, rfl, by decide, full_symbols .clean 63 (by decide), full_symbols .noisy 63 (by decide)⟩

theorem witness_InterruptFollowsDone :
    ((busy small 0x0#32).engine = some (held small 0x0#32) ∧ ∃ t, engineStep (busy small 0x0#32) = .next t) ∧
    ((2#32 : Word).getLsbD 1 = true ∧ ∃ t, performAccess small ⟨0x010#24, 0xF#4, some 2#32⟩ = .next t) ∧
    (small.engine = none ∧ ∃ t, performAccess small ⟨0x00C#24, 0xF#4, some 0x2#32⟩ = .next t) ∧
    (∃ t, performAccess (busy small 0x0#32) ⟨0x00C#24, 0xF#4, some 0x2#32⟩ = .next t) ∧
    nextTurn { small with env := { small.env with turns := [.resetAssert] } } = .resetAssert :=
  ⟨⟨rfl, _, rfl⟩, ⟨rfl, _, rfl⟩, ⟨rfl, _, rfl⟩, ⟨_, rfl⟩, rfl⟩

theorem witness_WaitPollsUntilIdle :
    (hosting small [.wait, readAt 0x018]).env.script = .wait :: [readAt 0x018] ∧
      (hosting small [.wait]).engine = none ∧ (hosting (busy small 0x2#32) [.wait]).engine = some (held small 0x2#32) := by
  decide

/-- A sum below and a sum at the overflow bound; a value on each side of a tie: 1 + 2^-53 lies halfway between 1 and the
next value; and exact zero sums, of terms that are no zeros (vector N4) and of two negative zeros. -/
theorem witness_AddRoundsToNearestEven :
    (Fp.isFinite largest = true ∧ Fp.isFinite one = true) ∧
    (Fp.units largest + Fp.units one).natAbs < (2 ^ 54 - 1) * 2 ^ 2044 ∧
    (2 ^ 54 - 1) * 2 ^ 2044 ≤ (Fp.units largest + Fp.units 0x7C90000000000000#64).natAbs ∧
    (let sum := Fp.units one + Fp.units 0x3CA0000000000000#64;
      Fp.add nan one 0x3CA0000000000000#64 = one ∧
      (sum - Fp.units one).natAbs = (sum - Fp.units 0x3FF0000000000001#64).natAbs ∧
      Fp.units 0x3FF0000000000001#64 ≠ Fp.units one) ∧
    (Fp.units three + Fp.units minusThree = 0 ∧ Fp.add nan three minusThree = 0#64 ∧
      Fp.units minusZero + Fp.units minusZero = 0 ∧ Fp.add nan minusZero minusZero = minusZero) := by decide +kernel

/-- A product below and a product at the overflow bound, and a tie: 2^-1074 times one half lies halfway between zero and
the least value. -/
theorem witness_MulRoundsToNearestEven :
    (Fp.isFinite largest = true ∧ Fp.isFinite half = true) ∧
    (Fp.units largest * Fp.units one).natAbs < (2 ^ 54 - 1) * 2 ^ 2044 * Fp.one ∧
    (2 ^ 54 - 1) * 2 ^ 2044 * Fp.one ≤ (Fp.units largest * Fp.units 0x3FF0000000000001#64).natAbs ∧
    (let prod := Fp.units 0x1#64 * Fp.units half;
      Fp.mul nan 0x1#64 half = 0#64 ∧
      (prod - Fp.units 0#64 * Fp.one).natAbs = (prod - Fp.units 0x1#64 * Fp.one).natAbs ∧
      Fp.units 0x1#64 ≠ Fp.units 0#64) := by decide +kernel

theorem witness_SigmaIsTheRoundedRoot :
    (Fp.isFinite two = true ∧ 0 ≤ Fp.units two ∧ Fp.isZero minusZero = true ∧ Fp.isFinite minusZero = true ∧
      0 ≤ Fp.units minusZero) ∧
    (Fp.isFinite 0x3FF6A09E667F3BCC#64 = true ∧ Fp.isFinite 0x3FF6A09E667F3BCE#64 = true) ∧
    0 ≤ Fp.units 0x3FF6A09E667F3BCC#64 ∧ Fp.units 0x3FF6A09E667F3BCC#64 < Fp.units (sigmaOf two) ∧
    Fp.units (sigmaOf two) < Fp.units 0x3FF6A09E667F3BCE#64 := by decide +kernel

/-- The last word of a half-written entry 63: a write, a read of its written word 254 and a read of its word 255. -/
theorem witness_SymbolWindowsHoldWords :
    let s := { small with clean := storeByteWord [] (4 * 254) 0xAABBCCDD#32 }
    (s.params.wf = true ∧ s.engine = none ∧ 4 * 255 < 16 * s.params.symCap) ∧
    (∀ j, j < 4 → Memory.get (sourceBuffer s .clean) (4 * 254 + j) =
      some (if j = 0 then 0xDD#8 else if j = 1 then 0xCC#8 else if j = 2 then 0xBB#8 else 0xAA#8)) ∧
    Memory.get (sourceBuffer s .clean) (4 * 255 + 3) = none ∧ Memory.get (sourceBuffer s .noisy) (4 * 255) = none ∧
    loadSymbol (sourceBuffer s .clean) 63 = none := by decide +kernel

theorem witness_ResetReleaseMakesTheBlockReady :
    let s := { busy full 0x2#32 with env := { full.env with resetHeld := true, turns := [.resetRelease] } }
    let r := hosting { busy full 0x2#32 with env := { full.env with turns := [.resetAssert, .resetRelease] } }
      [writeAt 0x018 4#32, .wait]
    nextTurn s = .resetRelease ∧ r.env.turns = [.resetAssert, .resetRelease] ∧
      r.env.script = writeAt 0x018 4#32 :: [.wait] := by decide

end Sys2Proof.Tests
end

section
/-!
PROOF. The writer table (R55): what no host move but a CMD write changes, what no command changes, and which command
changes which output.
-/

namespace Sys2Proof.Machine

/-! The host's side of the table. -/

/-- What every host move but a CMD write keeps (R55): the capacities, the command's outcome, the generator state and the
command in flight; DONE and DROP are not set. -/
structure HostKeeps (s t : State) : Prop where
  params : t.params = s.params
  outlen : t.outlen = s.outlen
  errIdx : t.errIdx = s.errIdx
  rng    : t.rng = s.rng
  done   : t.done = true → s.done = true
  drop   : t.drop = true → s.drop = true
  engine : t.engine = s.engine
  err    : t.err = s.err

theorem HostKeeps.refl (s : State) : HostKeeps s s := ⟨rfl, rfl, rfl, rfl, id, id, rfl, rfl⟩

theorem HostKeeps.trans {s t u : State} (h : HostKeeps s t) (k : HostKeeps t u) : HostKeeps s u where
  params := k.params.trans h.params
  outlen := k.outlen.trans h.outlen
  errIdx := k.errIdx.trans h.errIdx
  rng    := k.rng.trans h.rng
  done   := h.done ∘ k.done
  drop   := h.drop ∘ k.drop
  engine := k.engine.trans h.engine
  err    := k.err.trans h.err

theorem hostKeeps_withScript (s : State) (ops : List HostOp) : HostKeeps s (withScript s ops) :=
  ⟨rfl, rfl, rfl, rfl, id, id, rfl, rfl⟩

theorem hostKeeps_returned (s : State) (w : Word) : HostKeeps s (returned s w) :=
  ⟨rfl, rfl, rfl, rfl, id, id, rfl, rfl⟩

theorem hostKeeps_pollStatus (s : State) (rest : List HostOp) : HostKeeps s (pollStatus s rest) := by
  unfold pollStatus
  split
  · exact hostKeeps_returned s _
  · exact (hostKeeps_withScript s rest).trans (hostKeeps_returned _ _)

theorem hostKeeps_writeBuf (s : State) (b : Buf) (off : Nat) (w : Word) : HostKeeps s (writeBuf s b off w) := by
  cases b <;> exact ⟨rfl, rfl, rfl, rfl, id, id, rfl, rfl⟩

/-- A STATUS write only clears (R35). -/
theorem hostKeeps_writeStatus (s : State) (w : Word) : HostKeeps s (writeStatus s w) := by
  have hdrop : (s.drop && !w.getLsbD 2) = true → s.drop = true := fun h => (Bool.and_eq_true_iff.1 h).1
  unfold writeStatus
  split
  · exact ⟨rfl, rfl, rfl, rfl, nofun, hdrop, rfl, rfl⟩
  · exact ⟨rfl, rfl, rfl, rfl, id, hdrop, rfl, rfl⟩

theorem hostKeeps_writeReg (s : State) {r : Reg} (hr : r ≠ .cmd) (w : Word) : HostKeeps s (writeReg s r w) := by
  cases r
  case cmd => exact absurd rfl hr
  case status => exact hostKeeps_writeStatus s w
  all_goals exact ⟨rfl, rfl, rfl, rfl, id, id, rfl, rfl⟩

/-- An access that goes on at CMD is the aligned word access at its offset (R73). -/
theorem access_eq_of_locate_cmd {p : Config.Params} {a : Access} (hs : illegalShape a = none)
    (hl : locate p a.addr.toNat = some (.reg .cmd)) : a = ⟨0x00C#24, 0xF#4, a.write⟩ := by
  obtain ⟨-, hlanes⟩ := (illegalShape_eq_none_iff a).1 hs
  have haddr : a.addr = 0x00C#24 := BitVec.eq_of_toNat_eq (locate_eq_reg hl)
  rw [← haddr, ← hlanes]

/-- A host access that goes on is a CMD write or keeps what the table denies the host. -/
theorem performAccess_keeps_or_offers {s t : State} {a : Access} (h : performAccess s a = .next t) :
    HostKeeps s t ∨ ∃ c, a = ⟨0x00C#24, 0xF#4, some c⟩ ∧ t = offer s c := by
  obtain ⟨hs, ⟨r, hl, ⟨-, rfl⟩ | ⟨c, hc, rfl⟩⟩ | ⟨b, off, -, -, ⟨-, w, -, rfl⟩ | ⟨w, -, rfl⟩⟩⟩ := performAccess_next h
  · exact .inl (hostKeeps_returned s _)
  · by_cases hr : r = .cmd
    · subst hr
      exact .inr ⟨c, hc ▸ access_eq_of_locate_cmd hs hl, rfl⟩
    · exact .inl (hostKeeps_writeReg s hr c)
  · exact .inl (hostKeeps_returned s w)
  · exact .inl (hostKeeps_writeBuf s b off w)

/-- A host move that goes on is a CMD write or keeps what the table denies the host. -/
theorem hostStep_keeps_or_offers {s t : State} (h : hostStep s = .next t) :
    HostKeeps s t ∨ ∃ c rest, s.env.script = .access ⟨0x00C#24, 0xF#4, some c⟩ :: rest ∧
      t = offer (withScript s rest) c := by
  obtain ⟨-, rfl⟩ | ⟨rest, -, rfl⟩ | ⟨a, rest, hscript, ha⟩ := hostStep_next h
  · exact .inl (.refl t)
  · exact .inl (hostKeeps_pollStatus s rest)
  · obtain hk | ⟨c, rfl, rfl⟩ := performAccess_keeps_or_offers ha
    · exact .inl ((hostKeeps_withScript s rest).trans hk)
    · exact .inr ⟨c, rest, hscript, rfl⟩

/-! The engine's side of the table. -/

/-- What no command changes (R55): the capacities, DROP, CTRL, the operand registers, BITIN and the host's side. -/
structure EngineKeeps (s t : State) : Prop where
  params : t.params = s.params
  drop   : t.drop = s.drop
  irqEn  : t.irqEn = s.irqEn
  m      : t.m = s.m
  len    : t.len = s.len
  varLo  : t.varLo = s.varLo
  varHi  : t.varHi = s.varHi
  seedLo : t.seedLo = s.seedLo
  seedHi : t.seedHi = s.seedHi
  bitin  : t.bitin = s.bitin
  env    : t.env = s.env

/-- Each output that changes from s to t is one the table gives to the command i (R55). -/
structure OutputsOf (i : Instr) (s t : State) : Prop where
  symcnt : t.symcnt ≠ s.symcnt → i = .mod ∨ i = .const
  clean  : t.clean ≠ s.clean → i = .mod ∨ i = .const
  outlen : t.outlen ≠ s.outlen → ∃ src, i = .demod src
  bitout : t.bitout ≠ s.bitout → ∃ src, i = .demod src
  noisy  : t.noisy ≠ s.noisy → i = .awgn
  rng    : t.rng ≠ s.rng → i = .awgn ∨ i = .seed

theorem EngineKeeps.refl (s : State) : EngineKeeps s s := ⟨rfl, rfl, rfl, rfl, rfl, rfl, rfl, rfl, rfl, rfl, rfl⟩

theorem engineKeeps_finish {s w : State} (h : EngineKeeps s w) (e : Code) (j : Nat) : EngineKeeps s (finish w e j) :=
  ⟨h.params, h.drop, h.irqEn, h.m, h.len, h.varLo, h.varHi, h.seedLo, h.seedHi, h.bitin, h.env⟩

theorem BodyWrites.engineKeeps {i : Instr} {L : Latch} {s w : State} (h : BodyWrites i L s w) : EngineKeeps s w := by
  cases i with
  | nop => cases h; exact .refl s
  | const => obtain ⟨o, -, rfl⟩ := h; constructor <;> rfl
  | mod => obtain ⟨o, zs, -, -, -, -, -, rfl⟩ := h; constructor <;> rfl
  | awgn => obtain ⟨zs, -, -, -, rfl⟩ := h; constructor <;> rfl
  | demod src => obtain ⟨o, zs, -, -, -, -, rfl⟩ := h; constructor <;> rfl
  | seed => cases h; constructor <;> rfl

theorem BodyWrites.outputsOf {i : Instr} {L : Latch} {s w : State} (h : BodyWrites i L s w) : OutputsOf i s w := by
  cases i with
  | nop => cases h; constructor <;> simp
  | const => obtain ⟨o, -, rfl⟩ := h; constructor <;> simp
  | mod => obtain ⟨o, zs, -, -, -, -, -, rfl⟩ := h; constructor <;> simp
  | awgn => obtain ⟨zs, -, -, -, rfl⟩ := h; constructor <;> simp
  | demod src => obtain ⟨o, zs, -, -, -, -, rfl⟩ := h; constructor <;> simp
  | seed => cases h; constructor <;> simp

/-- An engine step that goes on completes the command: with no other write, or OK with the decoded command's writes. -/
theorem engineStep_finishes {s t : State} {L : Latch} (hL : s.engine = some L) (h : engineStep s = .next t) :
    ∃ w e j, t = finish w e j ∧ (w = s ∨ (e = .ok ∧ ∃ i, decode L.cmd = .ok i ∧ BodyWrites i L s w)) := by
  obtain ⟨i, hi, hx⟩ | ⟨-, rfl⟩ := engineStep_next hL h
  · obtain ⟨L', hL', ⟨w, hw, rfl⟩ | ⟨e, j, -, rfl, -⟩⟩ := exec_next hx
    · obtain rfl : L = L' := Option.some.inj (hL.symm.trans hL')
      exact ⟨w, .ok, 0, rfl, .inr ⟨rfl, i, hi, hw⟩⟩
    · exact ⟨s, e, j, rfl, .inl rfl⟩
  · exact ⟨s, .illegalCommand, 0, rfl, .inl rfl⟩

/-- Settles O27: a host move other than a CMD write keeps what the table denies the host, and a CMD write is accepted or
dropped; an engine step is a completion, with the writes of the decoded command where it is OK. -/
theorem writerTable : Obligations.WriterTable := by
  unfold Obligations.WriterTable
  constructor
  · intro s t h
    obtain hk | ⟨c, rest, hscript, rfl⟩ := hostStep_keeps_or_offers h
    · exact ⟨hk.params, hk.outlen, hk.errIdx, hk.rng, hk.done, .inl ∘ hk.drop, .inl ⟨hk.engine, hk.err⟩⟩
    · cases he : s.engine with
      | none =>
        rw [offer_of_idle (s := withScript s rest) he]
        exact ⟨rfl, rfl, rfl, rfl, nofun, .inl, .inr ⟨rfl, nofun, rfl, rfl, c, rest, hscript⟩⟩
      | some L =>
        rw [offer_of_busy (s := withScript s rest) he]
        exact ⟨rfl, rfl, rfl, rfl, id, fun _ => .inr ⟨⟨L, rfl⟩, c, rest, hscript⟩, .inl ⟨he, rfl⟩⟩
  · intro s t L hL h
    obtain ⟨w, e, j, rfl, hw⟩ := engineStep_finishes hL h
    have hk : EngineKeeps s (finish w e j) := by
      obtain rfl | ⟨-, i, -, hb⟩ := hw
      · exact engineKeeps_finish (.refl w) e j
      · exact engineKeeps_finish hb.engineKeeps e j
    refine ⟨hk.params, hk.drop, hk.irqEn, hk.m, hk.len, hk.varLo, hk.varHi, hk.seedLo, hk.seedHi, hk.bitin, hk.env,
      rfl, rfl, ?_⟩
    obtain rfl | ⟨rfl, i, hi, hb⟩ := hw
    · simp
    · obtain ⟨hsymcnt, hclean, houtlen, hbitout, hnoisy, hrng⟩ := hb.outputsOf
      simpa [hi] using ⟨hsymcnt, hclean, houtlen, hbitout, hnoisy, hrng⟩

end Sys2Proof.Machine
end

section
/-!
PROOF. Illegal accesses and unmapped offsets of the host port (R72, R73), and the words of the bit windows (R75, R49).
-/

namespace Sys2Proof.Machine

/-! Illegal shapes. -/

theorem illegalShape_of_misaligned {a : Access} (h : a.addr.toNat % 4 ≠ 0) : illegalShape a = some .busMisaligned :=
  if_pos h

theorem illegalShape_of_narrow {a : Access} (h : a.addr.toNat % 4 = 0) (hl : a.lanes ≠ 0xF#4) :
    illegalShape a = some .busLanes :=
  (if_neg (not_not.2 h)).trans (if_pos hl)

/-- The shape of an access decides before its offset is looked up (R73). -/
theorem performAccess_of_illegalShape (s : State) {a : Access} {e : Fault} (h : illegalShape a = some e) :
    performAccess s a = .fault e := by
  simp only [performAccess, h]

/-- An access of legal shape gets neither bus error of shape (R73). -/
theorem performAccess_not_shape_fault (s : State) {a : Access} (h : illegalShape a = none) :
    performAccess s a ≠ .fault .busMisaligned ∧ performAccess s a ≠ .fault .busLanes := by
  obtain ⟨u, hx⟩ | ⟨e, he, -⟩ | ⟨-, ⟨hx, -⟩ | ⟨b, off, -, ⟨hx, -⟩ | ⟨hx, -⟩⟩⟩ := performAccess_answers s a
  case inr.inl => rw [h] at he; cases he
  all_goals rw [hx]; exact ⟨nofun, nofun⟩

/-! Unmapped offsets. -/

/-- An access of legal shape is the unmapped fault exactly where the address map has no target (R72). -/
theorem performAccess_unmapped_iff (s : State) {a : Access} (h : illegalShape a = none) :
    performAccess s a = .fault .busUnmapped ↔ locate s.params a.addr.toNat = none := by
  constructor
  · intro hf
    obtain ⟨u, hx⟩ | ⟨e, he, -⟩ | ⟨-, ⟨-, hl⟩ | ⟨b, off, -, ⟨hx, -⟩ | ⟨hx, -⟩⟩⟩ := performAccess_answers s a
    case inr.inl => rw [h] at he; cases he
    case inr.inr.inl => exact hl
    all_goals rw [hx] at hf; cases hf
  · intro hl
    simp only [performAccess, h, hl]

theorem Buf.forall_iff {P : Buf → Prop} : (∀ b, P b) ↔ P .bitin ∧ P .bitout ∧ P .clean ∧ P .noisy :=
  ⟨fun h => ⟨h _, h _, h _, h _⟩, fun ⟨h1, h2, h3, h4⟩ b => by cases b <;> assumption⟩

/-- An aligned offset is unmapped when it is past the registers and outside the four windows (R72). -/
theorem locate_aligned_eq_none_iff (p : Config.Params) {a : Nat} (ha : a % 4 = 0) :
    locate p a = none ↔ 0x3C ≤ a ∧ ∀ b, ¬ (Buf.base b ≤ a ∧ a < Buf.base b + Buf.bytes p b) := by
  rw [locate_eq_none_iff, and_iff_left ha, Nat.not_lt]

/-- Settles O36: the shape of an access is judged before its offset, and an aligned offset has no target exactly past the
registers and outside the windows. -/
theorem illegalAccessesAreBusErrors : Obligations.IllegalAccessesAreBusErrors := by
  unfold Obligations.IllegalAccessesAreBusErrors
  intro s a
  refine ⟨fun h => performAccess_of_illegalShape s (illegalShape_of_misaligned h),
    fun h hl => performAccess_of_illegalShape s (illegalShape_of_narrow h hl), fun h hl => ?_⟩
  have hs : illegalShape a = none := (illegalShape_eq_none_iff a).2 ⟨h, hl⟩
  obtain ⟨hmis, hlanes⟩ := performAccess_not_shape_fault s hs
  refine ⟨hmis, hlanes, ?_⟩
  rw [performAccess_unmapped_iff s hs, locate_aligned_eq_none_iff _ h, Buf.forall_iff]
  rfl

/-! The bit windows. -/

section
variable {s : State} {b : Buf} {l : List (Nat × Bool)} {w : Nat}

/-- A host read of a word whose 32 bits are written returns them, the first bit most significant (R75). -/
theorem performAccess_readBits (hp : s.params.wf = true) (he : s.engine = none)
    (hb : readBuf s b (4 * w) = loadBitWord l (4 * w)) (hw : 4 * w < Buf.bytes s.params b) {bit : Nat → Bool}
    (h : ∀ j, j < 32 → Memory.get l (32 * w + j) = some (bit j)) :
    ∃ r : Word, (∀ j, j < 32 → r.getLsbD (31 - j) = bit j) ∧
      performAccess s ⟨BitVec.ofNat 24 (Buf.base b + 4 * w), 0xF#4, none⟩ = .next (returned s r) := by
  obtain ⟨r, hr, hload⟩ := loadBitWord_eq_some h
  exact ⟨r, hr, performAccess_readBuf hp he b hw (Nat.mul_mod_right 4 w) (hb.trans hload)⟩

/-- A host read of a word with an unwritten bit is a fault (R49). -/
theorem performAccess_readBits_unwritten (hp : s.params.wf = true) (he : s.engine = none)
    (hb : readBuf s b (4 * w) = loadBitWord l (4 * w)) (hw : 4 * w < Buf.bytes s.params b) {j : Nat} (hj : j < 32)
    (h : Memory.get l (32 * w + j) = none) :
    performAccess s ⟨BitVec.ofNat 24 (Buf.base b + 4 * w), 0xF#4, none⟩ = .fault .unwrittenHostRead :=
  performAccess_readBuf_none hp he b hw (Nat.mul_mod_right 4 w) (hb.trans (loadBitWord_eq_none hj h))

end

/-- A word inside a bit buffer is inside its window (R72, R75). -/
theorem bitWord_lt_window {p : Config.Params} (hp : p.wf = true) {w : Nat} (hw : 32 * w < p.bitCap) :
    4 * w < p.bitCap / 8 := by
  obtain ⟨-, -, -, -, h32⟩ := (wf_iff p).1 hp
  omega

/-- Settles O38: an access of an idle block at a bit window is one run of 32 cells stored or loaded, and such a run holds
the word's bits from the most significant down. -/
theorem bitWindowsPackMsbFirst : Obligations.BitWindowsPackMsbFirst := by
  unfold Obligations.BitWindowsPackMsbFirst
  intro s w v hp he hw
  have ho : 4 * w < s.params.bitCap / 8 := bitWord_lt_window hp hw
  have hm : 4 * w % 4 = 0 := Nat.mul_mod_right 4 w
  obtain ⟨hin, hinFrame⟩ := get_storeBitWord s.bitin w v
  obtain ⟨hout, houtFrame⟩ := get_storeBitWord s.bitout w v
  exact ⟨⟨_, performAccess_writeBuf hp he .bitin ho hm v, hin, hinFrame, rfl⟩,
    ⟨_, performAccess_writeBuf hp he .bitout ho hm v, hout, houtFrame, rfl⟩,
    fun _ h => performAccess_readBits (b := .bitin) hp he rfl ho h,
    fun _ h => performAccess_readBits (b := .bitout) hp he rfl ho h,
    fun _ hj h => performAccess_readBits_unwritten (b := .bitin) hp he rfl ho hj h,
    fun _ hj h => performAccess_readBits_unwritten (b := .bitout) hp he rfl ho hj h⟩

end Sys2Proof.Machine
end

section
/-!
PROOF. The legal command words (R104): a word decodes exactly when it is the word of a command, and the engine's answer to
a word that decodes to none (R136).
-/

namespace Sys2Proof

/-! The fields of a word. -/

/-- A word is its four fields (R101). -/
theorem eq_of_fields_eq {c d : Word} (hop : opField c = opField d) (hrsv0 : rsv0Field c = rsv0Field d)
    (hsrc : srcField c = srcField d) (hrsv1 : rsv1Field c = rsv1Field d) : c = d := by
  have hop' := BitVec.eq_of_toNat_eq hop
  have hrsv0' := BitVec.eq_of_toNat_eq hrsv0
  have hrsv1' := BitVec.eq_of_toNat_eq hrsv1
  apply BitVec.eq_of_getLsbD_eq
  intro k hk
  obtain h | h | h | h : k < 4 ∨ (4 ≤ k ∧ k < 8) ∨ k = 8 ∨ 9 ≤ k := by omega
  · simpa [h] using congrArg (·.getLsbD k) hop'
  · simpa [show k - 4 < 4 by omega, h.1] using congrArg (·.getLsbD (k - 4)) hrsv0'
  · exact h ▸ hsrc
  · simpa [show k - 9 < 23 by omega, h] using congrArg (·.getLsbD (k - 9)) hrsv1'

/-- The fields of a command's word (R102). -/
theorem fields_encode (i : Instr) :
    opField (encode i) = (opcodeOf i).toNat ∧ rsv0Field (encode i) = 0 ∧ srcField (encode i) = srcOf i ∧
      rsv1Field (encode i) = 0 := by
  cases i with
  | demod src => cases src <;> decide
  | _ => decide

/-! The decoder. -/

/-- What the decoder has read where it answers a command. -/
theorem fields_of_decode {c : Word} {i : Instr} (h : decode c = .ok i) :
    opField c = (opcodeOf i).toNat ∧ rsv0Field c = 0 ∧ srcField c = srcOf i ∧ rsv1Field c = 0 := by
  unfold decode at h
  split_ifs at h with hop hrsv0 hrsv1 hsrc
  rw [not_not] at hrsv0 hrsv1
  have hclear : opField c ≠ 4 → srcField c = false := fun h4 => by simpa [h4] using hsrc
  have hsource : srcField c = srcBit (sourceOf (srcField c)) := by cases srcField c <;> rfl
  split at h <;> cases h
  case h_5 hop4 => exact ⟨hop4, hrsv0, hsource, hrsv1⟩
  all_goals
    rename_i hopn
    exact ⟨hopn, hrsv0, hclear (by omega), hrsv1⟩

theorem decode_encode (i : Instr) : decode (encode i) = .ok i := by
  cases i with
  | nop => exact Laws.RoundTrip.nop.2
  | const => exact Laws.RoundTrip.const.2
  | mod => exact Laws.RoundTrip.mod.2
  | awgn => exact Laws.RoundTrip.awgn.2
  | demod src => exact (Laws.RoundTrip.demod src).2
  | seed => exact Laws.RoundTrip.seed.2

/-- The words that decode to a command are that command's one word (R106). -/
theorem decode_eq_ok_iff {c : Word} {i : Instr} : decode c = .ok i ↔ c = encode i := by
  constructor
  · intro h
    obtain ⟨hop, hrsv0, hsrc, hrsv1⟩ := fields_of_decode h
    obtain ⟨eop, ersv0, esrc, ersv1⟩ := fields_encode i
    exact eq_of_fields_eq (hop.trans eop.symm) (hrsv0.trans ersv0.symm) (hsrc.trans esrc.symm) (hrsv1.trans ersv1.symm)
  · rintro rfl
    exact decode_encode i

/-- A word decodes exactly under the four conditions of R104. -/
theorem exists_decode_iff_fields (c : Word) :
    (∃ i, decode c = .ok i) ↔
      opField c ≤ 5 ∧ rsv0Field c = 0 ∧ rsv1Field c = 0 ∧ (srcField c = false ∨ opField c = 4) := by
  constructor
  · rintro ⟨i, h⟩
    obtain ⟨hop, hrsv0, hsrc, hrsv1⟩ := fields_of_decode h
    rw [hop, hsrc]
    refine ⟨?_, hrsv0, hrsv1, ?_⟩ <;> cases i <;> simp [opcodeOf, srcOf]
  · rintro ⟨hop, hrsv0, hrsv1, hsrc⟩
    have hsrc' : ¬ (srcField c = true ∧ opField c ≠ 4) := fun ⟨ht, h4⟩ => hsrc.elim (by simp [ht]) h4
    rw [decode, if_neg (by omega), if_neg (not_not.2 hrsv0), if_neg (not_not.2 hrsv1), if_neg hsrc']
    interval_cases opField c <;> exact ⟨_, rfl⟩

/-- The seven words of R102. -/
theorem exists_eq_encode_iff (c : Word) :
    (∃ i, c = encode i) ↔
      c = 0x0#32 ∨ c = 0x1#32 ∨ c = 0x2#32 ∨ c = 0x3#32 ∨ c = 0x4#32 ∨ c = 0x104#32 ∨ c = 0x5#32 := by
  constructor
  · rintro ⟨i, rfl⟩
    cases i with
    | demod src => cases src <;> decide
    | _ => decide
  · rintro (h | h | h | h | h | h | h)
    exacts [⟨.nop, h⟩, ⟨.const, h⟩, ⟨.mod, h⟩, ⟨.awgn, h⟩, ⟨.demod .clean, h⟩, ⟨.demod .noisy, h⟩, ⟨.seed, h⟩]

end Sys2Proof

namespace Sys2Proof.Machine

/-! The engine. -/

/-- A latched word that is no command completes with IllegalCommand (R136). -/
theorem engineStep_of_decode_error {s : State} {L : Latch} {e : DecodeError} (hL : s.engine = some L)
    (he : decode L.cmd = .error e) : engineStep s = .next (finish s .illegalCommand 0) := by
  simp only [engineStep, hL, he]
  exact withCommand_of_busy hL _

/-- Settles O2: the decoder answers a command exactly under the conditions of R104, its commands' words are the seven, and
any other latched word is completed with nothing written but the completion's fields. -/
theorem legalWordsAreTheSeven : Obligations.LegalWordsAreTheSeven := by
  unfold Obligations.LegalWordsAreTheSeven
  intro c
  refine ⟨exists_decode_iff_fields c, ?_, ?_⟩
  · simp only [decode_eq_ok_iff]
    exact exists_eq_encode_iff c
  · rintro s L hL rfl hno
    cases hd : decode L.cmd with
    | ok i => exact absurd ⟨i, hd⟩ hno
    | error e => exact engineStep_of_decode_error hL hd

end Sys2Proof.Machine
end

section
/-!
PROOF. The command engine's host side: a CMD write (R130 to R132), the latched operands a command sees (R131, R302), and
NOP (R135).
-/

namespace Sys2Proof.Machine

/-! A CMD write. -/

/-- A CMD write to an idle block is an acceptance (R130). -/
theorem performAccess_cmd_of_idle {s : State} (h : s.engine = none) (c : Word) :
    performAccess s ⟨0x00C#24, 0xF#4, some c⟩ = .next (accept s c) :=
  (performAccess_writeReg s .cmd c).trans (congrArg _ (offer_of_idle h c))

/-- A CMD write to a busy block is dropped (R132). -/
theorem performAccess_cmd_of_busy {s : State} {L : Latch} (h : s.engine = some L) (c : Word) :
    performAccess s ⟨0x00C#24, 0xF#4, some c⟩ = .next { s with drop := true } :=
  (performAccess_writeReg s .cmd c).trans (congrArg _ (offer_of_busy h c))

/-- On the host's turn a step outside reset is the first access of the script (R81). -/
theorem step_of_access {s : State} {a : Access} {rest : List HostOp} (hr : s.env.resetHeld = false)
    (hn : nextTurn s = .host) (hscript : s.env.script = .access a :: rest) :
    step s = performAccess (withScript (popTurn s) rest) a := by
  simp [step, advance, move, hostStep, hn, hr, hscript]

/-- Settles O6: the step is the access, which the block takes as idle or busy as it is. -/
theorem commandWriteIsAcceptedWhenIdle : Obligations.CommandWriteIsAcceptedWhenIdle := by
  unfold Obligations.CommandWriteIsAcceptedWhenIdle
  intro s c rest hr hn hscript
  rw [step_of_access hr hn hscript]
  exact ⟨fun h => performAccess_cmd_of_idle (s := withScript (popTurn s) rest) h c,
    fun _ h => performAccess_cmd_of_busy (s := withScript (popTurn s) rest) h c⟩

/-! What clears DROP. -/

/-- An access that goes on at a register is the aligned word access at its offset (R73). -/
theorem access_eq_of_locate_reg {p : Config.Params} {a : Access} {r : Reg} (hs : illegalShape a = none)
    (hl : locate p a.addr.toNat = some (.reg r)) : a = ⟨BitVec.ofNat 24 (Reg.offset r), 0xF#4, a.write⟩ := by
  obtain ⟨-, hlanes⟩ := (illegalShape_eq_none_iff a).1 hs
  have haddr : a.addr = BitVec.ofNat 24 (Reg.offset r) := by
    rw [← locate_eq_reg hl, BitVec.ofNat_toNat, BitVec.setWidth_eq]
  rw [← haddr, ← hlanes]

/-- The one register write that clears DROP is a STATUS write with bit 2 (R35). -/
theorem status_of_writeReg_clears_drop {s : State} {r : Reg} {w : Word} (hs : s.drop = true)
    (ht : (writeReg s r w).drop = false) : r = .status ∧ w.getLsbD 2 = true := by
  cases r
  case status => exact ⟨rfl, by simpa [writeReg, writeStatus, hs] using ht⟩
  case cmd =>
    cases he : s.engine with
    | none => simp [writeReg, offer_of_idle he, hs] at ht
    | some L => simp [writeReg, offer_of_busy he] at ht
  all_goals nomatch hs.symm.trans ht

theorem writeBuf_drop (s : State) (b : Buf) (off : Nat) (w : Word) : (writeBuf s b off w).drop = s.drop := by
  cases b <;> rfl

/-- The one host access that clears DROP is a STATUS write with bit 2 (R132). -/
theorem status_of_performAccess_clears_drop {s t : State} {a : Access} (h : performAccess s a = .next t)
    (hs : s.drop = true) (ht : t.drop = false) :
    ∃ w : Word, a = ⟨0x010#24, 0xF#4, some w⟩ ∧ w.getLsbD 2 = true := by
  obtain ⟨hshape, ⟨r, hl, ⟨-, rfl⟩ | ⟨w, hw, rfl⟩⟩ | ⟨b, off, -, -, ⟨-, w, -, rfl⟩ | ⟨w, -, rfl⟩⟩⟩ :=
    performAccess_next h
  · nomatch hs.symm.trans ht
  · obtain ⟨rfl, hbit⟩ := status_of_writeReg_clears_drop hs ht
    exact ⟨w, hw ▸ access_eq_of_locate_reg hshape hl, hbit⟩
  · nomatch hs.symm.trans ht
  · nomatch hs.symm.trans ((writeBuf_drop s b off w).symm.trans ht)

theorem pollStatus_drop (s : State) (rest : List HostOp) : (pollStatus s rest).drop = s.drop := by
  unfold pollStatus
  split <;> rfl

/-- The one host move that clears DROP is a STATUS write with bit 2 (R132). -/
theorem status_of_hostStep_clears_drop {s t : State} (h : hostStep s = .next t) (hs : s.drop = true)
    (ht : t.drop = false) :
    ∃ (w : Word) (rest : List HostOp), s.env.script = .access ⟨0x010#24, 0xF#4, some w⟩ :: rest ∧ w.getLsbD 2 = true := by
  obtain ⟨-, rfl⟩ | ⟨rest, -, rfl⟩ | ⟨a, rest, hscript, ha⟩ := hostStep_next h
  · nomatch hs.symm.trans ht
  · nomatch hs.symm.trans ((pollStatus_drop s rest).symm.trans ht)
  · obtain ⟨w, rfl, hbit⟩ := status_of_performAccess_clears_drop ha hs ht
    exact ⟨w, rest, hscript, hbit⟩

/-- No engine step touches DROP (R55). -/
theorem engineStep_drop {s t : State} (h : engineStep s = .next t) : t.drop = s.drop := by
  cases hL : s.engine with
  | none =>
    simp only [engineStep, hL] at h
    cases h
    rfl
  | some L =>
    obtain ⟨-, hdrop, -⟩ := writerTable.2 s t L hL h
    exact hdrop

/-- Settles O8: of the five moves a step can be, the engine's, a passed turn and the release of reset keep DROP, and the
host's clears it only by a STATUS write. -/
theorem droppedCommandStaysVisible : Obligations.DroppedCommandStaysVisible := by
  unfold Obligations.DroppedCommandStaysVisible
  refine ⟨fun s L c hL => performAccess_cmd_of_busy hL c, fun s t hs h ht => ?_⟩
  obtain ⟨hn, hr, hx⟩ | ⟨-, -, hx⟩ | ⟨-, -, rfl⟩ | ⟨hn, -⟩ | ⟨-, rfl⟩ := step_next h
  · exact .inr ⟨hn, hr, status_of_hostStep_clears_drop (s := popTurn s) hx hs ht⟩
  · nomatch hs.symm.trans ((engineStep_drop hx).symm.trans ht)
  · nomatch hs.symm.trans ht
  · exact .inl hn
  · nomatch hs.symm.trans ht

/-! The latched operands. -/

/-- No host move changes the latched set of a command in flight (R131). -/
theorem hostStep_keeps_latch {s t : State} {L : Latch} (hL : s.engine = some L) (h : hostStep s = .next t) :
    t.engine = some L := by
  obtain hk | ⟨c, rest, -, rfl⟩ := hostStep_keeps_or_offers h
  · exact hk.engine.trans hL
  · rw [offer_of_busy (s := withScript s rest) hL]
    exact hL

/-- The operand registers (R37 to R42). -/
structure Operands where
  m      : Word
  len    : Word
  symcnt : Word
  varLo  : Word
  varHi  : Word
  seedLo : Word
  seedHi : Word

/-- The state with other values in the operand registers, as host writes leave them. -/
def State.withOperands (s : State) (r : Operands) : State :=
  { s with m := r.m, len := r.len, symcnt := r.symcnt, varLo := r.varLo, varHi := r.varHi, seedLo := r.seedLo
           seedHi := r.seedHi }

@[simp] theorem State.withOperands_bitin (s : State) (r : Operands) : (s.withOperands r).bitin = s.bitin := rfl
@[simp] theorem State.withOperands_clean (s : State) (r : Operands) : (s.withOperands r).clean = s.clean := rfl
@[simp] theorem State.withOperands_engine (s : State) (r : Operands) : (s.withOperands r).engine = s.engine := rfl

@[simp] theorem sourceBuffer_withOperands (s : State) (r : Operands) (src : Source) :
    sourceBuffer (s.withOperands r) src = sourceBuffer s src := by
  cases src <;> rfl

/-- The operand registers after the command i has led to t, where they held r before: CONST and MOD that complete OK
overwrite SYMCNT (R302). -/
def Operands.after (r : Operands) (i : Instr) (t : State) : Operands :=
  { r with symcnt := if (i = .const ∨ i = .mod) ∧ t.err = .ok then t.symcnt else r.symcnt }

/-- An answer with its next state changed. -/
def mapNext (f : State → State) : Result → Result
  | .next t => .next (f t)
  | .fault e => .fault e
  | .refused e => .refused e

section
variable {s : State} {r : Operands} {i : Instr}

/-- An error completion leaves the operand registers as they are (R266). -/
theorem raise_withOperands {e : Code} (he : e ≠ .ok) (j : Nat) :
    raise (s.withOperands r) e j = mapNext (fun t => t.withOperands (r.after i t)) (raise s e j) := by
  have hafter : r.after i (finish s e j) = r := by simp [Operands.after, he]
  simp only [raise, mapNext, hafter]
  rfl

/-- The operand registers do not decide whether a command is in flight, nor what it has latched (R131). -/
theorem withCommand_withOperands {f f' : Latch → Result} {g : State → State} (h : ∀ L, f' L = mapNext g (f L)) :
    withCommand (s.withOperands r) f' = mapNext g (withCommand s f) := by
  cases hL : s.engine with
  | none => simp only [withCommand, State.withOperands_engine, hL, mapNext]
  | some L => rw [withCommand_of_busy hL, withCommand_of_busy (s := s.withOperands r) hL, h]

/-- A check that does not see the operand registers, its error among the answers (R265). -/
theorem check_withOperands {c : Prop} [Decidable c] {e : Code} {j : Nat} {x x' : Result} (he : e ≠ .ok)
    (h : x' = mapNext (fun t => t.withOperands (r.after i t)) x) :
    (if c then raise (s.withOperands r) e j else x') =
      mapNext (fun t => t.withOperands (r.after i t)) (if c then raise s e j else x) := by
  split_ifs
  · exact raise_withOperands he j
  · exact h

/-- The check of the latched M does not see the operand registers (R131, R261). -/
theorem withOrder_withOperands {m : Word} {f f' : Order → Result}
    (h : ∀ o, f' o = mapNext (fun t => t.withOperands (r.after i t)) (f o)) :
    withOrder (s.withOperands r) m f' = mapNext (fun t => t.withOperands (r.after i t)) (withOrder s m f) := by
  cases ho : modOrder m with
  | none => rw [withOrder_of_unsupported ho, withOrder_of_unsupported ho, raise_withOperands (by decide)]
  | some o => rw [withOrder_of_supported ho, withOrder_of_supported ho, h]

end

/-- A command sees its latched operands alone: with other values in the operand registers it gives the same answer, those
registers kept but for the SYMCNT that CONST and MOD write (R131, R302). -/
theorem exec_withOperands (i : Instr) (s : State) (r : Operands) :
    exec i (s.withOperands r) = mapNext (fun t => t.withOperands (r.after i t)) (exec i s) := by
  cases i with
  | nop => exact withCommand_withOperands fun L => rfl
  | const => exact withCommand_withOperands fun L => withOrder_withOperands fun o => rfl
  | mod =>
    refine withCommand_withOperands fun L => withOrder_withOperands fun o =>
      check_withOperands (by decide) (check_withOperands (by decide) ?_)
    rw [State.withOperands_bitin]
    cases modulate o s.bitin (L.len.toNat / o.bps) <;> rfl
  | awgn =>
    refine withCommand_withOperands fun L => check_withOperands (by decide) (check_withOperands (by decide) ?_)
    rw [State.withOperands_clean]
    cases collect (loadSymbol s.clean) 0 L.symcnt.toNat <;> rfl
  | demod src =>
    refine withCommand_withOperands fun L => withOrder_withOperands fun o => check_withOperands (by decide) ?_
    rw [sourceBuffer_withOperands]
    cases scan (sourceBuffer s src) 0 L.symcnt.toNat <;> rfl
  | seed => exact withCommand_withOperands fun L => rfl

/-- Settles O7: acceptance latches, no host move touches the latched set, and a command's answer is the same whatever the
operand registers hold. -/
theorem latchedOperandsAreTheOnlyOnes : Obligations.LatchedOperandsAreTheOnlyOnes := by
  unfold Obligations.LatchedOperandsAreTheOnlyOnes
  refine ⟨fun s c h => performAccess_cmd_of_idle h c, fun s t L hL h => hostStep_keeps_latch hL h, ?_⟩
  intro i s t m len symcnt varLo varHi seedLo seedHi h
  have hx := exec_withOperands i s ⟨m, len, symcnt, varLo, varHi, seedLo, seedHi⟩
  rw [h] at hx
  exact hx

/-! NOP. -/

/-- Settles O11: with a command in flight NOP is the completion with OK. -/
theorem nopCompletesOk : Obligations.NopCompletesOk := by
  unfold Obligations.NopCompletesOk
  intro s L hL
  exact withCommand_of_busy hL fun _ => complete s

end Sys2Proof.Machine
end

section
/-!
PROOF. CONST (R160 to R162): what it answers for a supported M and for every other, and what CLEAN then holds.
-/

namespace Sys2Proof.Machine

/-- CONST of a supported M completes OK with that order's constellation in CLEAN and M in SYMCNT (R162). -/
theorem exec_const {s : State} {L : Latch} {o : Order} (hL : s.engine = some L) (ho : modOrder L.m = some o) :
    exec .const s =
      complete { s with clean := storeSymbols s.clean (constellation o), symcnt := BitVec.ofNat 32 o.size } :=
  (withCommand_of_busy hL _).trans (withOrder_of_supported ho _)

/-- CONST of an unsupported M completes with InvalidConfiguration (R261). -/
theorem exec_const_of_unsupported {s : State} {L : Latch} (hL : s.engine = some L) (ho : modOrder L.m = none) :
    exec .const s = raise s .invalidConfiguration 0 :=
  (withCommand_of_busy hL _).trans (withOrder_of_unsupported ho _)

/-- Entry idx of a stored constellation is the point idx, whatever the buffer held (R160). -/
theorem loadSymbol_storeSymbols_constellation (l : List Host.Cell) {o : Order} {idx : Nat} (h : idx < o.size) :
    loadSymbol (storeSymbols l (constellation o)) idx = some (point o idx) := by
  rw [loadSymbol_storeSymbols, constellation_length, if_pos h, constellation_get? o h]

/-- Settles O13: a supported M stores its constellation, whose points are finite and exact, over the first 16 M bytes of
CLEAN; an unsupported M only completes with its error. -/
theorem constWritesTheConstellation : Obligations.ConstWritesTheConstellation := by
  unfold Obligations.ConstWritesTheConstellation
  intro s L hL
  refine ⟨fun o hm => ⟨_, exec_const hL ((modOrder_eq_some_iff _ o).2 hm), ?_, ?_, ?_⟩, fun h4 h16 h64 => ?_⟩
  · intro idx hidx
    exact ⟨point o idx, loadSymbol_storeSymbols_constellation s.clean hidx, point_exact o idx hidx⟩
  · intro a ha
    exact get_storeSymbols_of_le s.clean (constellation o) (by rwa [constellation_length])
  · rw [hm]
    rfl
  · exact exec_const_of_unsupported hL ((modOrder_eq_none_iff _).2 ⟨h4, h16, h64⟩)

end Sys2Proof.Machine
end

section
/-!
PROOF. MOD (R180, R181): its three errors in their order, its stop at an unwritten bit, and what CLEAN holds after a
success.
-/

namespace Sys2Proof.Machine

/-! The errors. -/

/-- MOD of an unsupported M completes with InvalidConfiguration (R261). -/
theorem exec_mod_of_unsupported {s : State} {L : Latch} (hL : s.engine = some L) (ho : modOrder L.m = none) :
    exec .mod s = raise s .invalidConfiguration 0 :=
  (withCommand_of_busy hL _).trans (withOrder_of_unsupported ho _)

section
variable {s : State} {L : Latch} {o : Order} (hL : s.engine = some L) (ho : modOrder L.m = some o)
include hL ho

/-- MOD of a LEN that is no whole number of chunks completes with InvalidInput (R180). -/
theorem exec_mod_of_ragged (h : L.len.toNat % o.bps ≠ 0) : exec .mod s = raise s .invalidInput 0 :=
  ((withCommand_of_busy hL _).trans (withOrder_of_supported ho _)).trans (if_pos h)

/-- MOD of whole chunks past a capacity completes with CapacityExceeded (R180). -/
theorem exec_mod_of_overfull (h : L.len.toNat % o.bps = 0)
    (hcap : s.params.bitCap < L.len.toNat ∨ s.params.symCap < L.len.toNat / o.bps) :
    exec .mod s = raise s .capacityExceeded 0 :=
  ((withCommand_of_busy hL _).trans (withOrder_of_supported ho _)).trans ((if_neg (not_not.2 h)).trans (if_pos hcap))

end

/-! Past the checks. -/

/-- Entry k of the stored symbols of n written chunks is the point of chunk k's sum, whatever the buffer held (R181). -/
theorem loadSymbol_storeSymbols_modulate (l : List Host.Cell) {o : Order} {bits : List (Nat × Bool)} {bit : Nat → Bool}
    {n k : Nat} {zs : List Symbol} (hbit : ∀ i, i < n * o.bps → Memory.get bits i = some (bit i))
    (hzs : modulate o bits n = some zs) (hk : k < n) :
    loadSymbol (storeSymbols l zs) k =
      some (point o (∑ j ∈ Finset.range o.bps, (bit (k * o.bps + j)).toNat * 2 ^ (o.bps - 1 - j))) := by
  rw [loadSymbol_storeSymbols, modulate_length hzs, if_pos hk]
  obtain rfl := Option.some.inj ((modulate_eq_some hbit).symm.trans hzs)
  simp [hk, ofBitsMSB_eq_sum]

/-- Settles O14: the checks answer in the order of R265; past them the bits below LEN are exactly those of the LEN / bps
chunks, so an unwritten one stops MOD, and else their points are stored over the first entries of CLEAN. -/
theorem modMapsChunksToPoints : Obligations.ModMapsChunksToPoints := by
  unfold Obligations.ModMapsChunksToPoints
  intro s L hL
  refine ⟨fun h4 h16 h64 => exec_mod_of_unsupported hL ((modOrder_eq_none_iff _).2 ⟨h4, h16, h64⟩), fun o hm => ?_⟩
  have ho := (modOrder_eq_some_iff _ o).2 hm
  refine ⟨exec_mod_of_ragged hL ho, exec_mod_of_overfull hL ho, fun hmod hbits hsyms => ?_⟩
  have hexec := exec_mod hL ho hmod hbits hsyms
  have hlen : L.len.toNat / o.bps * o.bps = L.len.toNat := Nat.div_mul_cancel (Nat.dvd_of_mod_eq_zero hmod)
  constructor
  · intro hunwritten
    rw [hexec, modulate_eq_none (by rwa [hlen])]
  · intro bit hbit
    rw [← hlen] at hbit
    obtain ⟨zs, hzs⟩ : ∃ zs, modulate o s.bitin (L.len.toNat / o.bps) = some zs := ⟨_, modulate_eq_some hbit⟩
    rw [hzs] at hexec
    refine ⟨_, hexec, fun k hk => ?_, fun a ha => ?_, rfl⟩
    · exact loadSymbol_storeSymbols_modulate s.clean hbit hzs hk
    · exact get_storeSymbols_of_le s.clean zs (by rwa [modulate_length hzs])

end Sys2Proof.Machine
end

section
/-!
PROOF. SEED (R205): the generator state of the latched seed, and nothing else but the completion.
-/

namespace Sys2Proof.Machine

/-- SEED completes OK with the generator state of the latched seed (R205). -/
theorem exec_seed {s : State} {L : Latch} (hL : s.engine = some L) :
    exec .seed s = complete { s with rng := Config.seedInit L.seed } :=
  withCommand_of_busy hL _

theorem rng_of_exec_seed {s t : State} {L : Latch} (hL : s.engine = some L) (h : exec .seed s = .next t) :
    t.rng = Config.seedInit L.seed := by
  rw [exec_seed hL] at h
  cases h
  rfl

/-- Settles O12: SEED is that completion; the generator state it leaves depends on the latched seed alone, so a second
SEED of the same seed leaves the same. -/
theorem seedSetsTheGenerator : Obligations.SeedSetsTheGenerator := by
  unfold Obligations.SeedSetsTheGenerator
  refine fun s L hL => ⟨exec_seed hL, fun t u L' ht hseed hu => ?_⟩
  rw [rng_of_exec_seed (L := L') rfl hu, rng_of_exec_seed hL ht, hseed]

end Sys2Proof.Machine
end

section
/-!
PROOF. The standard deviation (R202): the root of a valid variance is the correctly rounded one.
-/

namespace Sys2Proof.Fp

theorem units_of_sign_eq_false {x : F64} (h : sign x = false) : units x = mag x := by
  rw [units, h, if_neg (by decide)]

theorem units_of_nonneg {x : F64} (h : 0 ≤ units x) : units x = mag x := by
  rw [← units_natAbs x, Int.natAbs_of_nonneg h]

/-- The magnitude of a finite value as a significand and a scale. -/
theorem mag_form {x : F64} (h : isFinite x = true) : ∃ s q, q < 2 ^ 53 ∧ mag x = q * 2 ^ s := by
  obtain ⟨s, q, -, hq, -, -, hm⟩ := magLow_form ((isFinite_iff x).1 h)
  exact ⟨s, q, hq, by rw [mag_eq, hm]⟩

section
variable {nan x : F64} (hf : isFinite x = true) (hz : isZero x = false) (hs : sign x = false)
include hf hz hs

theorem sign_sqrt : sign (sqrt nan x) = false := by
  rw [sqrt_of_pos hf hz hs, sign_pack _ (round_lt _ _)]

/-- The root of a positive value lies between the midpoints of the computed root and every other finite magnitude. -/
theorem mag_sqrt_between {w : F64} (hw : isFinite w = true) :
    (mag (sqrt nan x) < mag w → 4 * (mag x * one) ≤ (mag (sqrt nan x) + mag w) ^ 2) ∧
      (mag w < mag (sqrt nan x) → (mag (sqrt nan x) + mag w) ^ 2 ≤ 4 * (mag x * one)) := by
  obtain ⟨n, r, -, -, hle, hlt, hsticky, hval⟩ := rootSticky_spec hz
  obtain ⟨s, q, hq, hq', -, hscale, hround, hn, hup, hdown⟩ := round_rootSticky hz
  obtain ⟨s', q', hw', hmw⟩ := mag_form hw
  have hmr : mag (sqrt nan x) = q * 2 ^ s := by
    rw [sqrt_of_pos hf hz hs, mag_eq, low_pack _ (round_lt _ _), hround, magLow_of_scaled (.inr hq) hq']
  rw [hmr, hmw, hval]
  exact root_between hle hlt hsticky hscale hq hn hup hdown hw'

end

end Sys2Proof.Fp

namespace Sys2Proof.Machine

/-- The standard deviation of a valid variance is not negative (R202). -/
theorem units_sigmaOf_nonneg {v : F64} (h : validVar v = true) : 0 ≤ Fp.units (sigmaOf v) := by
  obtain ⟨hf, hpos⟩ := (validVar_iff v).1 h
  unfold sigmaOf
  cases hz : Fp.isZero v with
  | true => rwa [Fp.sqrt_of_isZero hz]
  | false =>
    rw [Fp.units_of_sign_eq_false (Fp.sign_sqrt hf hz (sign_of_validVar h hz))]
    omega

/-- Settles O49: the root of a zero is that zero, above which every midpoint has a nonnegative square and below which
there is none; the root of a positive variance lies between the midpoints. -/
theorem sigmaIsTheRoundedRoot : Obligations.SigmaIsTheRoundedRoot := by
  unfold Obligations.SigmaIsTheRoundedRoot
  intro v hf hpos r
  have hv : validVar v = true := (validVar_iff v).2 ⟨hf, hpos⟩
  have hr : 0 ≤ Fp.units r := units_sigmaOf_nonneg hv
  refine ⟨isFinite_sqrt_of_validVar v hv, hr, fun hz => Fp.sqrt_of_isZero hz, fun w hw hw0 => ?_⟩
  cases hz : Fp.isZero v with
  | true =>
    have hr0 : Fp.units r = 0 := by rw [show r = v from Fp.sqrt_of_isZero hz, Fp.units_of_isZero hz]
    rw [Fp.units_of_isZero hz, hr0]
    refine ⟨fun _ => ?_, fun h => absurd h (not_lt.2 hw0)⟩
    rw [mul_zero, zero_mul]
    exact sq_nonneg _
  | false =>
    have hbetween := Fp.mag_sqrt_between (nan := v) hf hz (sign_of_validVar hv hz) hw
    rw [Fp.units_of_nonneg hr, Fp.units_of_nonneg hw0, Fp.units_of_nonneg hpos, mul_assoc]
    exact_mod_cast hbetween

end Sys2Proof.Machine
end

section
/-!
PROOF. AWGN (R201 to R204): its two errors in their order, and what NOISY and the generator hold after a success.
-/

namespace Sys2Proof.Machine

/-! The errors. -/

/-- AWGN of an invalid variance completes with DegenerateParameter (R201). -/
theorem exec_awgn_of_invalidVar {s : State} {L : Latch} (hL : s.engine = some L) (hv : validVar L.var = false) :
    exec .awgn s = raise s .degenerateParameter 0 :=
  (withCommand_of_busy hL _).trans (if_pos hv)

/-- AWGN of a valid variance and more symbols than SYM_CAP completes with CapacityExceeded (R203). -/
theorem exec_awgn_of_overfull {s : State} {L : Latch} (hL : s.engine = some L) (hv : validVar L.var = true)
    (hcap : s.params.symCap < L.symcnt.toNat) : exec .awgn s = raise s .capacityExceeded 0 :=
  (withCommand_of_busy hL _).trans ((if_neg (by simp [hv])).trans (if_pos hcap))

/-! Past the checks. -/

/-- A noisy component of a valid variance is the sum of R203, with one NaN for whatever NaN an operation asks for (U22). -/
theorem noisyComponent_eq_add {v : F64} (hv : validVar v = true) (g : Config.Gen) (n : Nat) (x : F64) :
    ∃ nan, Fp.isNaN nan = true ∧
      noisyComponent g (sigmaOf v) n x = Fp.add nan x (Fp.mul nan (Fp.sqrt nan v) (draw g n)) :=
  ⟨_, Fp.isNaN_bits _, by rw [noisyComponent, ← noiseTerm_eq _ hv g n]⟩

/-- Settles O15: the checks answer in the order of R265; past them every entry read is written, and its noisy symbol is
the sum of R203 by axis, stored over the first entries of NOISY. -/
theorem awgnAddsScaledDraws : Obligations.AwgnAddsScaledDraws := by
  unfold Obligations.AwgnAddsScaledDraws
  intro s L hL
  refine ⟨fun hv => ?_, fun hf hpos hcap => ?_, fun hf hpos hcap z hz => ?_⟩
  · exact exec_awgn_of_invalidVar hL (by rwa [← Bool.not_eq_true, validVar_iff])
  · exact exec_awgn_of_overfull hL ((validVar_iff _).2 ⟨hf, hpos⟩) hcap
  · have hv : validVar L.var = true := (validVar_iff _).2 ⟨hf, hpos⟩
    have hc := collect_eq_map (f := loadSymbol s.clean) (g := z) L.symcnt.toNat 0 fun k hk => by
      rw [Nat.zero_add]
      exact hz k hk
    have hexec := exec_awgn hL hv hcap
    rw [hc] at hexec
    refine ⟨_, hexec, fun k hk => ?_, fun a ha => ?_, rfl⟩
    · obtain ⟨n, hn, hi⟩ := noisyComponent_eq_add hv s.rng (2 * k) (z k).i
      obtain ⟨n', hn', hq⟩ := noisyComponent_eq_add hv s.rng (2 * k + 1) (z k).q
      exact ⟨_, n, n', loadSymbol_noisy hc hk (hz k hk), hn, hn', hi, hq⟩
    · exact get_storeSymbols_of_le s.noisy _ (by simpa using ha)

/-! What a success leaves. -/

section
variable {s t : State} {L : Latch} (hL : s.engine = some L) (h : exec .awgn s = .next t) (he : t.err = .ok)
include hL h he

theorem validVar_of_exec_awgn_ok : validVar L.var = true := by
  obtain ⟨zs, hv, -, -, -⟩ := exec_awgn_ok hL h he
  exact hv

/-- A successful AWGN takes two outputs a symbol (R204). -/
theorem rng_of_exec_awgn_ok : t.rng = genAfter s.rng (2 * L.symcnt.toNat) := by
  obtain ⟨zs, -, -, -, rfl⟩ := exec_awgn_ok hL h he
  rfl

theorem loadSymbol_of_exec_awgn_ok {k : Nat} {z : Symbol} (hk : k < L.symcnt.toNat)
    (hz : loadSymbol s.clean k = some z) :
    loadSymbol t.noisy k = some (noisySymbol s.rng (sigmaOf L.var) k z) := by
  obtain ⟨zs, -, -, hc, rfl⟩ := exec_awgn_ok hL h he
  exact loadSymbol_noisy hc hk hz

end

/-- Either component of a noisy symbol is the noisy component of its axis, of output 2k or 2k + 1 (R204). -/
theorem noisySymbol_axis (g : Config.Gen) (sigma : F64) (k : Nat) (z : Symbol) (axis : Bool) :
    (if axis then (noisySymbol g sigma k z).q else (noisySymbol g sigma k z).i) =
      noisyComponent g sigma (2 * k + axis.toNat) (if axis then z.q else z.i) := by
  cases axis <;> rfl

end Sys2Proof.Machine
end

section
/-!
PROOF. AWGN at variance zero (R207).
-/

namespace Sys2Proof.Machine

section
variable {v : F64} (hv : Fp.isZero v = true) (g : Config.Gen) (n : Nat) {x : F64}
include hv

/-- At a zero variance a component that is neither a zero nor a NaN is copied (R207). -/
theorem noisyComponent_of_isZero_var (hx : Fp.isNaN x = false) (hx0 : Fp.isZero x = false) :
    noisyComponent g (sigmaOf v) n x = x :=
  Fp.add_zero_right hx hx0 (isZero_noiseTerm hv g n)

/-- At a zero variance a zero stays a zero, negative only where it and its noise term both are (R207, G5). -/
theorem noisyComponent_zero_of_isZero_var (hx : Fp.isZero x = true) :
    Fp.isZero (noisyComponent g (sigmaOf v) n x) = true ∧
      Fp.sign (noisyComponent g (sigmaOf v) n x) = (Fp.sign x && Fp.sign (noiseTerm (sigmaOf v) (draw g n))) := by
  have hsum : noisyComponent g (sigmaOf v) n x =
      Fp.pack (Fp.sign x && Fp.sign (noiseTerm (sigmaOf v) (draw g n))) 0 :=
    Fp.add_zero_zero hx (isZero_noiseTerm hv g n)
  rw [hsum, Fp.isZero_iff, Fp.low_pack _ (by norm_num), Fp.sign_pack _ (by norm_num)]
  exact ⟨rfl, rfl⟩

end

/-- Settles O21: a success stores, axis by axis, the noisy component, whose noise term is a zero. -/
theorem zeroVarianceCopiesTheSymbols : Obligations.ZeroVarianceCopiesTheSymbols := by
  unfold Obligations.ZeroVarianceCopiesTheSymbols
  intro s t L hL hv h he
  refine ⟨?_, rng_of_exec_awgn_ok hL h he, fun k z hk hz =>
    ⟨_, loadSymbol_of_exec_awgn_ok hL h he hk hz, fun axis => ?_⟩⟩
  · rw [show sigmaOf L.var = L.var from Fp.sqrt_of_isZero hv]
    exact hv
  · rw [noisySymbol_axis]
    exact ⟨isZero_noiseTerm hv _ _, noisyComponent_of_isZero_var hv _ _, noisyComponent_zero_of_isZero_var hv _ _⟩

end Sys2Proof.Machine
end

section
/-!
PROOF. Non-finite components of AWGN (R208): sums with a NaN or an infinity, and where a sum and a product overflow.
-/

namespace Sys2Proof.Fp

variable {nan a b : F64}

/-! Sums with a NaN or an infinity. -/

theorem add_of_isNaN_left (ha : isNaN a = true) : add nan a b = nan := by
  rw [add, ha, Bool.true_or, if_pos rfl]

/-- An infinity plus what is no NaN is that infinity, but for the opposite infinity. -/
theorem add_of_isInf_left (ha : isInf a = true) (hb : isNaN b = false) :
    add nan a b = if isInf b = true ∧ sign b ≠ sign a then nan else a := by
  simp [add, not_isNaN_of_isInf ha, ha, hb, ne_comm]

theorem add_of_isInf_right (ha : isFinite a = true) (hb : isInf b = true) : add nan a b = b := by
  simp [add, not_isNaN_of_isFinite ha, not_isInf_of_isFinite ha, not_isNaN_of_isInf hb, hb]

/-! Overflow. -/

/-- Rounding n / 2^d units overflows to an infinity exactly from the midpoint past the largest finite value on. -/
theorem isInf_pack_round_iff (neg : Bool) (n d : Nat) :
    isInf (pack neg (round n d)) = true ↔ (2 ^ 54 - 1) * 2 ^ 2044 * 2 ^ d ≤ n := by
  rw [isInf_iff, low_pack _ (round_lt n d), Nat.mul_assoc, ← Nat.pow_add, ← not_lt, ← round_lt_infBits_iff, not_lt]
  exact ⟨Eq.ge, (round_le n d).antisymm⟩

theorem isInf_add_of_overflow (ha : isFinite a = true) (hb : isFinite b = true)
    (h : (2 ^ 54 - 1) * 2 ^ 2044 ≤ (units a + units b).natAbs) : isInf (add nan a b) = true := by
  obtain ⟨neg, -, hadd⟩ := add_of_finite (nan := nan) ha hb
  rwa [hadd, isInf_pack_round_iff, Nat.pow_zero, Nat.mul_one]

theorem isInf_mul_of_overflow (ha : isFinite a = true) (hb : isFinite b = true)
    (h : (2 ^ 54 - 1) * 2 ^ 2044 * one ≤ mag a * mag b) : isInf (mul nan a b) = true := by
  obtain ⟨d, hd⟩ : ∃ d, d = 1074 := ⟨_, rfl⟩
  rwa [mul_of_finite ha hb, ← hd, isInf_pack_round_iff, two_pow_eq_one hd]

end Sys2Proof.Fp

namespace Sys2Proof.Machine

/-- Settles O22: a success stores, axis by axis, the sum of the clean component and a noise term that is no NaN, and each
clause is one case of that sum or of the noise term's product. -/
theorem nonFiniteComponentsPropagate : Obligations.NonFiniteComponentsPropagate := by
  unfold Obligations.NonFiniteComponentsPropagate
  intro s t L hL h he k z hk hz
  refine ⟨_, loadSymbol_of_exec_awgn_ok hL h he hk hz, fun axis => ?_⟩
  have hv := validVar_of_exec_awgn_ok hL h he
  rw [noisySymbol_axis]
  generalize (if axis then z.q else z.i) = x
  intro x w d n
  have hn : Fp.isNaN n = false := not_isNaN_noiseTerm hv _ _
  refine ⟨hn, fun hx => ?_, fun hx => ?_, fun hover => ?_, fun hx hi => ?_, fun hx hf hover => ?_⟩
  · rw [show w = _ from Fp.add_of_isNaN_left hx]
    exact Fp.isNaN_bits _
  · rw [show w = _ from Fp.add_of_isInf_left hx hn]
    split_ifs
    · exact Fp.isNaN_bits _
    · rfl
  · exact Fp.isInf_mul_of_overflow (isFinite_sqrt_of_validVar _ hv) (isFinite_draw _ _) hover
  · exact Fp.add_of_isInf_right hx hi
  · exact Fp.isInf_add_of_overflow hx hf hover

end Sys2Proof.Machine
end

section
/-!
PROOF. The slicer's decision (R230, R231, R234, R237): its count of midpoints, its nearest point, and the infinities.
-/

namespace Sys2Proof.Machine

/-! One axis. -/

/-- The slice of a finite value is the number of midpoints strictly below it (R234). -/
theorem slice_eq_card {x : F64} (h : Fp.isFinite x = true) (o : Order) :
    slice o x = ((Finset.range (o.side - 1)).filter fun j : Nat => threshold o j * Fp.one < Fp.units x).card := by
  simp only [slice, above_of_finite h]
  exact Nat.count_eq_card_filter_range _ _

/-- Twice a midpoint is the sum of the levels beside it (R234). -/
theorem two_mul_threshold (o : Order) (j : Nat) : 2 * threshold o j = level o j + level o (j + 1) := by
  unfold threshold level
  push_cast
  ring

theorem level_le_level (o : Order) {j k : Nat} (h : j ≤ k) : level o j ≤ level o k := by
  unfold level
  omega

section
variable {x : F64} (hx : Fp.isFinite x = true) (o : Order) {j : Nat}
include hx

/-- The sum of the decided level and a lower one is below twice the value. -/
theorem level_add_slice_lt (h : j < slice o x) :
    (level o j + level o (slice o x)) * Fp.one < 2 * Fp.units x := by
  have hone : (0 : Int) ≤ Fp.one := Int.natCast_nonneg _
  obtain ⟨k, hk⟩ : ∃ k, slice o x = k + 1 := ⟨slice o x - 1, by omega⟩
  have hbelow := (slice_spec o hx).1 k (by omega)
  have hlevel := level_le_level o (show j ≤ k by omega)
  rw [hk]
  calc (level o j + level o (k + 1)) * Fp.one
      ≤ (level o k + level o (k + 1)) * Fp.one := Int.mul_le_mul_of_nonneg_right (by omega) hone
    _ = 2 * (threshold o k * Fp.one) := by rw [← two_mul_threshold, mul_assoc]
    _ < 2 * Fp.units x := by omega

/-- Twice the value is at most the sum of the decided level and a higher one. -/
theorem le_level_add_slice (h : slice o x < j) (hj : j < o.side) :
    2 * Fp.units x ≤ (level o j + level o (slice o x)) * Fp.one := by
  have hone : (0 : Int) ≤ Fp.one := Int.natCast_nonneg _
  have habove := (slice_spec o hx).2 (slice o x) le_rfl (by omega)
  have hlevel := level_le_level o (show slice o x + 1 ≤ j from h)
  calc 2 * Fp.units x
      ≤ 2 * (threshold o (slice o x) * Fp.one) := by omega
    _ = (level o (slice o x) + level o (slice o x + 1)) * Fp.one := by rw [← two_mul_threshold, mul_assoc]
    _ ≤ (level o j + level o (slice o x)) * Fp.one := Int.mul_le_mul_of_nonneg_right (by omega) hone

/-- Every level below the decided one is strictly farther from the value (R231). -/
theorem sq_sub_slice_lt (h : j < slice o x) :
    (Fp.units x - level o (slice o x) * Fp.one) ^ 2 < (Fp.units x - level o j * Fp.one) ^ 2 := by
  have hone : (0 : Int) < Fp.one := by exact_mod_cast Fp.one_pos
  have hlt : level o j * Fp.one < level o (slice o x) * Fp.one :=
    Int.mul_lt_mul_of_pos_right (by unfold level; omega) hone
  have hmid := level_add_slice_lt hx o h
  rw [add_mul] at hmid
  nlinarith

/-- No level is nearer to the value than the decided one (R231). -/
theorem sq_sub_slice_le (hj : j < o.side) :
    (Fp.units x - level o (slice o x) * Fp.one) ^ 2 ≤ (Fp.units x - level o j * Fp.one) ^ 2 := by
  rcases Nat.lt_trichotomy j (slice o x) with h | rfl | h
  · exact (sq_sub_slice_lt hx o h).le
  · exact le_rfl
  · have hle : level o (slice o x) * Fp.one ≤ level o j * Fp.one :=
      Int.mul_le_mul_of_nonneg_right (level_le_level o h.le) (Int.natCast_nonneg _)
    have hmid := le_level_add_slice hx o h hj
    rw [add_mul] at hmid
    nlinarith

end

/-! The index of two axes. -/

/-- A smaller index has a smaller row, or the same row and a smaller column. -/
theorem div_mod_lt_of_lt {n r c j : Nat} (hc : c < n) (h : j < r * n + c) : j / n < r ∨ (j / n = r ∧ j % n < c) := by
  have hj := Nat.div_add_mod' j n
  have hrow : j / n < r + 1 := Nat.div_lt_of_lt_mul (by nlinarith)
  rcases Nat.lt_succ_iff_lt_or_eq.1 hrow with hlt | heq
  · exact .inl hlt
  · rw [heq] at hj
    exact .inr ⟨heq, by omega⟩

theorem decideIndex_div_side (o : Order) (z : Symbol) : decideIndex o z / o.side = slice o z.i := by
  rw [decideIndex, Nat.mul_comm, Nat.mul_add_div o.side_pos, Nat.div_eq_of_lt (slice_lt o z.q), Nat.add_zero]

theorem decideIndex_mod_side (o : Order) (z : Symbol) : decideIndex o z % o.side = slice o z.q :=
  Nat.mul_add_mod_of_lt (slice_lt o z.q)

/-- Settles O18: the distances to two points compare axis by axis, and of two indices the rows decide first. -/
theorem slicerIsNearestNeighbour : Obligations.SlicerIsNearestNeighbour := by
  unfold Obligations.SlicerIsNearestNeighbour
  intro o x y hx hy lev d idx
  have hdiv : idx / o.side = slice o x := decideIndex_div_side o ⟨x, y⟩
  have hmod : idx % o.side = slice o y := decideIndex_mod_side o ⟨x, y⟩
  have hidx : idx < o.size := decideIndex_lt o ⟨x, y⟩
  refine ⟨slice_eq_card hx o, hidx, fun j hj => ?_, fun j hj => ?_⟩ <;> simp only [d, hdiv, hmod]
  · exact add_le_add (sq_sub_slice_le hx o (Order.div_side_lt hj)) (sq_sub_slice_le hy o (o.mod_side_lt j))
  · rcases div_mod_lt_of_lt (slice_lt o y) hj with hrow | ⟨hrow, hlt⟩
    · exact add_lt_add_of_lt_of_le (sq_sub_slice_lt hx o hrow) (sq_sub_slice_le hy o (o.mod_side_lt j))
    · rw [hrow]
      exact Int.add_lt_add_left (sq_sub_slice_lt hy o hlt) _

/-! The infinities (R237). -/

/-- An infinity is above every integer or above none, by its sign. -/
theorem above_of_isInf {x : F64} (h : Fp.isInf x = true) (t : Int) : Fp.above x t = !Fp.sign x := by
  rw [Fp.above, Fp.not_isNaN_of_isInf h, if_neg (by decide), if_pos h]

/-- Settles O19: an infinity is above all midpoints or above none. -/
theorem infiniteComponentsDecideTheEdge : Obligations.InfiniteComponentsDecideTheEdge := by
  unfold Obligations.InfiniteComponentsDecideTheEdge
  intro o x h
  refine ⟨fun hs => ?_, fun hs => ?_⟩
  · simp [slice, above_of_isInf h, hs]
  · simp [slice, above_of_isInf h, hs]

end Sys2Proof.Machine
end

section
/-!
PROOF. DEMOD (R232, R233, R236): its errors in their order, and what BITOUT holds after a success.
-/

namespace Sys2Proof.Machine

/-! The errors. -/

section
variable {src : Source} {s : State} {L : Latch} (hL : s.engine = some L)
include hL

/-- DEMOD of an unsupported M completes with InvalidConfiguration (R261). -/
theorem exec_demod_of_unsupported (ho : modOrder L.m = none) :
    exec (.demod src) s = raise s .invalidConfiguration 0 :=
  (withCommand_of_busy hL _).trans (withOrder_of_unsupported ho _)

variable {o : Order} (ho : modOrder L.m = some o)
include ho

/-- DEMOD of more symbols or bits than a capacity completes with CapacityExceeded (R233). -/
theorem exec_demod_of_overfull (hcap : s.params.symCap < L.symcnt.toNat ∨ s.params.bitCap < L.symcnt.toNat * o.bps) :
    exec (.demod src) s = raise s .capacityExceeded 0 :=
  ((withCommand_of_busy hL _).trans (withOrder_of_supported ho _)).trans (if_pos hcap)

variable (hsyms : L.symcnt.toNat ≤ s.params.symCap) (hbits : L.symcnt.toNat * o.bps ≤ s.params.bitCap)
  {z : Nat → Symbol}
include hsyms hbits

/-- DEMOD completes with NonFiniteSymbol at the first NaN, where every entry below it is written (R233, R236). -/
theorem exec_demod_of_hasNaN {k : Nat} (hk : k < L.symcnt.toNat)
    (hbelow : ∀ j, j < k → loadSymbol (sourceBuffer s src) j = some (z j) ∧ (z j).hasNaN = false)
    (hload : loadSymbol (sourceBuffer s src) k = some (z k)) (hnan : (z k).hasNaN = true) :
    exec (.demod src) s = raise s .nonFiniteSymbol k := by
  have hscan := (scan_stops (z := z) (d := k) L.symcnt.toNat 0 hk (by simpa using hbelow)).2
  rw [Nat.zero_add] at hscan
  rw [exec_demod hL ho hsyms hbits, hscan hload hnan]

/-! A success. -/

/-- DEMOD of written symbols without a NaN completes OK with their bits (R233). -/
theorem exec_demod_of_clear
    (h : ∀ k, k < L.symcnt.toNat → loadSymbol (sourceBuffer s src) k = some (z k) ∧ (z k).hasNaN = false) :
    exec (.demod src) s = complete (demodulated s o L.symcnt.toNat ((List.range L.symcnt.toNat).map z)) := by
  have hscan := scan_eq_clear (z := z) L.symcnt.toNat 0 (by simpa using h)
  simp only [Nat.zero_add] at hscan
  rw [exec_demod hL ho hsyms hbits, hscan]

end

section
variable (s : State) (o : Order) (z : Nat → Symbol) {n : Nat}

/-- Bit j of symbol k in BITOUT is bit bps - 1 - j of its index (R232). -/
theorem get_bitout_demodulated {k j : Nat} (hk : k < n) (hj : j < o.bps) :
    Memory.get (demodulated s o n ((List.range n).map z)).bitout (k * o.bps + j) =
      some ((decideIndex o (z k)).testBit (o.bps - 1 - j)) := by
  have hlt := mul_bps_add_lt hk hj
  have hbit := demodulate_get? o ((List.range n).map z) k j (z k) (by simp [hk]) hj
  rwa [demodulated, Memory.get_store, if_pos (by simp [hlt])]

theorem get_bitout_demodulated_of_le {a : Nat} (ha : n * o.bps ≤ a) :
    Memory.get (demodulated s o n ((List.range n).map z)).bitout a = Memory.get s.bitout a := by
  rw [demodulated, Memory.get_store, if_neg (by simpa using ha)]

end

/-- Settles O16: the checks answer in the order of R265, the scan of R233 among them; past it the bits of the decided
indices are stored over the first bits of BITOUT. -/
theorem demodDecidesEachSymbol : Obligations.DemodDecidesEachSymbol := by
  unfold Obligations.DemodDecidesEachSymbol
  intro src s L hL
  refine ⟨fun h4 h16 h64 => exec_demod_of_unsupported hL ((modOrder_eq_none_iff _).2 ⟨h4, h16, h64⟩), fun o hm => ?_⟩
  have ho := (modOrder_eq_some_iff _ o).2 hm
  refine ⟨exec_demod_of_overfull hL ho, fun hsyms hbits => ⟨fun k z hk hbelow hload hnan => ?_, fun z hz => ?_⟩⟩
  · simp only [← hasNaN_eq_false] at hbelow
    exact exec_demod_of_hasNaN hL ho hsyms hbits hk hbelow hload (by simpa [Symbol.hasNaN] using hnan)
  · simp only [← hasNaN_eq_false] at hz
    refine ⟨_, exec_demod_of_clear hL ho hsyms hbits hz, fun k j hk hj => ?_, fun a ha => ?_, rfl⟩
    · rw [← Nat.testBit_eq_decide_div_mod_eq]
      exact get_bitout_demodulated s o z hk hj
    · exact get_bitout_demodulated_of_le s o z ha

end Sys2Proof.Machine
end

section
/-!
PROOF. MOD and then DEMOD (R239): the bits return, from CLEAN and through a channel of variance zero.
-/

namespace Sys2Proof.Machine

/-- The point that MOD stores for chunk k of the bits (R181). -/
def chunkPoint (o : Order) (bit : Nat → Bool) (k : Nat) : Symbol :=
  point o (ofBitsMSB ((List.range o.bps).map fun j => bit (k * o.bps + j)))

theorem chunkPoint_hasNaN (o : Order) (bit : Nat → Bool) (k : Nat) : (chunkPoint o bit k).hasNaN = false := by
  obtain ⟨hi, hq, -, -⟩ := point_classes (chunk_lt o bit (k * o.bps))
  exact hasNaN_eq_false.2 ⟨hi, hq⟩

/-- The decided index of a chunk's point has the chunk's bits. -/
theorem testBit_decideIndex_chunkPoint (o : Order) (bit : Nat → Bool) (k : Nat) {j : Nat} (hj : j < o.bps) :
    (decideIndex o (chunkPoint o bit k)).testBit (o.bps - 1 - j) = bit (k * o.bps + j) := by
  rw [chunkPoint, decideIndex_point o _ (chunk_lt o bit _), testBit_ofBitsMSB hj]

/-- A channel of variance zero copies a chunk's point (R207). -/
theorem noisySymbol_chunkPoint {v : F64} (hv : Fp.isZero v = true) (g : Config.Gen) (o : Order) (bit : Nat → Bool)
    (n k : Nat) : noisySymbol g (sigmaOf v) n (chunkPoint o bit k) = chunkPoint o bit k := by
  obtain ⟨hi, hq, hi0, hq0⟩ := point_classes (chunk_lt o bit (k * o.bps))
  exact congrArg₂ Symbol.mk (noisyComponent_of_isZero_var hv g _ hi hi0) (noisyComponent_of_isZero_var hv g _ hq hq0)

/-- MOD of written bits leaves the points of their chunks in CLEAN and the number of chunks in SYMCNT (R180). -/
theorem exec_mod_of_written {s : State} {L : Latch} {o : Order} {bit : Nat → Bool} (hL : s.engine = some L)
    (ho : modOrder L.m = some o) (hmod : L.len.toNat % o.bps = 0) (hbits : L.len.toNat ≤ s.params.bitCap)
    (hsyms : L.len.toNat / o.bps ≤ s.params.symCap)
    (hbit : ∀ i, i < L.len.toNat → Memory.get s.bitin i = some (bit i)) :
    ∃ t, exec .mod s = .next t ∧ t.params = s.params ∧ t.symcnt.toNat = L.len.toNat / o.bps ∧
      ∀ k, k < L.len.toNat / o.bps → loadSymbol t.clean k = some (chunkPoint o bit k) := by
  have hexec := exec_mod hL ho hmod hbits hsyms
  rw [modulate_eq_some (bit := bit) (by rwa [Nat.div_mul_cancel (Nat.dvd_of_mod_eq_zero hmod)])] at hexec
  refine ⟨_, hexec, rfl, ?_, fun k hk => ?_⟩
  · exact Nat.mod_eq_of_lt ((Nat.div_le_self _ _).trans_lt L.len.isLt)
  · refine (loadSymbol_storeSymbols s.clean _ k).trans ?_
    simp [hk, chunkPoint]

/-- DEMOD of the points of a run's chunks returns the run, whatever buffer holds it (R239). -/
theorem exec_demod_of_chunkPoints {src : Source} {s : State} {L : Latch} {o : Order} {len : Word}
    {bits : List (Nat × Bool)} {bit : Nat → Bool} (hL : s.engine = some L) (ho : modOrder L.m = some o)
    (hlen : L.symcnt.toNat * o.bps = len.toNat) (hsyms : L.symcnt.toNat ≤ s.params.symCap)
    (hbits : len.toNat ≤ s.params.bitCap) (hbit : ∀ i, i < len.toNat → Memory.get bits i = some (bit i))
    (h : ∀ k, k < L.symcnt.toNat → loadSymbol (sourceBuffer s src) k = some (chunkPoint o bit k)) :
    ∃ u, exec (.demod src) s = .next u ∧ u.outlen = len ∧
      ∀ i, i < len.toNat → Memory.get u.bitout i = Memory.get bits i := by
  have hexec := exec_demod_of_clear hL ho hsyms (hlen ▸ hbits) fun k hk => ⟨h k hk, chunkPoint_hasNaN o bit k⟩
  refine ⟨_, hexec, ?_, fun i hi => ?_⟩
  · show BitVec.ofNat 32 (L.symcnt.toNat * o.bps) = len
    rw [hlen, BitVec.ofNat_toNat, BitVec.setWidth_eq]
  · have hk : i / o.bps < L.symcnt.toNat := Nat.div_lt_of_lt_mul (by rwa [Nat.mul_comm, hlen])
    have hj : i % o.bps < o.bps := Nat.mod_lt _ o.bps_pos
    have hget := get_bitout_demodulated s o (chunkPoint o bit) hk hj
    rw [testBit_decideIndex_chunkPoint o bit _ hj, Nat.div_add_mod'] at hget
    exact hget.trans (hbit i hi).symm

/-- AWGN of variance zero copies the points of n chunks into NOISY (R207). -/
theorem exec_awgn_of_chunkPoints {s : State} {L : Latch} {o : Order} {bit : Nat → Bool} (hL : s.engine = some L)
    (hv : Fp.isZero L.var = true) (hsyms : L.symcnt.toNat ≤ s.params.symCap)
    (h : ∀ k, k < L.symcnt.toNat → loadSymbol s.clean k = some (chunkPoint o bit k)) :
    ∃ v, exec .awgn s = .next v ∧ v.params = s.params ∧
      ∀ k, k < L.symcnt.toNat → loadSymbol v.noisy k = some (chunkPoint o bit k) := by
  have hvalid : validVar L.var = true := (validVar_iff _).2 ⟨isFinite_of_isZero hv, (Fp.units_of_isZero hv).ge⟩
  have hcollect := collect_eq_map (f := loadSymbol s.clean) L.symcnt.toNat 0 (by simpa using h)
  have hexec := exec_awgn hL hvalid hsyms
  rw [hcollect] at hexec
  refine ⟨_, hexec, rfl, fun k hk => ?_⟩
  rw [loadSymbol_of_exec_awgn_ok hL hexec rfl hk (h k hk), noisySymbol_chunkPoint hv]

/-- Settles O20: MOD leaves the points of the chunks in CLEAN, a channel of variance zero copies them into NOISY, and
DEMOD of either answers their bits. -/
theorem modThenDemodReturnsTheBits : Obligations.ModThenDemodReturnsTheBits := by
  unfold Obligations.ModThenDemodReturnsTheBits
  intro s L o hL hm hmod hbits hsyms hwritten
  choose! bit hbit using fun i hi => Option.ne_none_iff_exists'.1 (hwritten i hi)
  have ho := (modOrder_eq_some_iff _ o).2 hm
  obtain ⟨t, hexec, hparams, hcount, hclean⟩ := exec_mod_of_written hL ho hmod hbits hsyms hbit
  have hlen : t.symcnt.toNat * o.bps = L.len.toNat := by
    rw [hcount, Nat.div_mul_cancel (Nat.dvd_of_mod_eq_zero hmod)]
  rw [← hcount] at hsyms hclean
  rw [← hparams] at hbits hsyms
  refine ⟨t, hexec, fun L1 hm1 hc1 => ?_, fun L2 L3 hv hc2 hm3 hc3 => ?_⟩
  · rw [← hm1] at ho
    rw [← hc1] at hlen hsyms hclean
    exact exec_demod_of_chunkPoints rfl ho hlen hsyms hbits hbit hclean
  · obtain ⟨v, hawgn, hparams', hnoisy⟩ :=
      exec_awgn_of_chunkPoints (s := { t with engine := some L2 }) rfl hv (by rwa [hc2]) (by rwa [hc2])
    rw [← hparams'] at hbits hsyms
    rw [hc2, ← hc3] at hnoisy
    rw [← hm3] at ho
    rw [← hc3] at hlen hsyms
    obtain ⟨u, hdemod⟩ := exec_demod_of_chunkPoints (src := .noisy) (s := { v with engine := some L3 }) rfl ho hlen
      hsyms hbits hbit hnoisy
    exact ⟨v, u, hawgn, hdemod⟩

end Sys2Proof.Machine
end

section
/-!
PROOF. Error completions (R266) and the interrupt output (R52, R270).
-/

namespace Sys2Proof.Machine

/-! Error completions. -/

/-- A completion records no index but for NonFiniteSymbol (R133). -/
theorem finish_errIdx_of_ne (s : State) {e : Code} (h : e ≠ .nonFiniteSymbol) (j : Nat) :
    (finish s e j).errIdx = 0#32 :=
  if_neg h

/-- An engine step that ends in an error is that completion of the state before (R266). -/
theorem engineStep_finishes_of_err {s t : State} {L : Latch} (hL : s.engine = some L) (h : engineStep s = .next t)
    (herr : t.err ≠ .ok) : ∃ e j, t = finish s e j := by
  obtain ⟨w, e, j, rfl, rfl | ⟨rfl, -⟩⟩ := engineStep_finishes hL h
  · exact ⟨e, j, rfl⟩
  · exact absurd rfl herr

/-- Settles O25: the step is a completion of the state before, which writes the four completion fields. -/
theorem errorCompletionChangesNothingElse : Obligations.ErrorCompletionChangesNothingElse := by
  unfold Obligations.ErrorCompletionChangesNothingElse
  intro s t L hL h herr
  obtain ⟨e, j, rfl⟩ := engineStep_finishes_of_err hL h herr
  exact ⟨rfl, fun hne => finish_errIdx_of_ne s hne j⟩

/-! The interrupt. -/

/-- While DONE is 0 the interrupt is low (R270). -/
theorem irq_of_not_done {s : State} (h : s.done = false) : s.irq = false := by
  rw [State.irq, h, Bool.and_false]

/-- While DONE is 1 the interrupt is IRQ_EN (R270). -/
theorem irq_of_done {s : State} (h : s.done = true) : s.irq = s.irqEn := by
  rw [State.irq, h, Bool.and_true]

/-- After an engine step of a command the interrupt is IRQ_EN, which the step keeps: DONE is set (R133, R55). -/
theorem engineStep_irq {s t : State} {L : Latch} (hL : s.engine = some L) (h : engineStep s = .next t) :
    t.irq = s.irqEn := by
  obtain ⟨-, -, hirqEn, -, -, -, -, -, -, -, -, -, hdone, -⟩ := writerTable.2 s t L hL h
  exact (irq_of_done hdone).trans hirqEn

/-- A STATUS write with bit 1 clears DONE (R35). -/
theorem writeStatus_done_of_bit {w : Word} (h : w.getLsbD 1 = true) (s : State) : (writeStatus s w).done = false := by
  rw [writeStatus, if_pos h, acknowledge_done]

/-- On the turn of a reset assertion a step is that assertion (R290). -/
theorem step_of_resetAssert {s : State} (h : nextTurn s = .resetAssert) : step s = .next (assertReset (popTurn s)) := by
  rw [step, advance, h]
  rfl

/-- Settles O44: a completion sets DONE and keeps IRQ_EN; a STATUS write with bit 1, an acceptance and an assertion of
reset clear DONE; a dropped command keeps both. -/
theorem interruptFollowsDone : Obligations.InterruptFollowsDone := by
  unfold Obligations.InterruptFollowsDone
  intro s
  refine ⟨rfl, fun t L hL h => engineStep_irq hL h, fun t w h hbit => ?_,
    fun t c h => ⟨fun he => ?_, fun L he => ?_⟩,
    fun h => ⟨_, step_of_resetAssert h, irq_of_not_done (assertReset_done _)⟩⟩
  · cases (performAccess_writeReg s .status w).symm.trans h
    exact irq_of_not_done (writeStatus_done_of_bit hbit s)
  · cases (performAccess_cmd_of_idle he c).symm.trans h
    exact irq_of_not_done (accept_done s c)
  · cases (performAccess_cmd_of_busy he c).symm.trans h
    rfl

end Sys2Proof.Machine
end

section
/-!
PROOF. Host accesses of the buffer windows while a command is in flight (R300).
-/

namespace Sys2Proof.Machine

theorem Buf.exists_iff {P : Buf → Prop} : (∃ b, P b) ↔ P .bitin ∨ P .bitout ∨ P .clean ∨ P .noisy := by
  constructor
  · rintro ⟨b, h⟩
    cases b
    · exact .inl h
    · exact .inr (.inl h)
    · exact .inr (.inr (.inl h))
    · exact .inr (.inr (.inr h))
  · rintro (h | h | h | h) <;> exact ⟨_, h⟩

/-- An offset in the range of a window is located in that window (R72). -/
theorem locate_of_mem_window {p : Config.Params} (hp : p.wf = true) {b : Buf} {a : Nat} (hlo : Buf.base b ≤ a)
    (hhi : a < Buf.base b + Buf.bytes p b) : locate p a = some (.window b (a - Buf.base b)) := by
  obtain ⟨off, rfl⟩ := Nat.exists_eq_add_of_le hlo
  rw [Nat.add_sub_cancel_left]
  exact locate_window hp b (Nat.lt_of_add_lt_add_left hhi)

theorem busy_of_engine {s : State} {L : Latch} (h : s.engine = some L) : s.busy = true := by
  rw [State.busy, h]
  rfl

/-- A read of a buffer window of a busy block is a fault, whatever the buffer holds (R300). -/
theorem readTarget_window_of_busy {s : State} (h : s.busy = true) (b : Buf) (off : Nat) :
    readTarget s (.window b off) = .fault .bufferWhileBusy :=
  if_pos h

/-- A write of a buffer window of a busy block is a fault, whatever the word (R300). -/
theorem writeTarget_window_of_busy {s : State} (h : s.busy = true) (w : Word) (b : Buf) (off : Nat) :
    writeTarget s w (.window b off) = .fault .bufferWhileBusy :=
  if_pos h

/-- An access of legal shape that a window is located for, of a busy block, is the fault of R300. -/
theorem performAccess_window_of_busy {s : State} (hbusy : s.busy = true) {a : Access} (hs : illegalShape a = none)
    {b : Buf} {off : Nat} (hl : locate s.params a.addr.toNat = some (.window b off)) :
    performAccess s a = .fault .bufferWhileBusy := by
  simp only [performAccess, hs, hl]
  cases a.write with
  | none => exact readTarget_window_of_busy hbusy b off
  | some w => exact writeTarget_window_of_busy hbusy w b off

/-- Settles O37: the shape of the access is legal and its offset is located in a window, and there a busy block answers
neither a read nor a write. -/
theorem bufferAccessWhileBusyFaults : Obligations.BufferAccessWhileBusyFaults := by
  unfold Obligations.BufferAccessWhileBusyFaults
  intro s a L hp hL halign hlanes hwin
  have hs : illegalShape a = none := (illegalShape_eq_none_iff a).2 ⟨halign, hlanes⟩
  obtain ⟨b, hlo, hhi⟩ : ∃ b, Buf.base b ≤ a.addr.toNat ∧ a.addr.toNat < Buf.base b + Buf.bytes s.params b :=
    Buf.exists_iff.2 hwin
  exact performAccess_window_of_busy (busy_of_engine hL) hs (locate_of_mem_window hp hlo hhi)

end Sys2Proof.Machine
end

section
/-!
PROOF. The round trip of commands and words (R106, R77), and the words of the opcode table (R102, R136).
-/

namespace Sys2Proof

/-- The word of its own lanes (R77). -/
theorem wordOfLanes_lanes (c : Word) :
    wordOfLanes (c.extractLsb' 0 8) (c.extractLsb' 8 8) (c.extractLsb' 16 8) (c.extractLsb' 24 8) = c := by
  have h16 : c.extractLsb' 8 8 ++ c.extractLsb' 0 8 = c.extractLsb' 0 16 :=
    BitVec.extractLsb'_append_extractLsb'_eq_extractLsb' rfl
  have h24 : c.extractLsb' 16 8 ++ c.extractLsb' 0 16 = c.extractLsb' 0 24 :=
    BitVec.extractLsb'_append_extractLsb'_eq_extractLsb' rfl
  have h32 : c.extractLsb' 24 8 ++ c.extractLsb' 0 24 = c.extractLsb' 0 32 :=
    BitVec.extractLsb'_append_extractLsb'_eq_extractLsb' rfl
  rw [wordOfLanes, h16, h24, h32, BitVec.extractLsb'_eq_self]

/-- On the lanes of a word the decoder on bytes is the decoder, and what follows them is the rest (R100). -/
theorem decodeBytes_lanesOf (c : Word) (rest : List Byte) :
    decodeBytes (lanesOf c ++ rest) = (decode c).map fun i => (i, rest) := by
  simp only [lanesOf, List.cons_append, List.nil_append, decodeBytes, wordOfLanes_lanes]

/-- Settles O1: the words that decode to a command are its encoding, and its lanes put together are that word again. -/
theorem encodeInvertsDecode : Obligations.EncodeInvertsDecode := by
  unfold Obligations.EncodeInvertsDecode
  refine fun c i rest => ⟨decode_eq_ok_iff, ?_⟩
  rw [decodeBytes_lanesOf, decode_encode]
  rfl

/-- Settles O3: the seven words are the encodings of their commands, and each of the others breaks one condition. -/
theorem opcodeTableWordsDecode : Obligations.OpcodeTableWordsDecode := by
  unfold Obligations.OpcodeTableWordsDecode
  refine ⟨decode_encode .nop, decode_encode .const, decode_encode .mod, decode_encode .awgn,
    decode_encode (.demod .clean), decode_encode (.demod .noisy), decode_encode .seed, ?_⟩
  decide

end Sys2Proof
end

section
/-!
PROOF. The invariant of the block: it holds at reset (R54) and every step keeps it, the capacities with it (R32, R33).
-/

namespace Sys2Proof.Machine

/-! The buffers' part. -/

theorem State.BuffersOk.of_eq {s t : State} (h : s.BuffersOk) (hp : t.params = s.params) (hi : t.bitin = s.bitin)
    (ho : t.bitout = s.bitout) (hc : t.clean = s.clean) (hn : t.noisy = s.noisy) : t.BuffersOk where
  bitin       := hi ▸ h.bitin
  bitout      := ho ▸ h.bitout
  clean       := hc ▸ h.clean
  noisy       := hn ▸ h.noisy
  bitinCells  := hp ▸ hi ▸ h.bitinCells
  bitoutCells := hp ▸ ho ▸ h.bitoutCells
  cleanCells  := hp ▸ hc ▸ h.cleanCells
  noisyCells  := hp ▸ hn ▸ h.noisyCells

/-- Buffers that hold nothing are in canonical form (R54). -/
theorem buffersOk_of_empty {s : State} (hi : s.bitin = []) (ho : s.bitout = []) (hc : s.clean = [])
    (hn : s.noisy = []) : s.BuffersOk := by
  constructor <;> simp [hi, ho, hc, hn, Memory.wf, Memory.within]

theorem buffersOk_assertReset (s : State) : (assertReset s).BuffersOk := buffersOk_of_empty rfl rfl rfl rfl

section
variable {s : State} (h : s.BuffersOk)
include h

theorem buffersOk_offer (c : Word) : (offer s c).BuffersOk := by
  cases he : s.engine with
  | none => rw [offer_of_idle he]; exact h.of_eq rfl rfl rfl rfl rfl
  | some L => rw [offer_of_busy he]; exact h.of_eq rfl rfl rfl rfl rfl

theorem buffersOk_writeReg (r : Reg) (w : Word) : (writeReg s r w).BuffersOk := by
  cases r
  case cmd => exact buffersOk_offer h w
  case status => simp only [writeReg, writeStatus]; split <;> exact h.of_eq rfl rfl rfl rfl rfl
  all_goals exact h.of_eq rfl rfl rfl rfl rfl

theorem buffersOk_pollStatus (rest : List HostOp) : (pollStatus s rest).BuffersOk := by
  unfold pollStatus
  split <;> exact h.of_eq rfl rfl rfl rfl rfl

/-- A word written inside a window keeps the buffers' form: the windows are whole words (R7, R72). -/
theorem buffersOk_writeBuf (hp : s.params.wf = true) (b : Buf) {off : Nat} (ho : off < Buf.bytes s.params b)
    (hm : off % 4 = 0) (w : Word) : (writeBuf s b off w).BuffersOk := by
  obtain ⟨-, -, -, -, h32⟩ := (wf_iff s.params).1 hp
  cases b <;> simp only [Buf.bytes] at ho
  case bitin =>
    obtain ⟨hwf, hin⟩ := storeBitWord_wf (off := off) w h.bitin h.bitinCells (by omega)
    exact { h with bitin := hwf, bitinCells := hin }
  case bitout =>
    obtain ⟨hwf, hin⟩ := storeBitWord_wf (off := off) w h.bitout h.bitoutCells (by omega)
    exact { h with bitout := hwf, bitoutCells := hin }
  case clean =>
    obtain ⟨hwf, hin⟩ := storeByteWord_wf (off := off) w h.clean h.cleanCells (by omega)
    exact { h with clean := hwf, cleanCells := hin }
  case noisy =>
    obtain ⟨hwf, hin⟩ := storeByteWord_wf (off := off) w h.noisy h.noisyCells (by omega)
    exact { h with noisy := hwf, noisyCells := hin }

end

/-- An access that goes on in a window is of a whole word of it (R72, R73). -/
theorem window_word_of_locate {p : Config.Params} {a : Access} {b : Buf} {off : Nat} (hs : illegalShape a = none)
    (hl : locate p a.addr.toNat = some (.window b off)) : off < Buf.bytes p b ∧ off % 4 = 0 := by
  obtain ⟨halign, -⟩ := (illegalShape_eq_none_iff a).1 hs
  obtain ⟨hbase, rfl, hlt⟩ := locate_eq_window hl
  have := Buf.base_mod b
  exact ⟨hlt, by omega⟩

theorem buffersOk_performAccess {s t : State} {a : Access} (hp : s.params.wf = true) (h : s.BuffersOk)
    (hx : performAccess s a = .next t) : t.BuffersOk := by
  obtain ⟨hs, ⟨r, -, ⟨-, rfl⟩ | ⟨w, -, rfl⟩⟩ | ⟨b, off, hl, -, ⟨-, w, -, rfl⟩ | ⟨w, -, rfl⟩⟩⟩ := performAccess_next hx
  · exact h.of_eq rfl rfl rfl rfl rfl
  · exact buffersOk_writeReg h r w
  · exact h.of_eq rfl rfl rfl rfl rfl
  · obtain ⟨ho, hm⟩ := window_word_of_locate hs hl
    exact buffersOk_writeBuf h hp b ho hm w

theorem buffersOk_hostStep {s t : State} (hp : s.params.wf = true) (h : s.BuffersOk) (hx : hostStep s = .next t) :
    t.BuffersOk := by
  obtain ⟨-, rfl⟩ | ⟨rest, -, rfl⟩ | ⟨a, rest, -, ha⟩ := hostStep_next hx
  · exact h
  · exact buffersOk_pollStatus h rest
  · exact buffersOk_performAccess (s := withScript s rest) hp (h.of_eq rfl rfl rfl rfl rfl) ha

/-- The writes of a command keep the buffers' form: they begin at cell 0 and end inside the capacity checked. -/
theorem BodyWrites.buffersOk {i : Instr} {L : Latch} {s w : State} (hw : BodyWrites i L s w) (hp : s.params.wf = true)
    (h : s.BuffersOk) : w.BuffersOk := by
  cases i with
  | nop => cases hw; exact h
  | const =>
    obtain ⟨o, -, rfl⟩ := hw
    obtain ⟨h64, -⟩ := (wf_iff s.params).1 hp
    have hsize := o.size_le
    exact { h with
      clean := storeSymbols_wf h.clean _
      cleanCells := storeSymbols_within h.cleanCells _ (by rw [constellation_length]; omega) }
  | mod =>
    obtain ⟨o, zs, -, -, -, hsyms, hzs, rfl⟩ := hw
    exact { h with
      clean := storeSymbols_wf h.clean _
      cleanCells := storeSymbols_within h.cleanCells _ (by rw [modulate_length hzs]; omega) }
  | awgn =>
    obtain ⟨zs, -, hsyms, hzs, rfl⟩ := hw
    obtain ⟨hlen, -⟩ := (collect_eq_some_iff _ _ _).1 hzs
    exact { h with
      noisy := storeSymbols_wf h.noisy _
      noisyCells := storeSymbols_within h.noisyCells _ (by rw [noisySymbols_length]; omega) }
  | demod src =>
    obtain ⟨o, zs, -, -, hbits, hzs, rfl⟩ := hw
    exact { h with
      bitout := Memory.wf_store h.bitout _ _
      bitoutCells := Memory.within_store h.bitoutCells _ _ (by rw [demodulate_length, scan_length hzs]; omega) }
  | seed => cases hw; exact h.of_eq rfl rfl rfl rfl rfl

/-! The moves. -/

/-- A state that differs in the outside world alone meets the invariant with the other. -/
theorem State.Inv.withEnv {s : State} (h : s.Inv) (e : Env) : State.Inv { s with env := e } where
  params   := h.params
  buffers  := h.buffers.of_eq rfl rfl rfl rfl rfl
  busyDone := h.busyDone
  busyErr  := h.busyErr
  idleIdx  := h.idleIdx
  outlen   := h.outlen
  errIdx   := h.errIdx

theorem State.Inv.of_hostKeeps {s t : State} (h : s.Inv) (hk : HostKeeps s t) (hb : t.BuffersOk) : t.Inv where
  params   := hk.params ▸ h.params
  buffers  := hb
  busyDone := fun he => by
    rw [hk.engine] at he
    exact Bool.eq_false_iff.2 (mt hk.done (Bool.eq_false_iff.1 (h.busyDone he)))
  busyErr  := hk.engine ▸ hk.err ▸ h.busyErr
  idleIdx  := hk.engine ▸ hk.err ▸ hk.errIdx ▸ h.idleIdx
  outlen   := hk.params ▸ hk.outlen ▸ h.outlen
  errIdx   := hk.params ▸ hk.errIdx ▸ h.errIdx

/-- A CMD write keeps the invariant: acceptance clears DONE and ERR (R130), a drop sets DROP alone (R132). -/
theorem inv_offer {s : State} (h : s.Inv) (c : Word) : (offer s c).Inv := by
  have hb := buffersOk_offer h.buffers c
  cases he : s.engine with
  | none => rw [offer_of_idle he] at hb ⊢; exact ⟨h.params, hb, fun _ => rfl, fun _ => rfl, nofun, h.outlen, h.errIdx⟩
  | some L => rw [offer_of_busy he] at hb ⊢; exact { h with buffers := hb }

theorem inv_hostStep {s t : State} (h : s.Inv) (hx : hostStep s = .next t) : t.Inv := by
  obtain hk | ⟨c, rest, -, rfl⟩ := hostStep_keeps_or_offers hx
  · exact h.of_hostKeeps hk (buffersOk_hostStep h.params h.buffers hx)
  · exact inv_offer (h.withEnv _) c

/-- A completion meets the invariant where its index names an entry: it leaves the block idle, and no index but for
NonFiniteSymbol (R133). -/
theorem inv_finish {w : State} {e : Code} {j : Nat} (hp : w.params.wf = true) (hb : w.BuffersOk)
    (ho : w.outlen.toNat ≤ w.params.bitCap) (hj : e = .nonFiniteSymbol → j < w.params.symCap) : (finish w e j).Inv where
  params   := hp
  buffers  := hb.of_eq rfl rfl rfl rfl rfl
  busyDone := nofun
  busyErr  := nofun
  idleIdx  := fun _ he => finish_errIdx_of_ne w he j
  outlen   := ho
  errIdx   := by
    obtain ⟨h64, -⟩ := (wf_iff w.params).1 hp
    rw [finish_errIdx, finish_params]
    split_ifs with he
    · exact (Nat.mod_le _ _).trans_lt (hj he)
    · exact Nat.lt_of_lt_of_le (show 0 < 64 by decide) h64

/-- Only DEMOD writes OUTLEN, with a count it has checked against BIT_CAP (R233). -/
theorem BodyWrites.outlen_le {i : Instr} {L : Latch} {s w : State} (hw : BodyWrites i L s w)
    (h : s.outlen.toNat ≤ s.params.bitCap) : w.outlen.toNat ≤ w.params.bitCap := by
  cases i with
  | demod src =>
    obtain ⟨o, zs, -, -, hbits, -, rfl⟩ := hw
    exact (Nat.mod_le _ _).trans hbits
  | nop => cases hw; exact h
  | const => obtain ⟨o, -, rfl⟩ := hw; exact h
  | mod => obtain ⟨o, zs, -, -, -, -, -, rfl⟩ := hw; exact h
  | awgn => obtain ⟨zs, -, -, -, rfl⟩ := hw; exact h
  | seed => cases hw; exact h

theorem inv_exec {i : Instr} {s t : State} (h : s.Inv) (hx : exec i s = .next t) : t.Inv := by
  obtain ⟨L, -, ⟨w, hw, rfl⟩ | ⟨e, j, -, rfl, hj⟩⟩ := exec_next hx
  · exact inv_finish (hw.engineKeeps.params ▸ h.params) (hw.buffersOk h.params h.buffers) (hw.outlen_le h.outlen) nofun
  · exact inv_finish h.params h.buffers h.outlen fun he => (hj he).1.trans_le (hj he).2

/-- Idle, the engine has no step (R282). -/
theorem engineStep_of_idle {s : State} (h : s.engine = none) : engineStep s = .next s := by
  simp only [engineStep, h]

theorem inv_engineStep {s t : State} (h : s.Inv) (hx : engineStep s = .next t) : t.Inv := by
  cases hL : s.engine with
  | none => cases (engineStep_of_idle hL).symm.trans hx; exact h
  | some L =>
    obtain ⟨i, -, hi⟩ | ⟨-, rfl⟩ := engineStep_next hL hx
    · exact inv_exec h hi
    · exact inv_finish h.params h.buffers h.outlen nofun

/-- An idle block of legal capacities whose ERRIDX and OUTLEN are 0 meets the invariant if its buffers do (R54). -/
theorem inv_of_reset_values {s : State} (hp : s.params.wf = true) (hb : s.BuffersOk) (he : s.engine = none)
    (hidx : s.errIdx = 0#32) (hout : s.outlen = 0#32) : s.Inv where
  params   := hp
  buffers  := hb
  busyDone := fun h => by rw [he] at h; cases h
  busyErr  := fun h => by rw [he] at h; cases h
  idleIdx  := fun _ _ => hidx
  outlen   := hout ▸ Nat.zero_le _
  errIdx   := hidx ▸ Nat.lt_of_lt_of_le (show 0 < 64 by decide) ((wf_iff s.params).1 hp).1

/-- An assertion of reset leaves the invariant, whatever it abandons (R290). -/
theorem inv_assertReset {s : State} (hp : s.params.wf = true) : (assertReset s).Inv :=
  inv_of_reset_values hp (buffersOk_assertReset s) rfl rfl rfl

/-- Settles O30: each of the five moves a step can be keeps the invariant. -/
theorem stepKeepsTheInvariant : Obligations.StepKeepsTheInvariant := by
  unfold Obligations.StepKeepsTheInvariant
  intro s t h hx
  obtain ⟨-, -, hx⟩ | ⟨-, -, hx⟩ | ⟨-, -, rfl⟩ | ⟨-, rfl⟩ | ⟨-, rfl⟩ := step_next hx
  · exact inv_hostStep (h.withEnv _) hx
  · exact inv_engineStep (h.withEnv _) hx
  · exact h.withEnv _
  · exact inv_assertReset (s := popTurn s) h.params
  · exact h.withEnv _

/-- Settles O31: the reference values are legal, the buffers empty and the block idle. -/
theorem resetMeetsTheInvariant : Obligations.ResetMeetsTheInvariant :=
  inv_of_reset_values (by decide) (buffersOk_of_empty rfl rfl rfl rfl) rfl rfl rfl

/-! The capacities. -/

theorem hostStep_params {s t : State} (h : hostStep s = .next t) : t.params = s.params := (writerTable.1 s t h).1

theorem engineStep_params {s t : State} (h : engineStep s = .next t) : t.params = s.params := by
  cases hL : s.engine with
  | none => cases (engineStep_of_idle hL).symm.trans h; rfl
  | some L => exact (writerTable.2 s t L hL h).1

/-- Settles O28: no agent writes the capacities, and reset keeps them. -/
theorem capacitiesAreConstant : Obligations.CapacitiesAreConstant := by
  unfold Obligations.CapacitiesAreConstant
  intro s t hx
  obtain ⟨-, -, hx⟩ | ⟨-, -, hx⟩ | ⟨-, -, rfl⟩ | ⟨-, rfl⟩ | ⟨-, rfl⟩ := step_next hx
  · exact hostStep_params (s := popTurn s) hx
  · exact engineStep_params (s := popTurn s) hx
  all_goals rfl

end Sys2Proof.Machine
end

section
/-!
PROOF. Turns and steps: the engine's turn (R134, R106), a command placed (R130, R131), two CMD writes without a wait
(R81), a poll of WAIT (R108), reset (R290, R291), and where a step ends (R133, R49).
-/

namespace Sys2Proof.Machine

/-! Whose turn it is. -/

/-- On the engine's turn a step outside reset is the engine's (R134). -/
theorem step_of_engine {s : State} (hr : s.env.resetHeld = false) (hn : nextTurn s = .engine) :
    step s = engineStep (popTurn s) := by
  simp [step, advance, move, hn, hr]

/-- On the host's turn a step outside reset is the host's (R81). -/
theorem step_of_host {s : State} (hr : s.env.resetHeld = false) (hn : nextTurn s = .host) :
    step s = hostStep (popTurn s) := by
  simp [step, advance, move, hn, hr]

theorem engineStep_of_decode {s : State} {L : Latch} {i : Instr} (hL : s.engine = some L) (hd : decode L.cmd = .ok i) :
    engineStep s = exec i s := by
  simp only [engineStep, hL, hd]

theorem nextTurn_of_turns {s : State} {u : Turn} {ts : List Turn} (h : s.env.turns = u :: ts) : nextTurn s = u := by
  simp only [nextTurn, h]

/-- Where no turn is fixed a command in flight has the engine move (log 1). -/
theorem nextTurn_of_busy {s : State} {L : Latch} (h : s.env.turns = []) (hL : s.engine = some L) :
    nextTurn s = .engine := by
  simp only [nextTurn, h, busy_of_engine hL, if_true]

/-- Where no turn is fixed an idle block leaves the move to the host (log 1). -/
theorem nextTurn_of_idle {s : State} (h : s.env.turns = []) (he : s.engine = none) : nextTurn s = .host := by
  simp [nextTurn, h, State.busy, he]

theorem nextTurn_eq_engine_iff (s : State) :
    nextTurn s = .engine ↔ (∃ ts, s.env.turns = .engine :: ts) ∨ (s.env.turns = [] ∧ ∃ L, s.engine = some L) := by
  cases ht : s.env.turns with
  | cons u ts => simp [nextTurn_of_turns ht]
  | nil =>
    cases he : s.engine with
    | none => simp [nextTurn_of_idle ht he]
    | some L => simp [nextTurn_of_busy ht he]

/-- Settles O4: the engine's turn is `engineStep`, which runs what L.CMD decodes to. -/
theorem stepRunsTheDecodedCommand : Obligations.StepRunsTheDecodedCommand := by
  unfold Obligations.StepRunsTheDecodedCommand
  refine ⟨fun s L i hr hn hL hd => ?_, nextTurn_eq_engine_iff⟩
  rw [step_of_engine hr hn]
  exact engineStep_of_decode (s := popTurn s) hL hd

/-- Settles O5: the placed word is the command's encoding, in flight with the engine's turn first and reset released. -/
theorem placedCommandRunsNext : Obligations.PlacedCommandRunsNext := by
  unfold Obligations.PlacedCommandRunsNext
  intro s i
  have hword : BitVec.ofNat 32 ((encode i).toNat % 2 ^ 32) = encode i := by
    rw [Nat.mod_eq_of_lt (encode i).isLt, BitVec.ofNat_toNat, BitVec.setWidth_eq]
  rw [step_of_engine rfl rfl, State.withFetchWord, placeCommand, hword]
  exact engineStep_of_decode rfl (decode_encode i)

/-! Two CMD writes. -/

/-- On the engine's turn a NOP in flight completes OK (R135). -/
theorem step_of_nop {s : State} {L : Latch} (hr : s.env.resetHeld = false) (hn : nextTurn s = .engine)
    (hL : s.engine = some L) (hc : L.cmd = encode .nop) : step s = .next (finish (popTurn s) .ok 0) := by
  rw [step_of_engine hr hn, engineStep_of_decode (s := popTurn s) hL (hc ▸ decode_encode .nop)]
  exact nopCompletesOk (popTurn s) L hL

section
variable {s : State} {c : Word} {rest : List HostOp} (hr : s.env.resetHeld = false) (hn : nextTurn s = .host)
  (hscript : s.env.script = .access ⟨0x00C#24, 0xF#4, some c⟩ :: rest)
include hr hn hscript

/-- On the host's turn a CMD write to an idle block is accepted (R130). -/
theorem step_of_cmd_idle (he : s.engine = none) : step s = .next (accept (withScript (popTurn s) rest) c) :=
  (commandWriteIsAcceptedWhenIdle s c rest hr hn hscript).1 he

/-- On the host's turn a CMD write to a busy block is dropped (R132). -/
theorem step_of_cmd_busy {L : Latch} (hL : s.engine = some L) :
    step s = .next { withScript (popTurn s) rest with drop := true } :=
  (commandWriteIsAcceptedWhenIdle s c rest hr hn hscript).2 L hL

end

/-- Settles O9: the first write is accepted in both orders; the second finds the block busy, or idle again after the
engine's completion of NOP. -/
theorem backToBackCommandsBothOrders : Obligations.BackToBackCommandsBothOrders := by
  unfold Obligations.BackToBackCommandsBothOrders
  intro s c hr he hscript
  refine ⟨⟨_, ⟨_, step_of_cmd_idle hr rfl hscript he, _, step_of_cmd_busy hr rfl rfl rfl, rfl⟩, rfl, _, rfl, rfl⟩, ?_⟩
  exact ⟨_, ⟨_, step_of_cmd_idle hr rfl hscript he, _, step_of_nop hr rfl rfl rfl, _,
    step_of_cmd_idle hr rfl rfl rfl, rfl⟩, rfl, _, rfl, rfl⟩

/-! WAIT. -/

/-- Settles O45: a poll returns STATUS, and takes WAIT off the script where no command is in flight. -/
theorem waitPollsUntilIdle : Obligations.WaitPollsUntilIdle := by
  unfold Obligations.WaitPollsUntilIdle
  intro s rest hscript
  have hpoll : hostStep s = .next (pollStatus s rest) := by simp only [hostStep, hscript]
  refine ⟨_, hpoll, rfl, ?_⟩
  cases he : s.engine with
  | none => simp [pollStatus, State.busy, he, withScript, returned]
  | some L => simp [pollStatus, busy_of_engine he, returned, hscript, he]

/-! Reset. -/

/-- Settles O33: the step is the assertion, which writes every field. -/
theorem resetAssertionClearsTheBlock : Obligations.ResetAssertionClearsTheBlock := by
  unfold Obligations.ResetAssertionClearsTheBlock
  exact fun s hn => ⟨_, _, step_of_resetAssert hn⟩

/-- Settles O34: while reset is held a move of either agent passes. -/
theorem noAccessWhileResetIsHeld : Obligations.NoAccessWhileResetIsHeld := by
  unfold Obligations.NoAccessWhileResetIsHeld
  rintro s hr (hn | hn) <;> simp [step, advance, move, hn, hr, popTurn]

/-- On the turn of a release of reset a step is that release (R290). -/
theorem step_of_resetRelease {s : State} (h : nextTurn s = .resetRelease) :
    step s = .next (releaseReset (popTurn s)) := by
  rw [step, advance, h]
  rfl

theorem popTurn_of_no_turns {s : State} (h : s.env.turns = []) : popTurn s = s := by
  simp only [popTurn, h, List.tail_nil]
  rw [← h]

/-- Settles O51: the release writes the level of the input alone; after an assertion and it no turn is fixed and the
block is idle, so the host moves. -/
theorem resetReleaseMakesTheBlockReady : Obligations.ResetReleaseMakesTheBlockReady := by
  unfold Obligations.ResetReleaseMakesTheBlockReady
  refine ⟨fun s hn => step_of_resetRelease hn, fun s a rest hturns hscript => ?_⟩
  have hassert := step_of_resetAssert (nextTurn_of_turns hturns)
  have hrelease := step_of_resetRelease (s := assertReset (popTurn s))
    (nextTurn_of_turns (ts := []) (congrArg List.tail hturns))
  refine ⟨_, ⟨_, hassert, _, hrelease, rfl⟩, rfl, rfl, rfl, rfl, ?_⟩
  generalize ht : releaseReset (popTurn (assertReset (popTurn s))) = t
  have hno : t.env.turns = [] := ht ▸ congrArg (List.tail ∘ List.tail) hturns
  have hkept : t.env.script = .access a :: rest := by rw [← ht]; exact hscript
  have hidle : t.engine = none := ht ▸ rfl
  rw [step_of_access (ht ▸ rfl) (nextTurn_of_idle hno hidle) hkept, popTurn_of_no_turns hno]
  rfl

/-! Where a step ends. -/

/-- The engine's step of a command completes it, or stops at a cell it reads that was never written (R133, R49). -/
theorem engineStep_answers {s : State} {L : Latch} (hL : s.engine = some L) :
    (∃ w e j, engineStep s = .next (finish w e j)) ∨
      (engineStep s = .fault .unwrittenOperand ∧ ∃ i, decode L.cmd = .ok i ∧ readsUnwritten s L i) := by
  cases hd : decode L.cmd with
  | error e => exact .inl ⟨_, _, _, engineStep_of_decode_error hL hd⟩
  | ok i =>
    obtain ⟨t, hx⟩ | ⟨hx, hu⟩ := exec_answers i hL <;> rw [← engineStep_of_decode hL hd] at hx
    · obtain ⟨w, e, j, rfl, -⟩ := engineStep_finishes hL hx
      exact .inl ⟨w, e, j, hx⟩
    · exact .inr ⟨hx, i, rfl, hu⟩

/-- Settles O10: where no turn is fixed the step is the engine's, a completion or the stop at an unwritten cell. -/
theorem engineCompletesTheCommand : Obligations.EngineCompletesTheCommand := by
  unfold Obligations.EngineCompletesTheCommand
  intro s L hr hturns hL
  rw [step_of_engine hr (nextTurn_of_busy hturns hL), popTurn_of_no_turns hturns]
  obtain ⟨w, e, j, hx⟩ | hx := engineStep_answers hL
  · exact .inl ⟨_, hx, rfl, rfl, fun he => finish_errIdx_of_ne w he j⟩
  · exact .inr hx

/-- The host's move goes on, or is the access at the head of the script. -/
theorem hostStep_answers (s : State) :
    (∃ t, hostStep s = .next t) ∨
      ∃ a rest, s.env.script = .access a :: rest ∧ hostStep s = performAccess (withScript s rest) a := by
  unfold hostStep
  split
  · exact .inl ⟨s, rfl⟩
  · exact .inl ⟨_, rfl⟩
  · exact .inr ⟨_, _, by assumption, rfl⟩

/-- What a step is: it goes on, or it is an engine's stop at an unwritten cell, or it is the host's next access. -/
theorem step_answers (s : State) :
    (∃ t, step s = .next t) ∨
      (s.env.resetHeld = false ∧ nextTurn s = .engine ∧ step s = .fault .unwrittenOperand ∧
        ∃ L i, s.engine = some L ∧ decode L.cmd = .ok i ∧ readsUnwritten s L i) ∨
      (s.env.resetHeld = false ∧ nextTurn s = .host ∧ ∃ a rest, s.env.script = .access a :: rest ∧
        step s = performAccess (withScript (popTurn s) rest) a) := by
  cases hn : nextTurn s with
  | resetAssert => exact .inl ⟨_, step_of_resetAssert hn⟩
  | resetRelease => exact .inl ⟨_, step_of_resetRelease hn⟩
  | engine =>
    cases hr : s.env.resetHeld with
    | true => exact .inl ⟨_, noAccessWhileResetIsHeld s hr (.inr hn)⟩
    | false =>
      rw [step_of_engine hr hn]
      cases hL : s.engine with
      | none => exact .inl ⟨_, engineStep_of_idle (s := popTurn s) hL⟩
      | some L =>
        obtain ⟨w, e, j, hx⟩ | ⟨hx, i, hd, hu⟩ := engineStep_answers (s := popTurn s) hL
        · exact .inl ⟨_, hx⟩
        · exact .inr (.inl ⟨rfl, rfl, hx, L, i, rfl, hd, by cases i <;> exact hu⟩)
  | host =>
    cases hr : s.env.resetHeld with
    | true => exact .inl ⟨_, noAccessWhileResetIsHeld s hr (.inl hn)⟩
    | false =>
      rw [step_of_host hr hn]
      obtain hx | hx := hostStep_answers (popTurn s)
      · exact .inl hx
      · exact .inr (.inr ⟨rfl, rfl, hx⟩)

/-- The faults of an access that the spec gives the host (U4, U9, U10), in the order in which they are judged. -/
def HostFault (s : State) (a : Access) (f : Fault) : Prop :=
  (f = .busMisaligned ∧ a.addr.toNat % 4 ≠ 0) ∨
    (a.addr.toNat % 4 = 0 ∧ f = .busLanes ∧ a.lanes ≠ 0xF#4) ∨
    (a.addr.toNat % 4 = 0 ∧ a.lanes = 0xF#4 ∧
      ((f = .busUnmapped ∧ locate s.params a.addr.toNat = none) ∨
        ∃ b off, locate s.params a.addr.toNat = some (.window b off) ∧
          ((f = .bufferWhileBusy ∧ s.engine ≠ none) ∨
            (f = .unwrittenHostRead ∧ s.engine = none ∧ a.write = none ∧ readBuf s b off = none))))

theorem engine_eq_none_of_not_busy {s : State} (h : s.busy = false) : s.engine = none :=
  Option.isNone_iff_eq_none.1 (Option.isSome_eq_false_iff.1 h)

theorem engine_ne_none_of_busy {s : State} (h : s.busy = true) : s.engine ≠ none :=
  Option.isSome_iff_ne_none.1 h

/-- A host access goes on or ends in one of those faults. -/
theorem performAccess_next_or_hostFault (s : State) (a : Access) :
    (∃ t, performAccess s a = .next t) ∨ ∃ f, performAccess s a = .fault f ∧ HostFault s a f := by
  obtain hx | ⟨f, hs, hx⟩ | ⟨hs, h⟩ := performAccess_answers s a
  · exact .inl hx
  · refine .inr ⟨f, hx, ?_⟩
    obtain h | h := illegalShape_eq_some hs
    · exact .inl h
    · exact .inr (.inl h)
  · obtain ⟨halign, hlanes⟩ := (illegalShape_eq_none_iff a).1 hs
    obtain ⟨hx, hl⟩ | ⟨b, off, hl, ⟨hx, hb⟩ | ⟨hx, hb, hw, hr⟩⟩ := h
    · exact .inr ⟨_, hx, .inr (.inr ⟨halign, hlanes, .inl ⟨rfl, hl⟩⟩)⟩
    · exact .inr ⟨_, hx, .inr (.inr ⟨halign, hlanes, .inr ⟨b, off, hl, .inl ⟨rfl, engine_ne_none_of_busy hb⟩⟩⟩)⟩
    · exact .inr ⟨_, hx, .inr (.inr ⟨halign, hlanes,
        .inr ⟨b, off, hl, .inr ⟨rfl, engine_eq_none_of_not_busy hb, hw, hr⟩⟩⟩)⟩

/-- Settles O29: a step that does not go on is the engine's stop or a host access, which stops at the spec's faults. -/
theorem stopsAreTheSpecsFaults : Obligations.StopsAreTheSpecsFaults := by
  unfold Obligations.StopsAreTheSpecsFaults
  intro s
  obtain ⟨t, hx⟩ | ⟨hr, hn, hx, hu⟩ | ⟨hr, hn, a, rest, hscript, hx⟩ := step_answers s
  · rw [hx]
    exact ⟨nofun, nofun⟩
  · rw [hx]
    refine ⟨nofun, fun f hf => ?_⟩
    cases hf
    exact ⟨hr, .inl ⟨hn, rfl, hu⟩⟩
  · rw [hx]
    obtain ⟨t, hx⟩ | ⟨f, hx, hfault⟩ := performAccess_next_or_hostFault (withScript (popTurn s) rest) a
    · rw [hx]
      exact ⟨nofun, nofun⟩
    · rw [hx]
      refine ⟨nofun, fun g hg => ?_⟩
      cases hg
      exact ⟨hr, .inr ⟨hn, a, rest, hscript, hfault⟩⟩

end Sys2Proof.Machine
end

section
/-!
PROOF. The registers on the host port (R31 to R44, R54) and the host-script statements (R107, R108).
-/

namespace Sys2Proof.Machine

/-! Registers. -/

/-- Settles O41: each write is that of the register at its offset. -/
theorem registerWrites : Obligations.RegisterWrites := by
  unfold Obligations.RegisterWrites
  intro s w
  have write := fun r => performAccess_writeReg s r w
  exact ⟨write .m, write .len, write .symcnt, write .varLo, write .varHi, write .seedLo, write .seedHi, write .id,
    write .symcap, write .bitcap, write .outlen, write .errIdx⟩

/-- Settles O42: each read is that of the register at its offset. -/
theorem registerReads : Obligations.RegisterReads := by
  unfold Obligations.RegisterReads
  intro s reads
  have read := fun r => performAccess_readReg s r
  exact ⟨read .id, read .symcap, read .bitcap, read .cmd, read .m, read .len, read .symcnt, read .outlen, read .varLo,
    read .varHi, read .seedLo, read .seedHi, read .errIdx⟩

/-- Settles O32: `State.reset` is the table. -/
theorem resetValues : Obligations.ResetValues :=
  ⟨rfl, rfl, rfl, rfl, rfl, rfl, rfl, rfl, rfl, rfl, rfl, rfl, rfl, rfl, rfl, rfl, fun _ => ⟨rfl, rfl, rfl, rfl⟩⟩

/-! STATUS and CTRL. -/

/-- Bit k of STATUS: BUSY, DONE, DROP, and the code's number from bit 8 on (R35). -/
theorem getLsbD_statusWord (s : State) (k : Nat) :
    s.statusWord.getLsbD k =
      if k = 0 then s.busy else if k = 1 then s.done else if k = 2 then s.drop
      else decide (8 ≤ k) && s.err.number.getLsbD (k - 8) := by
  have layout : (0#20 ++ (s.err.number ++ (0#5 ++ (BitVec.ofBool s.drop ++
      (BitVec.ofBool s.done ++ BitVec.ofBool s.busy))))).getLsbD k = s.statusWord.getLsbD k := rfl
  have hcode : 12 ≤ k → s.err.number.getLsbD (k - 8) = false := fun h => BitVec.getLsbD_of_ge _ _ (by omega)
  rw [← layout]
  simp only [BitVec.getLsbD_append, BitVec.getLsbD_zero, BitVec.getLsbD_ofBool]
  split_ifs <;> simp_all <;> omega

/-- The three flags of STATUS (R35). -/
theorem statusWord_flags (s : State) :
    s.statusWord.getLsbD 0 = s.engine.isSome ∧ s.statusWord.getLsbD 1 = s.done ∧ s.statusWord.getLsbD 2 = s.drop :=
  ⟨getLsbD_statusWord s 0, getLsbD_statusWord s 1, getLsbD_statusWord s 2⟩

/-- The code's number in STATUS, and the reserved bits beside it (R35, R44, R260). -/
theorem statusWord_code (s : State) :
    s.statusWord.extractLsb' 3 5 = 0#5 ∧ s.statusWord.extractLsb' 8 4 = s.err.number ∧
      s.statusWord.extractLsb' 12 20 = 0#20 := by
  refine ⟨?_, ?_, ?_⟩ <;> apply BitVec.eq_of_getLsbD_eq <;> intro k hk <;>
    rw [BitVec.getLsbD_extractLsb', getLsbD_statusWord, if_neg (by omega), if_neg (by omega), if_neg (by omega)]
  · simp only [BitVec.getLsbD_zero, show ¬ 8 ≤ 3 + k by omega, decide_false, Bool.false_and, Bool.and_false]
  · simp [hk]
  · rw [BitVec.getLsbD_of_ge _ (12 + k - 8) (by omega)]
    simp

theorem ctrlWord_fields (s : State) : s.ctrlWord.getLsbD 0 = s.irqEn ∧ s.ctrlWord.extractLsb' 1 31 = 0#31 := by
  unfold State.ctrlWord
  cases s.irqEn <;> decide

/-- A STATUS write clears the flags whose bits are 1 (R35). -/
theorem writeStatus_eq (s : State) (w : Word) :
    writeStatus s w = { s with done := s.done && !w.getLsbD 1, drop := s.drop && !w.getLsbD 2 } := by
  unfold writeStatus acknowledge
  cases w.getLsbD 1 <;> simp

/-- Settles O43: the reads return the two words, the writes clear flags and set IRQ_EN. -/
theorem statusAndCtrlFields : Obligations.StatusAndCtrlFields := by
  unfold Obligations.StatusAndCtrlFields
  intro s w
  obtain ⟨hbusy, hdone, hdrop⟩ := statusWord_flags s
  obtain ⟨hlow, hcode, hhigh⟩ := statusWord_code s
  refine ⟨⟨_, performAccess_readReg s .status, hbusy, hdone, hdrop, hlow, hcode.trans ?_, hhigh⟩,
    (performAccess_writeReg s .status w).trans (congrArg _ (writeStatus_eq s w)),
    ⟨_, performAccess_readReg s .ctrl, ctrlWord_fields s⟩, performAccess_writeReg s .ctrl w⟩
  cases s.err <;> rfl

/-! Host scripts. -/

/-- The four accesses of WRSYM, from the offset of its entry on (R108). -/
theorem expand_wrsym (b : Source) (k : Nat) (i q : F64) :
    expand (.wrsym b k i q) =
      [writeAt (Buf.base (Source.buf b) + 16 * k) (i.extractLsb' 0 32),
        writeAt (Buf.base (Source.buf b) + 16 * k + 4) (i.extractLsb' 32 32),
        writeAt (Buf.base (Source.buf b) + 16 * k + 8) (q.extractLsb' 0 32),
        writeAt (Buf.base (Source.buf b) + 16 * k + 12) (q.extractLsb' 32 32)] := by
  have offset : ∀ c, 4 * (4 * k + c) = 16 * k + 4 * c := fun c => by omega
  simp only [expand, offset, ← Nat.add_assoc]
  rw [← Nat.mul_assoc]

/-- Settles O46: the offsets are those of the map, and each statement's expansion is the list of its accesses. -/
theorem scriptStatementsExpand : Obligations.ScriptStatementsExpand := by
  unfold Obligations.ScriptStatementsExpand
  intro write read pair
  exact ⟨rfl, rfl, fun _ _ => rfl, fun _ => rfl, fun _ _ _ => rfl, fun _ _ => rfl, by decide, fun _ => rfl,
    fun _ => rfl, fun k i q => ⟨expand_wrsym .clean k i q, expand_wrsym .noisy k i q⟩, rfl, fun _ => rfl⟩

end Sys2Proof.Machine
end

section
/-!
PROOF. The symbol windows on the host port (R76, R77, R108), and reads and repeated writes (R79).
-/

namespace Sys2Proof.Machine

/-! Reads and repeated writes. -/

/-- A write that goes on is the write of the target its offset names. -/
theorem performAccess_write_next {s t : State} {a : Access} {w : Word} (hw : a.write = some w)
    (h : performAccess s a = .next t) :
    ∃ tg, locate s.params a.addr.toNat = some tg ∧ writeTarget s w tg = .next t := by
  simp only [performAccess, hw] at h
  split at h
  · cases h
  · split at h
    · cases h
    · exact ⟨_, by assumption, h⟩

/-- Writing a target twice is writing it once, but at CMD (R79). -/
theorem writeTarget_writeTarget {s t u : State} {w : Word} {tg : Target} (hcmd : tg ≠ .reg .cmd)
    (h : writeTarget s w tg = .next t) (h' : writeTarget t w tg = .next u) : u = t := by
  cases tg with
  | reg r =>
    cases h
    cases h'
    exact writeReg_writeReg s (fun hr => hcmd (congrArg _ hr)) w
  | window b off =>
    simp only [writeTarget] at h h'
    split at h <;> cases h
    split at h' <;> cases h'
    exact writeBuf_writeBuf s b off w

theorem performAccess_params {s t : State} {a : Access} (h : performAccess s a = .next t) : t.params = s.params := by
  obtain hk | ⟨c, -, rfl⟩ := performAccess_keeps_or_offers h
  · exact hk.params
  · exact writeReg_params s .cmd c

/-- Settles O35: a read only returns its data; a repeated write has the target of the first, and writes it again. -/
theorem readsHaveNoSideEffect : Obligations.ReadsHaveNoSideEffect := by
  unfold Obligations.ReadsHaveNoSideEffect
  refine ⟨fun s t a hread h => ?_, fun s t u a w hw hcmd h h' => ?_⟩
  · obtain ⟨-, ⟨r, -, ⟨-, rfl⟩ | ⟨w, hw, -⟩⟩ | ⟨b, off, -, -, ⟨-, w, -, rfl⟩ | ⟨w, hw, -⟩⟩⟩ := performAccess_next h
    · exact ⟨_, rfl⟩
    · nomatch hread.symm.trans hw
    · exact ⟨w, rfl⟩
    · nomatch hread.symm.trans hw
  · obtain ⟨tg, hl, ht⟩ := performAccess_write_next hw h
    obtain ⟨tg', hl', hu⟩ := performAccess_write_next hw h'
    rw [performAccess_params h, hl] at hl'
    cases hl'
    refine writeTarget_writeTarget (fun htg => hcmd (BitVec.eq_of_toNat_eq ?_)) ht hu
    rw [htg] at hl
    exact locate_eq_reg hl

/-! Words of the symbol windows. -/

section
variable (s : State) (b : Source) (off : Nat) (v : Word)

theorem bytes_symbolBuf (p : Config.Params) : Buf.bytes p (Source.buf b) = 16 * p.symCap := by cases b <;> rfl

theorem readBuf_symbolBuf : readBuf s (Source.buf b) off = loadByteWord (sourceBuffer s b) off := by cases b <;> rfl

@[simp] theorem sourceBuffer_writeBuf :
    sourceBuffer (writeBuf s (Source.buf b) off v) b = storeByteWord (sourceBuffer s b) off v := by
  cases b <;> rfl

@[simp] theorem sourceBuffer_withScript (ops : List HostOp) : sourceBuffer (withScript s ops) b = sourceBuffer s b := by
  cases b <;> rfl

end

/-- Settles O50: an access of an idle block at a symbol window is one run of four cells stored or loaded, and such a run
holds the word's lanes. -/
theorem symbolWindowsHoldWords : Obligations.SymbolWindowsHoldWords := by
  unfold Obligations.SymbolWindowsHoldWords
  intro s b w v hp he hw
  have ho : 4 * w < Buf.bytes s.params (Source.buf b) := by rwa [bytes_symbolBuf]
  have hm : 4 * w % 4 = 0 := Nat.mul_mod_right 4 w
  refine ⟨⟨_, performAccess_writeBuf hp he (Source.buf b) ho hm v, ?_, ?_, by cases b <;> rfl⟩,
    fun byte hbyte => ?_, fun j hj hnone => ?_⟩
  · rw [sourceBuffer_writeBuf]
    exact (get_storeByteWord _ w v).1
  · rw [sourceBuffer_writeBuf]
    exact (get_storeByteWord _ w v).2
  · obtain ⟨r, hr, hload⟩ := loadByteWord_eq_some hbyte
    exact ⟨r, hr, performAccess_readBuf hp he _ ho hm ((readBuf_symbolBuf s b _).trans hload)⟩
  · exact performAccess_readBuf_none hp he _ ho hm ((readBuf_symbolBuf s b _).trans (loadByteWord_eq_none hj hnone))

/-! The four words of an entry. -/

theorem loadSymbol_eq_some_iff {l : List Host.Cell} {k : Nat} {z : Symbol} :
    loadSymbol l k = some z ↔ loadF64 l (16 * k) = some z.i ∧ loadF64 l (16 * k + 8) = some z.q := by
  obtain ⟨i, q⟩ := z
  unfold loadSymbol
  cases loadF64 l (16 * k) <;> cases loadF64 l (16 * k + 8) <;> simp

/-- Word c of a written entry: I low, I high, Q low, Q high (R76). -/
theorem loadByteWord_of_loadSymbol {l : List Host.Cell} {k c : Nat} {z : Symbol} (h : loadSymbol l k = some z)
    (hc : c < 4) :
    loadByteWord l (16 * k + 4 * c) = some ((z.q ++ z.i : BitVec 128).extractLsb' (32 * c) 32) := by
  obtain ⟨hi, hq⟩ := loadSymbol_eq_some_iff.1 h
  obtain ⟨i0, i1⟩ := loadByteWord_of_loadF64 hi
  obtain ⟨q0, q1⟩ := loadByteWord_of_loadF64 hq
  have low : ∀ start, start + 32 ≤ 64 → (z.q ++ z.i : BitVec 128).extractLsb' start 32 = z.i.extractLsb' start 32 :=
    fun _ => BitVec.extractLsb'_append_eq_of_add_le
  have high : ∀ start, 64 ≤ start →
      (z.q ++ z.i : BitVec 128).extractLsb' start 32 = z.q.extractLsb' (start - 64) 32 :=
    fun _ => BitVec.extractLsb'_append_eq_of_le
  match c, hc with
  | 0, _ => rw [low _ (by omega)]; exact i0
  | 1, _ => rw [low _ (by omega)]; exact i1
  | 2, _ => rw [high _ (by omega)]; exact q0
  | 3, _ => rw [high _ (by omega)]; exact q1

/-- Settles O40: the access is a read of word c of the entry's run, inside the window. -/
theorem symbolEntryReadsAsFourWords : Obligations.SymbolEntryReadsAsFourWords := by
  unfold Obligations.SymbolEntryReadsAsFourWords
  intro s b k z hp he hk hz c hc
  rw [Nat.add_assoc]
  exact performAccess_readBuf hp he (Source.buf b) (by rw [bytes_symbolBuf]; omega) (by omega)
    ((readBuf_symbolBuf s b _).trans (loadByteWord_of_loadSymbol hz hc))

/-! WRSYM. -/

theorem Memory.get_store_congr {α : Type} {l r : List (Nat × α)} (h : ∀ i, Memory.get l i = Memory.get r i) (a : Nat)
    (vs : List α) (i : Nat) : Memory.get (Memory.store l a vs) i = Memory.get (Memory.store r a vs) i := by
  rw [Memory.get_store, Memory.get_store, h]

/-- The low and the high word of a component make its eight bytes (R76, R77). -/
theorem get_storeByteWord_pair (l : List Host.Cell) (off : Nat) (v : F64) (i : Nat) :
    Memory.get (storeByteWord (storeByteWord l off (v.extractLsb' 0 32)) (off + 4) (v.extractLsb' 32 32)) i =
      Memory.get (Memory.store l off (bytesLE 8 v.toNat)) i := by
  rw [← bytesLE_words, ← Memory.get_store_append, bytesLE_length]
  rfl

/-- The cells after the four word writes of WRSYM (R108). -/
def storeEntryWords (l : List Host.Cell) (k : Nat) (z : Symbol) : List Host.Cell :=
  storeByteWord (storeByteWord (storeByteWord (storeByteWord l (16 * k) (z.i.extractLsb' 0 32))
    (16 * k + 4) (z.i.extractLsb' 32 32)) (16 * k + 8) (z.q.extractLsb' 0 32)) (16 * k + 12) (z.q.extractLsb' 32 32)

/-- The four words make the entry's sixteen bytes (R76). -/
theorem get_storeEntryWords (l : List Host.Cell) (k : Nat) (z : Symbol) (i : Nat) :
    Memory.get (storeEntryWords l k z) i = Memory.get (Memory.store l (16 * k) z.bytes) i := by
  have hlen : (bytesLE 8 z.i.toNat).length = 8 := bytesLE_length _ _
  rw [storeEntryWords, get_storeByteWord_pair _ (16 * k + 8), Symbol.bytes, ← Memory.get_store_append, hlen]
  exact Memory.get_store_congr (get_storeByteWord_pair l (16 * k) z.i) _ _ i

/-- An entry whose sixteen bytes were stored holds the symbol. -/
theorem loadSymbol_store_bytes (l : List Host.Cell) (k : Nat) (z : Symbol) :
    loadSymbol (Memory.store l (16 * k) z.bytes) k = some z := by
  have hi := Memory.load_store_part l (16 * k) 0 8 z.bytes (by simp)
  have hq := Memory.load_store_part l (16 * k) 8 8 z.bytes (by simp)
  have ilen : (bytesLE 8 z.i.toNat).length = 8 := bytesLE_length _ _
  have qlen : (bytesLE 8 z.q.toNat).length = 8 := bytesLE_length _ _
  rw [Nat.add_zero, List.drop_zero, Symbol.bytes, List.take_left' ilen] at hi
  rw [Symbol.bytes, List.drop_left' ilen, List.take_of_length_le qlen.le] at hq
  refine loadSymbol_eq_some_iff.2 ⟨?_, ?_⟩
  · rw [loadF64, Symbol.bytes, hi, Option.map_some, ofNat_ofBytesLE_bytesLE]
  · rw [loadF64, Symbol.bytes, hq, Option.map_some, ofNat_ofBytesLE_bytesLE]

theorem loadSymbol_storeEntryWords (l : List Host.Cell) (k : Nat) (z : Symbol) :
    loadSymbol (storeEntryWords l k z) k = some z :=
  (loadSymbol_congr fun i _ _ => get_storeEntryWords l k z i).trans (loadSymbol_store_bytes l k z)

/-- The host moves next, reset being released and no command in flight, of a legal block with the capacities p (R81,
log 1). -/
structure State.HostMoves (s : State) (p : Config.Params) : Prop where
  legal    : p.wf = true
  params   : s.params = p
  idle     : s.engine = none
  released : s.env.resetHeld = false
  turns    : s.env.turns = []

section
variable {s : State} {p : Config.Params} (h : s.HostMoves p) {b : Buf} {off : Nat} {v : Word} {rest : List HostOp}
include h

theorem State.HostMoves.writeBuf : (writeBuf (withScript s rest) b off v).HostMoves p := by
  cases b <;> exact ⟨h.legal, h.params, h.idle, h.released, h.turns⟩

/-- A step of such a host at a word write inside a buffer's window is that write. -/
theorem step_of_writeAt (hscript : s.env.script = writeAt (Buf.base b + off) v :: rest) (ho : off < Buf.bytes p b)
    (hm : off % 4 = 0) : step s = .next (writeBuf (withScript s rest) b off v) := by
  obtain ⟨hlegal, rfl, hidle, hreleased, hturns⟩ := h
  rw [step_of_access hreleased (nextTurn_of_idle hturns hidle) hscript, popTurn_of_no_turns hturns]
  exact performAccess_writeBuf (s := withScript s rest) hlegal hidle b ho hm v

end

theorem writeBuf_script (s : State) (b : Buf) (off : Nat) (v : Word) (rest : List HostOp) :
    (writeBuf (withScript s rest) b off v).env.script = rest := by
  cases b <;> rfl

/-- Settles O39: four steps of the host store the four words, which make the entry's sixteen bytes. -/
theorem wrsymWritesTheEntry : Obligations.WrsymWritesTheEntry := by
  unfold Obligations.WrsymWritesTheEntry
  intro s b k i q hp he hr hturns hscript hk
  have h : s.HostMoves s.params := ⟨hp, rfl, he, hr, hturns⟩
  have inside : ∀ c, c < 16 → 16 * k + c < Buf.bytes s.params (Source.buf b) := fun c hc => by
    rw [bytes_symbolBuf]
    omega
  simp only [expand_wrsym, Nat.add_assoc] at hscript
  refine ⟨_,
    ⟨_, step_of_writeAt h hscript (inside 0 (by omega)) (by omega),
      _, step_of_writeAt h.writeBuf (writeBuf_script ..) (inside 4 (by omega)) (by omega),
      _, step_of_writeAt h.writeBuf.writeBuf (writeBuf_script ..) (inside 8 (by omega)) (by omega),
      _, step_of_writeAt h.writeBuf.writeBuf.writeBuf (writeBuf_script ..) (inside 12 (by omega)) (by omega), rfl⟩,
    ?_, ?_, by cases b <;> simp only [Source.buf, writeBuf, withScript]⟩
  · simp only [sourceBuffer_writeBuf, sourceBuffer_withScript]
    exact loadSymbol_storeEntryWords (sourceBuffer s b) k ⟨i, q⟩
  · intro a ha
    simp only [sourceBuffer_writeBuf, sourceBuffer_withScript]
    refine (get_storeEntryWords (sourceBuffer s b) k ⟨i, q⟩ a).trans ?_
    rw [Memory.get_store, if_neg (by rw [Symbol.bytes_length]; omega)]

end Sys2Proof.Machine
end

section
/-!
PROOF. Unwritten operands (R49, R305), the generator's draws (R206, R209), equal seeds (R210), and the outcome of a
command as a function of its operands (R137).
-/

namespace Sys2Proof.Machine

/-! Unwritten operands. -/

/-- The scan stops as unwritten where an entry is unwritten and no written entry below it has a NaN (R233). -/
theorem scan_eq_unwritten {l : List Host.Cell} :
    ∀ {n k d : Nat}, d < n → loadSymbol l (k + d) = none →
      (∀ j z, j < d → loadSymbol l (k + j) = some z → z.hasNaN = false) → scan l k n = .unwritten
  | n + 1, k, d, hd, hnone, hbelow => by
    cases hk : loadSymbol l k with
    | none => simp only [scan, hk]
    | some z =>
      cases d with
      | zero => nomatch hk.symm.trans hnone
      | succ d =>
        have next : ∀ j, k + (j + 1) = k + 1 + j := fun j => by omega
        have hz := hbelow 0 z (by omega) hk
        have ih := scan_eq_unwritten (n := n) (k := k + 1) (d := d) (by omega) (next d ▸ hnone)
          fun j z hj hload => hbelow (j + 1) z (by omega) ((next j).symm ▸ hload)
        simp [scan, hk, hz, ih]

/-- Settles O17: past its checks AWGN reads every entry below the count, and DEMOD scans them up to the first NaN. -/
theorem unwrittenOperandsFault : Obligations.UnwrittenOperandsFault := by
  unfold Obligations.UnwrittenOperandsFault
  intro s L k hL hk hsyms
  refine ⟨fun hf hpos hnone => ?_, fun src o hm hbits hnone hbelow => ?_⟩
  · have hc : collect (loadSymbol s.clean) 0 L.symcnt.toNat = none :=
      (collect_eq_none_iff _ _).2 ⟨k, hk, by rwa [Nat.zero_add]⟩
    rw [exec_awgn hL ((validVar_iff _).2 ⟨hf, hpos⟩) hsyms, hc]
  · have hscan : scan (sourceBuffer s src) 0 L.symcnt.toNat = .unwritten :=
      scan_eq_unwritten hk (by rwa [Nat.zero_add])
        fun j z hj hload => hasNaN_eq_false.2 (hbelow j z hj (by rwa [Nat.zero_add] at hload))
    rw [exec_demod hL ((modOrder_eq_some_iff _ o).2 hm) hsyms hbits, hscan]

/-! The generator. -/

theorem draw_genAfter (g : Config.Gen) (m n : Nat) : draw (genAfter g m) n = draw g (m + n) := by
  rw [draw, genAfter_genAfter, draw]

/-- Settles O24: outputs and states are those of `gauss_next`, and a success of N symbols leaves the state after 2N. -/
theorem drawsAreFiniteAndNeverReused : Obligations.DrawsAreFiniteAndNeverReused := by
  unfold Obligations.DrawsAreFiniteAndNeverReused
  refine ⟨fun g n => ⟨rfl, rfl, rfl, isFinite_draw g n⟩, fun s t L hL h he n => ?_⟩
  rw [rng_of_exec_awgn_ok hL h he, draw_genAfter]

/-- A successful AWGN has read every entry below its count. -/
theorem exists_loadSymbol_of_exec_awgn_ok {s t : State} {L : Latch} (hL : s.engine = some L)
    (h : exec .awgn s = .next t) (he : t.err = .ok) {k : Nat} (hk : k < L.symcnt.toNat) :
    ∃ z, loadSymbol s.clean k = some z := by
  obtain ⟨zs, -, -, hc, -⟩ := exec_awgn_ok hL h he
  refine Option.ne_none_iff_exists'.1 fun hnone => ?_
  have hcnone := (collect_eq_none_iff (f := loadSymbol s.clean) _ 0).2 ⟨k, hk, by rwa [Nat.zero_add]⟩
  nomatch hc.symm.trans hcnone

/-- Settles O23: the generator state after SEED is a function of the seed; the noisy symbols of a success are a function
of the generator state, the variance and the clean symbols. -/
theorem sameSeedSameNoise : Obligations.SameSeedSameNoise := by
  unfold Obligations.SameSeedSameNoise
  refine ⟨fun a b t u La Lb ha hb hseed ht hu => ?_,
    fun a b t u La Lb ha hb hrng hvar hcnt hclean ht hte hu hue => ⟨?_, fun k hk => ?_⟩⟩
  · rw [rng_of_exec_seed ha ht, rng_of_exec_seed hb hu, hseed]
  · rw [rng_of_exec_awgn_ok ha ht hte, rng_of_exec_awgn_ok hb hu hue, hrng, hcnt]
  · obtain ⟨z, hz⟩ := exists_loadSymbol_of_exec_awgn_ok ha ht hte hk
    rw [loadSymbol_of_exec_awgn_ok ha ht hte hk hz,
      loadSymbol_of_exec_awgn_ok hb hu hue (hcnt ▸ hk) ((hclean k hk).symm.trans hz), hrng, hvar]

/-! The outcome of a command. -/

/-- What a command reads is the same in two states (R131, R137): the capacities, the latched set and the buffers, and
for AWGN the generator state. -/
structure SameOperands (i : Instr) (a b : State) : Prop where
  params : a.params = b.params
  engine : a.engine = b.engine
  bitin  : a.bitin = b.bitin
  clean  : a.clean = b.clean
  noisy  : a.noisy = b.noisy
  rng    : i = .awgn → a.rng = b.rng

/-- The outcome of a command is the same in two states (R137): the completion, the symbol buffers, and on success what
the command writes elsewhere. -/
structure SameOutcome (i : Instr) (L : Latch) (t u : State) : Prop where
  err    : u.err = t.err
  errIdx : u.errIdx = t.errIdx
  clean  : u.clean = t.clean
  noisy  : u.noisy = t.noisy
  symcnt : t.err = .ok → i = .const ∨ i = .mod → u.symcnt = t.symcnt
  rng    : t.err = .ok → i = .seed ∨ i = .awgn → u.rng = t.rng
  outlen : t.err = .ok → ∀ src, i = .demod src → u.outlen = t.outlen
  bitout : t.err = .ok → ∀ src, i = .demod src → ∀ n, n < L.symcnt.toNat * ((modOrder L.m).elim 0 Order.bps) →
    Memory.get u.bitout n = Memory.get t.bitout n

/-- Where one answer is a next state the other is one that the first is related to. -/
def Follows (R : State → State → Prop) (x y : Result) : Prop := ∀ t, x = .next t → ∃ u, y = .next u ∧ R t u

theorem follows_next {R : State → State → Prop} {t u : State} (h : R t u) : Follows R (.next t) (.next u) := by
  rintro _ ⟨⟩
  exact ⟨u, rfl, h⟩

theorem follows_fault (R : State → State → Prop) (f : Fault) (y : Result) : Follows R (.fault f) y := nofun

section
variable {i : Instr} {L : Latch} {a b : State} (h : SameOperands i a b)
include h

/-- An error has the same outcome in both states (R266). -/
theorem follows_raise {e : Code} (he : e ≠ .ok) (j : Nat) : Follows (SameOutcome i L) (raise a e j) (raise b e j) :=
  follows_next ⟨rfl, rfl, h.clean.symm, h.noisy.symm, (absurd · he), (absurd · he), (absurd · he), (absurd · he)⟩

/-- The check of the latched M answers alike in both states (R261). -/
theorem follows_withOrder {f g : Order → Result}
    (hfg : ∀ o, modOrder L.m = some o → Follows (SameOutcome i L) (f o) (g o)) :
    Follows (SameOutcome i L) (withOrder a L.m f) (withOrder b L.m g) := by
  cases ho : modOrder L.m with
  | none =>
    rw [withOrder_of_unsupported ho, withOrder_of_unsupported ho]
    exact follows_raise h (by decide) 0
  | some o =>
    rw [withOrder_of_supported ho, withOrder_of_supported ho]
    exact hfg o ho

/-- A check that both states answer alike (R265). -/
theorem follows_check {c : Prop} [Decidable c] {e : Code} {x y : Result} (he : e ≠ .ok)
    (hxy : Follows (SameOutcome i L) x y) :
    Follows (SameOutcome i L) (if c then raise a e 0 else x) (if c then raise b e 0 else y) := by
  split_ifs
  · exact follows_raise h he 0
  · exact hxy

end

theorem sourceBuffer_congr {a b : State} (hc : a.clean = b.clean) (hn : a.noisy = b.noisy) (src : Source) :
    sourceBuffer a src = sourceBuffer b src := by
  cases src
  · exact hc
  · exact hn

/-- The bits DEMOD writes do not depend on what BITOUT held. -/
theorem get_bitout_demodulated_eq (a b : State) {o : Order} {zs : List Symbol} {n i : Nat} (hlen : zs.length = n)
    (hi : i < n * o.bps) :
    Memory.get (demodulated a o n zs).bitout i = Memory.get (demodulated b o n zs).bitout i := by
  have hin : 0 ≤ i ∧ i < 0 + (demodulate o zs).length := ⟨Nat.zero_le i, by rwa [Nat.zero_add, demodulate_length, hlen]⟩
  rw [demodulated_bitout, demodulated_bitout, Memory.get_store, Memory.get_store, if_pos hin, if_pos hin]

/-- Equal operands give equal outcomes, command by command (R137). -/
theorem exec_follows {i : Instr} {a b : State} {L : Latch} (ha : a.engine = some L) (h : SameOperands i a b) :
    Follows (SameOutcome i L) (exec i a) (exec i b) := by
  have hb : b.engine = some L := h.engine ▸ ha
  cases i with
  | nop =>
    rw [nopCompletesOk a L ha, nopCompletesOk b L hb]
    exact follows_next ⟨rfl, rfl, h.clean.symm, h.noisy.symm, nofun, nofun, nofun, nofun⟩
  | seed =>
    rw [exec_seed ha, exec_seed hb]
    exact follows_next ⟨rfl, rfl, h.clean.symm, h.noisy.symm, nofun, fun _ _ => rfl, nofun, nofun⟩
  | const =>
    simp only [exec, execConst, withCommand_of_busy ha, withCommand_of_busy hb]
    refine follows_withOrder h fun o _ => follows_next ?_
    exact ⟨rfl, rfl, by simp [h.clean], h.noisy.symm, fun _ _ => rfl, nofun, nofun, nofun⟩
  | mod =>
    simp only [exec, execMod, withCommand_of_busy ha, withCommand_of_busy hb, ← h.params, ← h.bitin]
    refine follows_withOrder h fun o _ => follows_check h (by decide) (follows_check h (by decide) ?_)
    cases modulate o a.bitin (L.len.toNat / o.bps) with
    | none => exact follows_fault _ _ _
    | some zs =>
      exact follows_next ⟨rfl, rfl, by simp [h.clean], h.noisy.symm, fun _ _ => rfl, nofun, nofun, nofun⟩
  | awgn =>
    simp only [exec, execAwgn, withCommand_of_busy ha, withCommand_of_busy hb, ← h.params, ← h.clean, ← h.rng rfl]
    refine follows_check h (by decide) (follows_check h (by decide) ?_)
    cases collect (loadSymbol a.clean) 0 L.symcnt.toNat with
    | none => exact follows_fault _ _ _
    | some zs =>
      exact follows_next
        ⟨rfl, rfl, h.clean.symm, by simp [h.noisy], nofun, fun _ _ => by simp [h.rng rfl], nofun, nofun⟩
  | demod src =>
    simp only [exec, execDemod, withCommand_of_busy ha, withCommand_of_busy hb, ← h.params,
      ← sourceBuffer_congr h.clean h.noisy]
    refine follows_withOrder h fun o ho => follows_check h (by decide) ?_
    cases hs : scan (sourceBuffer a src) 0 L.symcnt.toNat with
    | unwritten => exact follows_fault _ _ _
    | nan k => exact follows_raise h (by decide) k
    | clear zs =>
      refine follows_next ⟨rfl, rfl, h.clean.symm, h.noisy.symm, nofun, nofun, fun _ _ _ => rfl, fun _ _ _ n hn => ?_⟩
      rw [ho] at hn
      exact get_bitout_demodulated_eq b a (scan_length hs) hn

/-- Settles O26: an illegal word completes alike in every state, and a command's outcome follows its operands. -/
theorem outcomeIsAFunctionOfOperands : Obligations.OutcomeIsAFunctionOfOperands := by
  unfold Obligations.OutcomeIsAFunctionOfOperands
  intro a b t L ha hb hparams hbitin hclean hnoisy hrng ht
  cases hd : decode L.cmd with
  | error e =>
    cases (engineStep_of_decode_error ha hd).symm.trans ht
    exact ⟨_, engineStep_of_decode_error hb hd, rfl, rfl, hclean.symm, hnoisy.symm, nofun⟩
  | ok i =>
    rw [engineStep_of_decode ha hd] at ht
    have hsame : SameOperands i a b := ⟨hparams, ha.trans hb.symm, hbitin, hclean, hnoisy, fun hi => hrng (hi ▸ hd)⟩
    obtain ⟨u, hu, ho⟩ := exec_follows ha hsame t ht
    refine ⟨u, (engineStep_of_decode hb hd).trans hu, ho.err, ho.errIdx, ho.clean, ho.noisy, fun hok => ⟨?_, ?_, ?_⟩⟩
    · simpa using ho.symcnt hok
    · simpa using ho.rng hok
    · intro src hsrc
      cases hsrc
      exact ⟨ho.outlen hok src rfl, ho.bitout hok src rfl⟩

end Sys2Proof.Machine
end

section
/-!
PROOF. The rounded sum and the rounded product of finite values (R10, R207): nearest, ties to even, overflow and zeros.
-/

namespace Sys2Proof.Fp

/-- The rounded value of x, in units of 2^-(1074 + d), with its sign: where it does not overflow it is finite, no finite
value is closer, and one as close leaves its last fraction bit even. -/
theorem pack_round_nearest {x : Int} {d : Nat} {neg : Bool} (hneg : x ≠ 0 → neg = decide (x < 0))
    (hx : ¬ isInf (pack neg (round x.natAbs d)) = true) :
    isFinite (pack neg (round x.natAbs d)) = true ∧ ∀ w : F64, isFinite w = true →
      (x - units (pack neg (round x.natAbs d)) * 2 ^ d).natAbs ≤ (x - units w * 2 ^ d).natAbs ∧
      ((x - units (pack neg (round x.natAbs d)) * 2 ^ d).natAbs = (x - units w * 2 ^ d).natAbs →
        units w ≠ units (pack neg (round x.natAbs d)) → frac (pack neg (round x.natAbs d)) % 2 = 0) := by
  have hlow : low (pack neg (round x.natAbs d)) = round x.natAbs d := low_pack _ (round_lt _ _)
  rw [isInf_iff, hlow] at hx
  have hr : round x.natAbs d < infBits := lt_of_le_of_ne (round_le _ _) hx
  refine ⟨?_, fun w hw => round_nearest_signed hr hneg hw⟩
  rwa [isFinite_iff, hlow]

section
variable {nan a b : F64} (ha : isFinite a = true) (hb : isFinite b = true)
include ha hb

theorem sign_add_of_overflow (h : (2 ^ 54 - 1) * 2 ^ 2044 ≤ (units a + units b).natAbs) :
    sign (add nan a b) = true ↔ units a + units b < 0 := by
  obtain ⟨neg, hneg, hadd⟩ := add_of_finite (nan := nan) ha hb
  have hne : units a + units b ≠ 0 := fun h0 => by
    rw [h0, Int.natAbs_zero] at h
    exact absurd h (not_le.2 (Nat.mul_pos (by decide) (pow_pos (by decide) 2044)))
  rw [hadd, sign_pack _ (round_lt _ _), hneg hne, decide_eq_true_eq]

/-- An exact zero sum is a zero, negative only where both terms are (R207, vector N4). -/
theorem add_of_zero_sum (h : units a + units b = 0) : add nan a b = pack (sign a && sign b) 0 := by
  simp [add, not_isNaN_of_isFinite ha, not_isInf_of_isFinite ha, not_isNaN_of_isFinite hb, not_isInf_of_isFinite hb, h]

end

/-- The exclusive or of the signs is the sign of a product that is no zero (R10). -/
theorem sign_bne_sign {a b : F64} (h : units a * units b ≠ 0) :
    (sign a != sign b) = decide (units a * units b < 0) := by
  obtain ⟨ha, hb⟩ := mul_ne_zero_iff.1 h
  rw [← units_neg_iff (Bool.eq_false_iff.2 (mt units_of_isZero ha)),
    ← units_neg_iff (Bool.eq_false_iff.2 (mt units_of_isZero hb))]
  rcases lt_or_gt_of_ne ha with ha | ha <;> rcases lt_or_gt_of_ne hb with hb | hb
  · simp [ha, hb, not_lt.2 (mul_pos_of_neg_of_neg ha hb).le]
  · simp [ha, not_lt.2 hb.le, mul_neg_of_neg_of_pos ha hb]
  · simp [not_lt.2 ha.le, hb, mul_neg_of_pos_of_neg ha hb]
  · simp [not_lt.2 ha.le, not_lt.2 hb.le, not_lt.2 (mul_pos ha hb).le]

theorem natAbs_units_mul (a b : F64) : (units a * units b).natAbs = mag a * mag b := by
  rw [Int.natAbs_mul, units_natAbs, units_natAbs]

/-- Settles O47: the sum is `round` of the exact one, with its sign. -/
theorem addRoundsToNearestEven : Obligations.AddRoundsToNearestEven := by
  unfold Obligations.AddRoundsToNearestEven
  intro nan a b ha hb sum r
  refine ⟨fun h => ?_, fun h => ⟨isInf_add_of_overflow ha hb h, sign_add_of_overflow ha hb h⟩, fun h => ?_⟩
  · obtain ⟨neg, hneg, hadd⟩ := add_of_finite (nan := nan) ha hb
    have hnear := pack_round_nearest (d := 0) hneg (by rwa [isInf_pack_round_iff, not_le, Nat.pow_zero, Nat.mul_one])
    simp only [← hadd, pow_zero, mul_one] at hnear
    exact hnear
  · rw [show r = _ from add_of_zero_sum ha hb h, isZero_iff, low_pack _ (by norm_num), sign_pack _ (by norm_num)]
    exact ⟨rfl, rfl⟩

/-- Settles O48: the product is `round` of the exact one, in units of 2^-2148, with its sign. -/
theorem mulRoundsToNearestEven : Obligations.MulRoundsToNearestEven := by
  unfold Obligations.MulRoundsToNearestEven
  intro nan a b ha hb prod r
  obtain ⟨d, hd⟩ : ∃ d, d = 1074 := ⟨_, rfl⟩
  have hone : (2 : Int) ^ d = one := by exact_mod_cast two_pow_eq_one hd
  have hmul : r = pack (sign a != sign b) (round prod.natAbs d) := by
    rw [natAbs_units_mul, hd]
    exact mul_of_finite ha hb
  refine ⟨by rw [hmul, sign_pack _ (round_lt _ _)], fun h => ?_, fun h => ?_⟩
  · have hnear := pack_round_nearest (d := d) sign_bne_sign (by rwa [isInf_pack_round_iff, not_le, two_pow_eq_one hd])
    rw [← hmul, hone] at hnear
    exact hnear
  · rw [show prod.natAbs = mag a * mag b from natAbs_units_mul a b] at h
    exact isInf_mul_of_overflow ha hb h

end Sys2Proof.Fp
end
